-- ==== Sys2Proof/Word.lean ====
section
/-! DEFINITION. The machine's byte and register word (20_memory R50, 10_state R20). -/

namespace Sys2Proof

/-- A byte of memory, a colour channel of a pixel, an alpha value (R50, R56). -/
abbrev Byte := BitVec 8

/-- The content of one command register, and a memory address as the host writes it (R20, R50). -/
abbrev Word := BitVec 32

end Sys2Proof
end

