-- ==== Sys2Proof/Machine/Arith.lean ====
section
/-! DEFINITION. The arithmetic of 00_scope R10 to R13 that every engine uses. -/

namespace Sys2Proof.Machine

open Sys2Proof

/-- `rep_n` (R13): bit replication of an `n`-bit field, `4 ≤ n ≤ 7`, to eight bits. -/
def rep {n : Nat} (v : BitVec n) : Byte :=
  (v.setWidth 8 <<< (8 - n)) ||| (v.setWidth 8 >>> (2 * n - 8))

/-- `sext_3` (R12). -/
def sext3 (v : BitVec 3) : Int := v.toInt

/-- `clamp255` (R11). -/
def clamp255 (v : Int) : Byte :=
  if v < 0 then 0 else if 255 < v then 255 else BitVec.ofInt 8 v

/-- `ceil_div(a, b)` (R11), for `b > 0`. -/
def ceilDiv (a b : Nat) : Nat := (a + b - 1) / b

/-- A 5-bit colour plus its 3-bit delta stays in 0 to 31: the negation of `out_of_range` (43_etc R185). -/
def sumInRange (c : BitVec 5) (d : BitVec 3) : Bool :=
  decide (0 ≤ (c.toNat : Int) + sext3 d) && decide ((c.toNat : Int) + sext3 d ≤ 31)

/-- `le(B, 0, n)` (R10): first byte least significant. -/
def leNat : List Byte → Nat
  | [] => 0
  | b :: bs => b.toNat + 256 * leNat bs

/-- `be(B, 0, n)` (R10): first byte most significant. -/
def beNat (bs : List Byte) : Nat := leNat bs.reverse

/-- The `n` bytes of a number, least significant first. -/
def leBytes : Nat → Nat → List Byte
  | 0, _ => []
  | n + 1, v => BitVec.ofNat 8 v :: leBytes n (v / 256)

/-- The `n` bytes of a number, most significant first. -/
def beBytes (n v : Nat) : List Byte := (leBytes n v).reverse

/-- `n` is a power of two (40_commands R106). -/
def isPow2 (n : Nat) : Bool := decide (0 < n) && decide (n = 2 ^ n.log2)

end Sys2Proof.Machine
end

