-- ==== Sys2Proof/Syntax.lean ====
section
/-! DEFINITION. The instructions: one constructor of `Instr` for each row of spec/opcode_table.json (30_encoding R86). The
rows lie over three kinds of word: the value written to CTRL (START, CLEAR), the nine bits `x[2][8:0]` that select a command
(DECODE rows, the reserved row), and words inside a compressed block (the block rows). -/

namespace Sys2Proof

/-- The eight commands of R71. -/
inductive Format where
  | dxt1 | dxt5 | etc1 | etc2 | etc2a1 | etc2a8 | pvrtc4 | pvrtc2
deriving DecidableEq, Repr

/-- Fields of a DXT colour block (R74): endpoints and sixteen 2-bit indices. -/
structure DxtColour where
  q0  : BitVec 16
  q1  : BitVec 16
  idx : BitVec 32
deriving DecidableEq, Repr

/-- Fields of a DXT5 alpha block (R75): endpoints and sixteen 3-bit indices. -/
structure DxtAlpha where
  a0  : Byte
  a1  : Byte
  idx : BitVec 48
deriving DecidableEq, Repr

/-- Fields of an ETC block in Individual mode (R77, R76): `m` and `l` are the high and low bits of the pixel codes. -/
structure EtcIndividual where
  r1 : BitVec 4
  r2 : BitVec 4
  g1 : BitVec 4
  g2 : BitVec 4
  b1 : BitVec 4
  b2 : BitVec 4
  tw0 : BitVec 3
  tw1 : BitVec 3
  flip : BitVec 1
  m : BitVec 16
  l : BitVec 16
deriving DecidableEq, Repr

/-- Fields of an ETC block in Differential mode (R77, R76). -/
structure EtcDifferential where
  r  : BitVec 5
  dr : BitVec 3
  g  : BitVec 5
  dg : BitVec 3
  b  : BitVec 5
  db : BitVec 3
  tw0 : BitVec 3
  tw1 : BitVec 3
  flip : BitVec 1
  m : BitVec 16
  l : BitVec 16
deriving DecidableEq, Repr

/-- Fields of an ETC2 block in T mode (R81); the ignored bits are not fields. -/
structure EtcT where
  r1 : BitVec 4
  g1 : BitVec 4
  b1 : BitVec 4
  r2 : BitVec 4
  g2 : BitVec 4
  b2 : BitVec 4
  di : BitVec 3
  m : BitVec 16
  l : BitVec 16
deriving DecidableEq, Repr

/-- Fields of an ETC2 block in H mode (R82). -/
structure EtcH where
  r1 : BitVec 4
  g1 : BitVec 4
  b1 : BitVec 4
  r2 : BitVec 4
  g2 : BitVec 4
  b2 : BitVec 4
  da : BitVec 1
  db : BitVec 1
  m : BitVec 16
  l : BitVec 16
deriving DecidableEq, Repr

/-- Fields of an ETC2 block in Planar mode (R83): the corner colours O, H, V. -/
structure EtcPlanar where
  ro : BitVec 6
  go : BitVec 7
  bo : BitVec 6
  rh : BitVec 6
  gh : BitVec 7
  bh : BitVec 6
  rv : BitVec 6
  gv : BitVec 7
  bv : BitVec 6
deriving DecidableEq, Repr

/-- Fields of an EAC alpha block (R79). -/
structure EacAlpha where
  base : Byte
  mult : BitVec 4
  tsel : BitVec 4
  idx  : BitVec 48
deriving DecidableEq, Repr

/-- One constructor per row of the opcode table. The operands `src, len, dst, w, h` of a command are registers, not part of
the word its row is about (R70, R86); `is2` of the first six commands is an ignored bit (R71). -/
inductive Instr where
  /-- START (R100); `clear` is bit 1 of the written value, ignored (R21). -/
  | start (clear : Bool)
  /-- CLEAR (R102). -/
  | clear
  /-- DECODE.DXT1 (R111). -/
  | decodeDxt1 (is2 : Bool)
  /-- DECODE.DXT5 (R112). -/
  | decodeDxt5 (is2 : Bool)
  /-- DECODE.ETC1 (R113). -/
  | decodeEtc1 (is2 : Bool)
  /-- DECODE.ETC2 (R114). -/
  | decodeEtc2 (is2 : Bool)
  /-- DECODE.ETC2A1 (R115). -/
  | decodeEtc2a1 (is2 : Bool)
  /-- DECODE.ETC2A8 (R116). -/
  | decodeEtc2a8 (is2 : Bool)
  /-- DECODE.PVRTC4 (R117). -/
  | decodePvrtc4
  /-- DECODE.PVRTC2 (R118). -/
  | decodePvrtc2
  /-- The reserved selectors (R73). -/
  | reservedFmt (fmt : BitVec 8) (is2 : Bool)
  /-- DXT1.FOUR (R144). -/
  | dxt1Four (b : DxtColour)
  /-- DXT1.THREE (R145). -/
  | dxt1Three (b : DxtColour)
  /-- DXT5.ALPHA7 (R151). -/
  | dxt5Alpha7 (a : DxtAlpha)
  /-- DXT5.ALPHA5 (R152). -/
  | dxt5Alpha5 (a : DxtAlpha)
  /-- DXT5.COLOR (R153). -/
  | dxt5Color (b : DxtColour)
  /-- ETC.INDIVIDUAL (R180). -/
  | etcIndividual (b : EtcIndividual)
  /-- ETC.T (R182). -/
  | etcT (b : EtcT)
  /-- ETC.H (R183). -/
  | etcH (b : EtcH)
  /-- ETC.PLANAR (R184). -/
  | etcPlanar (b : EtcPlanar)
  /-- ETC.DIFFERENTIAL (R181). -/
  | etcDifferential (b : EtcDifferential)
  /-- EAC.ALPHA (R189). -/
  | eacAlpha (b : EacAlpha)
  /-- ETC2A1.BLOCK (R186). -/
  | etc2a1Block (alpha : Byte) (colour : BitVec 64)
  /-- ETC2A8.BLOCK (R190). -/
  | etc2a8Block (alpha : BitVec 64) (colour : BitVec 64)
  /-- PVRTC.BLOCK (R222). -/
  | pvrtcBlock (ca : BitVec 16) (cb : BitVec 16) (m : BitVec 32)
  /-- PVRTC.COLA.OPAQUE (R225). -/
  | pvrtcColaOpaque (r : BitVec 5) (g : BitVec 5) (b : BitVec 4) (mflag : BitVec 1)
  /-- PVRTC.COLA.TRANSLUCENT (R225). -/
  | pvrtcColaTranslucent (a : BitVec 3) (r : BitVec 4) (g : BitVec 4) (b : BitVec 3) (mflag : BitVec 1)
  /-- PVRTC.COLB.OPAQUE (R226). -/
  | pvrtcColbOpaque (r : BitVec 5) (g : BitVec 5) (b : BitVec 5)
  /-- PVRTC.COLB.TRANSLUCENT (R226). -/
  | pvrtcColbTranslucent (a : BitVec 3) (r : BitVec 4) (g : BitVec 4) (b : BitVec 4)
  /-- PVRTC.MOD4.STANDARD (R228). -/
  | pvrtcMod4Standard (m : BitVec 32)
  /-- PVRTC.MOD4.PUNCHTHROUGH (R228, R231). -/
  | pvrtcMod4Punchthrough (m : BitVec 32)
  /-- PVRTC.MOD2.DIRECT (R229). -/
  | pvrtcMod2Direct (m : BitVec 32)
  /-- PVRTC.MOD2.INTERPOLATED (R230). -/
  | pvrtcMod2Interpolated (m : BitVec 32)
deriving DecidableEq, Repr

/-- Which word a decoder is looking at: the table's `format` and `word` keys, with the conditions that come from outside
the word (the command's format for `etcColour`, `is2` and `mflag` for `modulation`). -/
inductive WordKind where
  | ctrl
  | command
  | dxt1
  | dxt5Alpha
  | dxt5Colour
  | etcColour (etc2 : Bool)
  | eacAlpha
  | etc2a1
  | etc2a8
  | pvrtc
  | colourA
  | colourB
  | modulation (is2 : Bool) (mflag : Bool)
deriving DecidableEq, Repr

end Sys2Proof
end

