-- ==== Sys2Proof/WellFormed.lean ====
section
/-! DEFINITION. Well-formed instructions: the conditions of the opcode table's rows that the fields alone decide. -/

namespace Sys2Proof

/-- Every sum of base and delta lies in 0 to 31 (43_etc R174). -/
def EtcDifferential.sumsInRange (b : EtcDifferential) : Bool :=
  Machine.sumInRange b.r b.dr && Machine.sumInRange b.g b.dg && Machine.sumInRange b.b b.db

/-- The row's own `condition` key, where it is about the row's fields: `q0 > q1` or not (R143), `a0 > a1` or not (R151,
R152), a selector without an engine (R73). Every value of every other field is legal (R84). -/
def Instr.wf : Instr → Bool
  | .start _ => true
  | .clear => true
  | .decodeDxt1 _ => true
  | .decodeDxt5 _ => true
  | .decodeEtc1 _ => true
  | .decodeEtc2 _ => true
  | .decodeEtc2a1 _ => true
  | .decodeEtc2a8 _ => true
  | .decodePvrtc4 => true
  | .decodePvrtc2 => true
  | .reservedFmt fmt _ => decide (fmt = 0) || decide (8 ≤ fmt.toNat)
  | .dxt1Four b => decide (b.q1.toNat < b.q0.toNat)
  | .dxt1Three b => decide (b.q0.toNat ≤ b.q1.toNat)
  | .dxt5Alpha7 a => decide (a.a1.toNat < a.a0.toNat)
  | .dxt5Alpha5 a => decide (a.a0.toNat ≤ a.a1.toNat)
  | .dxt5Color _ => true
  | .etcIndividual _ => true
  | .etcT _ => true
  | .etcH _ => true
  | .etcPlanar _ => true
  | .etcDifferential _ => true
  | .eacAlpha _ => true
  | .etc2a1Block _ _ => true
  | .etc2a8Block _ _ => true
  | .pvrtcBlock _ _ _ => true
  | .pvrtcColaOpaque _ _ _ _ => true
  | .pvrtcColaTranslucent _ _ _ _ _ => true
  | .pvrtcColbOpaque _ _ _ => true
  | .pvrtcColbTranslucent _ _ _ _ => true
  | .pvrtcMod4Standard _ => true
  | .pvrtcMod4Punchthrough _ => true
  | .pvrtcMod2Direct _ => true
  | .pvrtcMod2Interpolated _ => true

end Sys2Proof
end

