-- ==== Sys2Proof/Decode.lean ====
section
/-! DEFINITION. The decoder and the encoder of 30_encoding. Each row's word is one number, with the byte assembly its rule
gives (`le` for commands, DXT and PVRTC, `be` for ETC and EAC, R54); decoding is total, and what is no instruction is refused
by name. -/

namespace Sys2Proof

open Sys2Proof.Machine

/-- Why a word is no instruction. -/
inductive DecodeError where
  /-- A value written to CTRL with bits 1:0 both 0: "A write with both bits 0 does nothing" (R21). -/
  | noStrobe
  /-- Not as many bytes as the word has (R72: the length of a block is fixed by its format). -/
  | wrongLength
deriving DecidableEq, Repr

/-- The selector table of R71: none is UnknownFormat (R73). -/
def formatOf (fmt : BitVec 8) (is2 : Bool) : Option Format :=
  match fmt.toNat with
  | 1 => some .dxt1
  | 2 => some .dxt5
  | 3 => some .etc1
  | 4 => some .etc2
  | 5 => some .etc2a1
  | 6 => some .etc2a8
  | 7 => if is2 then some .pvrtc2 else some .pvrtc4
  | _ => none

/-! ### The words, row by row -/

/-- The strobes of CTRL (R21): START wins when both bits are set. -/
def decodeCtrl (v : BitVec 32) : Except DecodeError Instr :=
  if v.getLsbD 0 then .ok (.start (v.getLsbD 1))
  else if v.getLsbD 1 then .ok .clear
  else .error .noStrobe

/-- The command word `x[2][8:0]` (R70, R71, R73). -/
def decodeCommand (v : BitVec 9) : Instr :=
  match formatOf (v.extractLsb 7 0) (v.getLsbD 8) with
  | some .dxt1 => .decodeDxt1 (v.getLsbD 8)
  | some .dxt5 => .decodeDxt5 (v.getLsbD 8)
  | some .etc1 => .decodeEtc1 (v.getLsbD 8)
  | some .etc2 => .decodeEtc2 (v.getLsbD 8)
  | some .etc2a1 => .decodeEtc2a1 (v.getLsbD 8)
  | some .etc2a8 => .decodeEtc2a8 (v.getLsbD 8)
  | some .pvrtc4 => .decodePvrtc4
  | some .pvrtc2 => .decodePvrtc2
  | none => .reservedFmt (v.extractLsb 7 0) (v.getLsbD 8)

/-- The fields of a DXT colour block in `D = le(B, 0, 8)` (R74). -/
def dxtColourOf (d : BitVec 64) : DxtColour :=
  { q0 := d.extractLsb 15 0, q1 := d.extractLsb 31 16, idx := d.extractLsb 63 32 }

/-- The fields of a DXT5 alpha block in `A = le(B, 0, 8)` (R75). -/
def dxtAlphaOf (a : BitVec 64) : DxtAlpha :=
  { a0 := a.extractLsb 7 0, a1 := a.extractLsb 15 8, idx := a.extractLsb 63 16 }

/-- DXT1: four-colour mode exactly when `q0 > q1`, unsigned (R143). -/
def decodeDxt1Word (d : BitVec 64) : Instr :=
  if (dxtColourOf d).q1.toNat < (dxtColourOf d).q0.toNat then .dxt1Four (dxtColourOf d)
  else .dxt1Three (dxtColourOf d)

/-- DXT5 alpha half: the divisor-7 ramp exactly when `a0 > a1`, unsigned (R151, R152). -/
def decodeDxt5AlphaWord (a : BitVec 64) : Instr :=
  if (dxtAlphaOf a).a1.toNat < (dxtAlphaOf a).a0.toNat then .dxt5Alpha7 (dxtAlphaOf a)
  else .dxt5Alpha5 (dxtAlphaOf a)

/-- The five ETC modes (R170). -/
inductive EtcMode where
  | individual | differential | t | h | planar
deriving DecidableEq, Repr

/-- Mode selection (R171 to R174, R185): the diff bit, then for ETC2 the red, green and blue sums in that order. -/
def etcMode (etc2 : Bool) (w : BitVec 64) : EtcMode :=
  if w.getLsbD 33 = false then .individual
  else if etc2 && !sumInRange (w.extractLsb 63 59) (w.extractLsb 58 56) then .t
  else if etc2 && !sumInRange (w.extractLsb 55 51) (w.extractLsb 50 48) then .h
  else if etc2 && !sumInRange (w.extractLsb 47 43) (w.extractLsb 42 40) then .planar
  else .differential

/-- Individual layout (R77) in `W = be(B, 0, 8)`. -/
def etcIndividualOf (w : BitVec 64) : EtcIndividual :=
  { r1 := w.extractLsb 63 60, r2 := w.extractLsb 59 56, g1 := w.extractLsb 55 52, g2 := w.extractLsb 51 48,
    b1 := w.extractLsb 47 44, b2 := w.extractLsb 43 40, tw0 := w.extractLsb 39 37, tw1 := w.extractLsb 36 34,
    flip := w.extractLsb 32 32, m := w.extractLsb 31 16, l := w.extractLsb 15 0 }

/-- Differential layout (R77). -/
def etcDifferentialOf (w : BitVec 64) : EtcDifferential :=
  { r := w.extractLsb 63 59, dr := w.extractLsb 58 56, g := w.extractLsb 55 51, dg := w.extractLsb 50 48,
    b := w.extractLsb 47 43, db := w.extractLsb 42 40, tw0 := w.extractLsb 39 37, tw1 := w.extractLsb 36 34,
    flip := w.extractLsb 32 32, m := w.extractLsb 31 16, l := w.extractLsb 15 0 }

/-- T layout (R81). -/
def etcTOf (w : BitVec 64) : EtcT :=
  { r1 := w.extractLsb 60 59 ++ w.extractLsb 57 56, g1 := w.extractLsb 55 52, b1 := w.extractLsb 51 48,
    r2 := w.extractLsb 47 44, g2 := w.extractLsb 43 40, b2 := w.extractLsb 39 36,
    di := w.extractLsb 35 34 ++ w.extractLsb 32 32, m := w.extractLsb 31 16, l := w.extractLsb 15 0 }

/-- H layout (R82). -/
def etcHOf (w : BitVec 64) : EtcH :=
  { r1 := w.extractLsb 62 59, g1 := w.extractLsb 58 56 ++ w.extractLsb 52 52,
    b1 := w.extractLsb 51 51 ++ w.extractLsb 49 48 ++ w.extractLsb 47 47,
    r2 := w.extractLsb 46 43, g2 := w.extractLsb 42 40 ++ w.extractLsb 39 39, b2 := w.extractLsb 38 35,
    da := w.extractLsb 34 34, db := w.extractLsb 32 32, m := w.extractLsb 31 16, l := w.extractLsb 15 0 }

/-- Planar layout (R83). -/
def etcPlanarOf (w : BitVec 64) : EtcPlanar :=
  { ro := w.extractLsb 62 57, go := w.extractLsb 56 56 ++ w.extractLsb 54 49,
    bo := w.extractLsb 48 48 ++ w.extractLsb 44 43 ++ w.extractLsb 41 39,
    rh := w.extractLsb 38 34 ++ w.extractLsb 32 32, gh := w.extractLsb 31 25, bh := w.extractLsb 24 19,
    rv := w.extractLsb 18 13, gv := w.extractLsb 12 6, bv := w.extractLsb 5 0 }

/-- One ETC colour block (R185). -/
def decodeEtcColourWord (etc2 : Bool) (w : BitVec 64) : Instr :=
  match etcMode etc2 w with
  | .individual => .etcIndividual (etcIndividualOf w)
  | .differential => .etcDifferential (etcDifferentialOf w)
  | .t => .etcT (etcTOf w)
  | .h => .etcH (etcHOf w)
  | .planar => .etcPlanar (etcPlanarOf w)

/-- The EAC alpha block in `be(B, 0, 8)` (R79). -/
def eacAlphaOf (w : BitVec 64) : EacAlpha :=
  { base := w.extractLsb 63 56, mult := w.extractLsb 55 52, tsel := w.extractLsb 51 48, idx := w.extractLsb 47 0 }

/-- Colour A word (R80, R225): `ca[15]` says opaque. -/
def decodeColourAWord (ca : BitVec 16) : Instr :=
  if ca.getLsbD 15 then
    .pvrtcColaOpaque (ca.extractLsb 14 10) (ca.extractLsb 9 5) (ca.extractLsb 4 1) (ca.extractLsb 0 0)
  else
    .pvrtcColaTranslucent (ca.extractLsb 14 12) (ca.extractLsb 11 8) (ca.extractLsb 7 4) (ca.extractLsb 3 1)
      (ca.extractLsb 0 0)

/-- Colour B word (R80, R226): `cb[15]` says opaque. -/
def decodeColourBWord (cb : BitVec 16) : Instr :=
  if cb.getLsbD 15 then .pvrtcColbOpaque (cb.extractLsb 14 10) (cb.extractLsb 9 5) (cb.extractLsb 4 0)
  else
    .pvrtcColbTranslucent (cb.extractLsb 14 12) (cb.extractLsb 11 8) (cb.extractLsb 7 4) (cb.extractLsb 3 0)

/-- The modulation field (R227): the reading depends on the command's `is2` and the block's `mflag`. -/
def decodeModulationWord (is2 mflag : Bool) (m : BitVec 32) : Instr :=
  match is2, mflag with
  | false, false => .pvrtcMod4Standard m
  | false, true => .pvrtcMod4Punchthrough m
  | true, false => .pvrtcMod2Direct m
  | true, true => .pvrtcMod2Interpolated m

/-! ### All words -/

/-- The number of bytes of a word. A register word counts as four (log 26). -/
def WordKind.bytes : WordKind → Nat
  | .ctrl => 4
  | .command => 4
  | .dxt1 => 8
  | .dxt5Alpha => 8
  | .dxt5Colour => 8
  | .etcColour _ => 8
  | .eacAlpha => 8
  | .etc2a1 => 9
  | .etc2a8 => 16
  | .pvrtc => 8
  | .colourA => 2
  | .colourB => 2
  | .modulation _ _ => 4

/-- Whether the word's first byte is its most significant (R54, R76, R78, R79). -/
def WordKind.bigEndian : WordKind → Bool
  | .etcColour _ => true
  | .eacAlpha => true
  | .etc2a1 => true
  | .etc2a8 => true
  | .ctrl => false
  | .command => false
  | .dxt1 => false
  | .dxt5Alpha => false
  | .dxt5Colour => false
  | .pvrtc => false
  | .colourA => false
  | .colourB => false
  | .modulation _ _ => false

/-- The instruction in a word, its bits numbered as the opcode table numbers them. -/
def decodeWord (k : WordKind) (w : Nat) : Except DecodeError Instr :=
  match k with
  | .ctrl => decodeCtrl (BitVec.ofNat 32 w)
  | .command => .ok (decodeCommand (BitVec.ofNat 9 w))
  | .dxt1 => .ok (decodeDxt1Word (BitVec.ofNat 64 w))
  | .dxt5Alpha => .ok (decodeDxt5AlphaWord (BitVec.ofNat 64 w))
  | .dxt5Colour => .ok (.dxt5Color (dxtColourOf (BitVec.ofNat 64 w)))
  | .etcColour etc2 => .ok (decodeEtcColourWord etc2 (BitVec.ofNat 64 w))
  | .eacAlpha => .ok (.eacAlpha (eacAlphaOf (BitVec.ofNat 64 w)))
  | .etc2a1 =>
    .ok (.etc2a1Block ((BitVec.ofNat 72 w).extractLsb 71 64) ((BitVec.ofNat 72 w).extractLsb 63 0))
  | .etc2a8 =>
    .ok (.etc2a8Block ((BitVec.ofNat 128 w).extractLsb 127 64) ((BitVec.ofNat 128 w).extractLsb 63 0))
  | .pvrtc =>
    .ok (.pvrtcBlock ((BitVec.ofNat 64 w).extractLsb 47 32) ((BitVec.ofNat 64 w).extractLsb 63 48)
      ((BitVec.ofNat 64 w).extractLsb 31 0))
  | .colourA => .ok (decodeColourAWord (BitVec.ofNat 16 w))
  | .colourB => .ok (decodeColourBWord (BitVec.ofNat 16 w))
  | .modulation is2 mflag => .ok (decodeModulationWord is2 mflag (BitVec.ofNat 32 w))

/-- The number its bytes make (R10, R54). -/
def WordKind.assemble (k : WordKind) (bs : List Byte) : Nat :=
  if k.bigEndian then beNat bs else leNat bs

/-- The bytes of a word, first at the lowest address. -/
def WordKind.layout (k : WordKind) (w : Nat) : List Byte :=
  if k.bigEndian then beBytes k.bytes w else leBytes k.bytes w

/-- The decoder: total on any bytes. -/
def decode (k : WordKind) (bs : List Byte) : Except DecodeError Instr :=
  if bs.length = k.bytes then decodeWord k (k.assemble bs) else .error .wrongLength

/-! ### The encoder -/

/-- The word kind an instruction is decoded from. A Differential block whose sums leave 0 to 31 is one only in ETC1
(R174). -/
def Instr.kind : Instr → WordKind
  | .start _ => .ctrl
  | .clear => .ctrl
  | .decodeDxt1 _ => .command
  | .decodeDxt5 _ => .command
  | .decodeEtc1 _ => .command
  | .decodeEtc2 _ => .command
  | .decodeEtc2a1 _ => .command
  | .decodeEtc2a8 _ => .command
  | .decodePvrtc4 => .command
  | .decodePvrtc2 => .command
  | .reservedFmt _ _ => .command
  | .dxt1Four _ => .dxt1
  | .dxt1Three _ => .dxt1
  | .dxt5Alpha7 _ => .dxt5Alpha
  | .dxt5Alpha5 _ => .dxt5Alpha
  | .dxt5Color _ => .dxt5Colour
  | .etcIndividual _ => .etcColour true
  | .etcT _ => .etcColour true
  | .etcH _ => .etcColour true
  | .etcPlanar _ => .etcColour true
  | .etcDifferential b => .etcColour b.sumsInRange
  | .eacAlpha _ => .eacAlpha
  | .etc2a1Block _ _ => .etc2a1
  | .etc2a8Block _ _ => .etc2a8
  | .pvrtcBlock _ _ _ => .pvrtc
  | .pvrtcColaOpaque _ _ _ _ => .colourA
  | .pvrtcColaTranslucent _ _ _ _ _ => .colourA
  | .pvrtcColbOpaque _ _ _ => .colourB
  | .pvrtcColbTranslucent _ _ _ _ => .colourB
  | .pvrtcMod4Standard _ => .modulation false false
  | .pvrtcMod4Punchthrough _ => .modulation false true
  | .pvrtcMod2Direct _ => .modulation true false
  | .pvrtcMod2Interpolated _ => .modulation true true

/-- `x[2][8:0]` of a command (R71). -/
def commandWord (fmt : BitVec 8) (is2 : Bool) : BitVec 9 := BitVec.ofBool is2 ++ fmt

/-- The word of a DXT colour block (R74). -/
def dxtColourWord (b : DxtColour) : BitVec 64 := b.idx ++ b.q1 ++ b.q0

/-- The word of a DXT5 alpha block (R75). -/
def dxtAlphaWord (a : DxtAlpha) : BitVec 64 := a.idx ++ a.a1 ++ a.a0

/-- A byte `xxx hi x lo` whose ignored bits `x` make base plus delta leave 0 to 31 (R81, R82, R83; log 30). -/
def overflowByte (hi lo : BitVec 2) : BitVec 8 :=
  if 4 ≤ hi.toNat + lo.toNat then (7#3 ++ hi ++ 0#1 ++ lo : BitVec 8) else (0#3 ++ hi ++ 1#1 ++ lo : BitVec 8)

/-- The word of an Individual block (R77, R76). -/
def etcIndividualWord (b : EtcIndividual) : BitVec 64 :=
  b.r1 ++ b.r2 ++ b.g1 ++ b.g2 ++ b.b1 ++ b.b2 ++ b.tw0 ++ b.tw1 ++ 0#1 ++ b.flip ++ b.m ++ b.l

/-- The word of a Differential block (R77, R76). -/
def etcDifferentialWord (b : EtcDifferential) : BitVec 64 :=
  b.r ++ b.dr ++ b.g ++ b.dg ++ b.b ++ b.db ++ b.tw0 ++ b.tw1 ++ 1#1 ++ b.flip ++ b.m ++ b.l

/-- A word of a T block (R81); the ignored bits make the red sum overflow. -/
def etcTWord (b : EtcT) : BitVec 64 :=
  overflowByte (b.r1.extractLsb 3 2) (b.r1.extractLsb 1 0) ++ b.g1 ++ b.b1 ++ b.r2 ++ b.g2 ++ b.b2 ++
    b.di.extractLsb 2 1 ++ 1#1 ++ b.di.extractLsb 0 0 ++ b.m ++ b.l

/-- A word of an H block (R82); the ignored bits keep the red sum in range and make the green sum overflow. -/
def etcHWord (b : EtcH) : BitVec 64 :=
  b.g1.extractLsb 3 3 ++ b.r1 ++ b.g1.extractLsb 3 1 ++
    overflowByte (b.g1.extractLsb 0 0 ++ b.b1.extractLsb 3 3) (b.b1.extractLsb 2 1) ++
    b.b1.extractLsb 0 0 ++ b.r2 ++ b.g2.extractLsb 3 1 ++ b.g2.extractLsb 0 0 ++ b.b2 ++ b.da ++ 1#1 ++ b.db ++ b.m ++ b.l

/-- A word of a Planar block (R83); the ignored bits keep red and green in range and make the blue sum overflow. -/
def etcPlanarWord (b : EtcPlanar) : BitVec 64 :=
  b.ro.extractLsb 1 1 ++ b.ro ++ b.go.extractLsb 6 6 ++ b.go.extractLsb 1 1 ++ b.go.extractLsb 5 0 ++
    b.bo.extractLsb 5 5 ++ overflowByte (b.bo.extractLsb 4 3) (b.bo.extractLsb 2 1) ++ b.bo.extractLsb 0 0 ++
    b.rh.extractLsb 5 1 ++ 1#1 ++ b.rh.extractLsb 0 0 ++ b.gh ++ b.bh ++ b.rv ++ b.gv ++ b.bv

/-- The word of an EAC alpha block (R79). -/
def eacAlphaWord (b : EacAlpha) : BitVec 64 := b.base ++ b.mult ++ b.tsel ++ b.idx

/-- A word of the instruction, its bits numbered as the opcode table numbers them; ignored bits as each layout says,
reserved bits 0. -/
def encodeWord : Instr → Nat
  | .start clear => (BitVec.ofBool clear ++ 1#1).toNat
  | .clear => 2
  | .decodeDxt1 is2 => (commandWord 1 is2).toNat
  | .decodeDxt5 is2 => (commandWord 2 is2).toNat
  | .decodeEtc1 is2 => (commandWord 3 is2).toNat
  | .decodeEtc2 is2 => (commandWord 4 is2).toNat
  | .decodeEtc2a1 is2 => (commandWord 5 is2).toNat
  | .decodeEtc2a8 is2 => (commandWord 6 is2).toNat
  | .decodePvrtc4 => (commandWord 7 false).toNat
  | .decodePvrtc2 => (commandWord 7 true).toNat
  | .reservedFmt fmt is2 => (commandWord fmt is2).toNat
  | .dxt1Four b => (dxtColourWord b).toNat
  | .dxt1Three b => (dxtColourWord b).toNat
  | .dxt5Alpha7 a => (dxtAlphaWord a).toNat
  | .dxt5Alpha5 a => (dxtAlphaWord a).toNat
  | .dxt5Color b => (dxtColourWord b).toNat
  | .etcIndividual b => (etcIndividualWord b).toNat
  | .etcT b => (etcTWord b).toNat
  | .etcH b => (etcHWord b).toNat
  | .etcPlanar b => (etcPlanarWord b).toNat
  | .etcDifferential b => (etcDifferentialWord b).toNat
  | .eacAlpha b => (eacAlphaWord b).toNat
  | .etc2a1Block alpha colour => (alpha ++ colour).toNat
  | .etc2a8Block alpha colour => (alpha ++ colour).toNat
  | .pvrtcBlock ca cb m => (cb ++ ca ++ m).toNat
  | .pvrtcColaOpaque r g b mflag => (1#1 ++ r ++ g ++ b ++ mflag).toNat
  | .pvrtcColaTranslucent a r g b mflag => (0#1 ++ a ++ r ++ g ++ b ++ mflag).toNat
  | .pvrtcColbOpaque r g b => (1#1 ++ r ++ g ++ b).toNat
  | .pvrtcColbTranslucent a r g b => (0#1 ++ a ++ r ++ g ++ b).toNat
  | .pvrtcMod4Standard m => m.toNat
  | .pvrtcMod4Punchthrough m => m.toNat
  | .pvrtcMod2Direct m => m.toNat
  | .pvrtcMod2Interpolated m => m.toNat

/-- The encoder: the bytes of an instruction's word. -/
def encode (i : Instr) : List Byte := i.kind.layout (encodeWord i)

/-! ### A word without its context -/

/-- Which word a bare number of `nbits` bits is taken for (log 21): the table's rows lie over words of several kinds and the
number alone does not say which, so the first row in table order that its bits match is taken. Eight bits are a CTRL value
(1 or 2) or the low byte of a command word; sixteen bits are a command word when they match a command row, else a colour A
word; then a modulation field, a DXT1 block, an ETC2A1 block and an ETC2A8 block by length. -/
def tableKind (nbits w : Nat) : WordKind :=
  if nbits ≤ 8 then (if w = 1 ∨ w = 2 then .ctrl else .command)
  else if nbits ≤ 16 then
    (if w < 512 ∧ (formatOf (BitVec.ofNat 8 w) (w.testBit 8)).isSome then .command else .colourA)
  else if nbits ≤ 32 then .modulation false false
  else if nbits ≤ 64 then .dxt1
  else if nbits ≤ 72 then .etc2a1
  else .etc2a8

/-- The instruction the decoder reads from a bare number. -/
def decodeTableWord (nbits w : Nat) : Option Instr :=
  (decode (tableKind nbits w) ((tableKind nbits w).layout w)).toOption

end Sys2Proof
end

