-- ==== Sys2Proof/Config.lean ====
section
/-! DEFINITION. The configuration: the parameters of 00_scope R9 that a model may choose, and what 20_memory R58 leaves to
the platform. A `Config` is plain data; the machine carries one in its state and no step writes it (log 8), so a theorem
about every state is a theorem about every configuration. -/

namespace Sys2Proof

/-- `DXT5_COLOR_MODE` (42_dxt R153). -/
inductive Dxt5ColorMode where
  /-- Palette entries 2 and 3 are always those of the four-colour mode (the stated default). -/
  | alwaysFour
  /-- The colour half is decoded exactly as a DXT1 block. -/
  | asDxt1
deriving DecidableEq, Repr

/-- `ETC1_DIFF_OVERFLOW` (43_etc R181): the one value the spec gives a meaning. -/
inductive Etc1DiffOverflow where
  | wrap
deriving DecidableEq, Repr

/-- `PVRTC2_AVERAGE` (44_pvrtc R241): the one value the spec gives a meaning. -/
inductive Pvrtc2Average where
  | roundHalfUp
deriving DecidableEq, Repr

/-- What a platform address that is not ordinary memory is (R58, R57; 93_implementation_defined U13, U14). -/
inductive RegionKind where
  /-- No memory answers there: a block-step that needs it is not enabled (U13). -/
  | absent
  /-- A device or other non-idempotent memory: the model refuses the launch (U14). -/
  | device
deriving DecidableEq, Repr

/-- A range of addresses that does not hold ordinary memory. -/
structure Region where
  base : Nat
  size : Nat
  kind : RegionKind
deriving DecidableEq, Repr

/-- The parameters of the unit and its platform (R9, R58, U22). -/
structure Config where
  dxt5ColorMode    : Dxt5ColorMode
  etc1DiffOverflow : Etc1DiffOverflow
  pvrtc2Average    : Pvrtc2Average
  /-- `SCRATCH_BLOCKS`, OPEN in R9: the capacity of the PVRTC scratch in blocks. -/
  scratchBlocks    : Nat
  /-- The pair `(small, large)` of each table codeword (R178). -/
  etcModifier      : Vector (Nat × Nat) 8
  /-- `DIST` (R182). -/
  etcDistance      : Vector Nat 8
  /-- `AMOD` (R188). -/
  eacModifier      : Vector (Vector Int 8) 16
  /-- `STD` (R227); a weight is 0 to 8. -/
  pvrtcStd         : Vector (Fin 9) 4
  /-- `PT` (R227). -/
  pvrtcPt          : Vector (Fin 9) 4
  /-- `W4` (R235). -/
  pvrtcW4          : Vector (Vector Nat 3) 4
  /-- `W8` (R235). -/
  pvrtcW8          : Vector (Vector Nat 3) 8
  /-- The two shifts of the scaling of a 4bpp r, g or b sum (R237, R239). -/
  pvrtcScale4      : Nat × Nat
  /-- The two shifts of the scaling of a 4bpp alpha sum (R237, R239). -/
  pvrtcScale4Alpha : Nat × Nat
  /-- The two shifts of the scaling of a 2bpp r, g or b sum (R238, R239). -/
  pvrtcScale2      : Nat × Nat
  /-- The two shifts of the scaling of a 2bpp alpha sum (R238, R239). -/
  pvrtcScale2Alpha : Nat × Nat
  /-- The platform's ranges that are not ordinary memory (R58). -/
  memMap           : List Region
deriving DecidableEq, Repr

/-- The capacity of the scratch of this machine: OPEN in R9, an argument with no default (U7; log 7). Nothing can evaluate it. -/
opaque Config.openScratchBlocks : Nat

/-- The free choices of the races of R61 and R62 (U1; log 31): which of two values a raced byte has. Nothing can evaluate it. -/
opaque Config.freeChoice : Nat → Nat

/-- The free bytes an abandoned command leaves in its output range (R300, U16; log 23). Nothing can evaluate it. -/
opaque Config.freeByte : Nat → Byte

end Sys2Proof
end

