-- ==== Sys2Proof/Machine/Tables.lean ====
section
/-! DEFINITION. The values of the tables and parameters that 00_scope R9 states as defaults (43_etc R178, R182, R188;
44_pvrtc R227, R235). The spec marks every table value as general knowledge (93_implementation_defined G7 to G16; log 24). -/

namespace Sys2Proof.Machine

open Sys2Proof

/-- R178: `(small, large)` by table codeword. -/
def etcModifierTable : Vector (Nat × Nat) 8 :=
  #v[(2, 8), (5, 17), (9, 29), (13, 42), (18, 60), (24, 80), (33, 106), (47, 183)]

/-- R182: `DIST`. -/
def etcDistanceTable : Vector Nat 8 := #v[3, 6, 11, 16, 23, 32, 41, 64]

/-- R188: `AMOD`. -/
def eacModifierTable : Vector (Vector Int 8) 16 :=
  #v[#v[-3, -6, -9, -15, 2, 5, 8, 14],
     #v[-3, -7, -10, -13, 2, 6, 9, 12],
     #v[-2, -5, -8, -13, 1, 4, 7, 12],
     #v[-2, -4, -6, -13, 1, 3, 5, 12],
     #v[-3, -6, -8, -12, 2, 5, 7, 11],
     #v[-3, -7, -9, -11, 2, 6, 8, 10],
     #v[-4, -7, -8, -11, 3, 6, 7, 10],
     #v[-3, -5, -8, -11, 2, 4, 7, 10],
     #v[-2, -6, -8, -10, 1, 5, 7, 9],
     #v[-2, -5, -8, -10, 1, 4, 7, 9],
     #v[-2, -4, -8, -10, 1, 3, 7, 9],
     #v[-2, -5, -7, -10, 1, 4, 6, 9],
     #v[-3, -4, -7, -10, 2, 3, 6, 9],
     #v[-1, -2, -3, -10, 0, 1, 2, 9],
     #v[-4, -6, -8, -9, 3, 5, 7, 8],
     #v[-3, -5, -7, -9, 2, 4, 6, 8]]

/-- R227: `STD`. -/
def pvrtcStdTable : Vector (Fin 9) 4 := #v[0, 3, 5, 8]

/-- R227: `PT`. -/
def pvrtcPtTable : Vector (Fin 9) 4 := #v[0, 4, 4, 8]

/-- R235: `W4`. -/
def pvrtcW4Table : Vector (Vector Nat 3) 4 := #v[#v[2, 2, 0], #v[1, 3, 0], #v[0, 4, 0], #v[0, 3, 1]]

/-- R235: `W8`. -/
def pvrtcW8Table : Vector (Vector Nat 3) 8 :=
  #v[#v[4, 4, 0], #v[3, 5, 0], #v[2, 6, 0], #v[1, 7, 0], #v[0, 8, 0], #v[0, 7, 1], #v[0, 6, 2], #v[0, 5, 3]]

/-- R237: the shifts of `(SA >> 1) + (SA >> 6)`. -/
def pvrtcScale4Shifts : Nat × Nat := (1, 6)

/-- R237: the shifts of `SA + (SA >> 4)`. -/
def pvrtcScale4AlphaShifts : Nat × Nat := (0, 4)

/-- R238: the shifts of `(SA >> 2) + (SA >> 7)`. -/
def pvrtcScale2Shifts : Nat × Nat := (2, 7)

/-- R238: the shifts of `(SA >> 1) + (SA >> 5)`. -/
def pvrtcScale2AlphaShifts : Nat × Nat := (1, 5)

/-- The stated defaults of R9. `SCRATCH_BLOCKS` is OPEN there and stays so: an opaque constant (log 7).
DESIGN CHOICE: the whole address space is ordinary memory (log 2). -/
def defaultConfig : Config :=
  { dxt5ColorMode := .alwaysFour
    etc1DiffOverflow := .wrap
    pvrtc2Average := .roundHalfUp
    scratchBlocks := Config.openScratchBlocks
    etcModifier := etcModifierTable
    etcDistance := etcDistanceTable
    eacModifier := eacModifierTable
    pvrtcStd := pvrtcStdTable
    pvrtcPt := pvrtcPtTable
    pvrtcW4 := pvrtcW4Table
    pvrtcW8 := pvrtcW8Table
    pvrtcScale4 := pvrtcScale4Shifts
    pvrtcScale4Alpha := pvrtcScale4AlphaShifts
    pvrtcScale2 := pvrtcScale2Shifts
    pvrtcScale2Alpha := pvrtcScale2AlphaShifts
    memMap := [] }

end Sys2Proof.Machine
end

