-- ==== Sys2Proof/Machine/State.lean ====
section
/-! DEFINITION. The state of the unit, its memory and its host's pending accesses (10_state, 20_memory), the reasons a step
can stop, and the state after reset (R36, R300). Plain data. -/

namespace Sys2Proof.Machine

open Sys2Proof

/-- `STATUS.STATE` (R22). -/
inductive UnitState where
  | idle | busy | done | error
deriving DecidableEq, Repr

/-- `STATUS.ERR` (R270). -/
inductive ErrCode where
  | none | inputTooShort | allocationFailure | unknownFormat | invalidContainer | badGeometry
deriving DecidableEq, Repr

/-- The phase of the block cursor (R29). -/
inductive Phase where
  | expand | walk
deriving DecidableEq, Repr

/-- The block cursor `pc = (phase, s, t, k)` (R29). -/
structure Cursor where
  phase : Phase
  s : Nat
  t : Nat
  k : Nat
deriving DecidableEq, Repr

/-- A pixel `(R, G, B, A)` (R12, R31). -/
structure Pixel where
  r : Byte
  g : Byte
  b : Byte
  a : Byte
deriving DecidableEq, Repr

/-- A colour without alpha: ETC base and paint colours (R32). -/
structure Rgb where
  r : Byte
  g : Byte
  b : Byte
deriving DecidableEq, Repr

/-- A PVRTC colour on the common scale: 5-bit r, g, b and 4-bit a (R33, R224). -/
structure Texel where
  r : BitVec 5
  g : BitVec 5
  b : BitVec 5
  a : BitVec 4
deriving DecidableEq, Repr

/-- The three fill marks (R230). -/
inductive Fill where
  | hv | h | v
deriving DecidableEq, Repr

/-- An entry of `wt`: a weight 0 to 8 or a fill mark (R33). -/
inductive Weight where
  | stored (w : Fin 9)
  | fill (f : Fill)
deriving DecidableEq, Repr

/-- A TexelInfo record of the PVRTC scratch (R33). -/
structure TexelInfo where
  a  : Texel
  b  : Texel
  wt : Vector Weight 32
  pt : BitVec 32
deriving DecidableEq, Repr

/-- An access of the host, or what the platform does in its place (R8, R85, R300). The register accesses are the eight whole
registers only, as 93_implementation_defined U2 asks. -/
inductive HostOp where
  /-- `WR x[i], v`. -/
  | wr (i : Fin 8) (v : Word)
  /-- `RD x[i]`. -/
  | rd (i : Fin 8)
  /-- `POLL`: repeat `RD x[1]` until `STATE != BUSY`. -/
  | poll
  /-- The host accesses nothing while the unit takes one block-step, if it has one. -/
  | wait
  /-- The host stores a byte to memory (R60 (a), R305). -/
  | store (a : Word) (b : Byte)
  /-- The host loads a byte from memory (R60 (b)). -/
  | load (a : Word)
  /-- The platform asserts reset (R300). -/
  | reset
deriving DecidableEq, Repr

/-- Memory: (address, byte) pairs (R50). -/
abbrev Memory := List Host.Cell

/-- What an unlisted address reads as. DESIGN CHOICE, unsafe: the spec gives memory no contents at power-on (R301; log 1). -/
def Memory.unlisted : Byte := 0

/-- The canonical form: addresses strictly rising and inside the address space, no entry equal to what an unlisted address
reads as. -/
abbrev Memory.wf (m : Memory) : Prop :=
  m.Pairwise (fun c d => c.1 < d.1) ∧ ∀ c ∈ m, c.2 ≠ Memory.unlisted ∧ c.1 < 2 ^ 32

/-- The state of the machine. INVENTORY.md, State, lists the rule of every field. -/
structure State where
  /-- The configuration (R9): the model's own field, written by no step (log 8). -/
  cfg      : Config
  /-- `STATUS.STATE` (R22). -/
  st       : UnitState
  /-- `STATUS.ERR` (R22). -/
  err      : ErrCode
  /-- `FORMAT.FMT` (R23). -/
  fmt      : BitVec 8
  /-- `FORMAT.IS_2BPP` (R23). -/
  is2      : Bool
  /-- `SRC_BASE` (R24). -/
  src      : Word
  /-- `SRC_LEN` (R25). -/
  len      : Word
  /-- `DST_BASE[31:2]`; bits 1:0 are hard-wired 0 (R26). -/
  dst      : BitVec 30
  /-- `WIDTH[15:0]` (R27). -/
  width    : BitVec 16
  /-- `HEIGHT[15:0]` (R27). -/
  height   : BitVec 16
  /-- The block cursor (R29). -/
  pc       : Cursor
  /-- The tile buffer `T[0..31]` (R31). -/
  tile     : Vector Pixel 32
  /-- The DXT colour palette `c[0..3]` (R32). -/
  colPal   : Vector Pixel 4
  /-- The DXT5 alpha palette `a[0..7]` (R32). -/
  alphaPal : Vector Byte 8
  /-- The ETC base colours (R32). -/
  etcBase  : Vector Rgb 2
  /-- The ETC paint colours (R32). -/
  etcPaint : Vector Rgb 4
  /-- The PVRTC scratch by storage index (R33). -/
  tex      : List TexelInfo
  /-- Memory (R50). -/
  mem      : Memory
  /-- The host's accesses still to come, in order: the model's own field (log 9). -/
  hostQ    : List HostOp
  /-- What the host's last read returned: the model's own field (log 10). -/
  rdata    : Word
  /-- The bytes the host has stored into the buffers of the running command, newest first: the races of R61 and R62, the model's
  own field (log 13). -/
  hostStores : List Host.Cell
  /-- Memory as it was when the running command was accepted: the old values of R62, the model's own field (log 13). -/
  atStart  : Memory
  /-- How many free choices have been taken: the model's own field (log 31). -/
  choices  : Nat
deriving DecidableEq, Repr

/-- A step stops with a fault. Every one is safe (the machine stops) and none is reached from reset (log 15). -/
inductive Fault where
  /-- Raised by a block-step that would access an address outside the 2^32 bytes of R50; START's range check (R104) keeps
  every accepted command from it. Safe. -/
  | outsideAddressSpace
  /-- Raised by a block-step of a BUSY unit whose FORMAT selects no engine; START raises UnknownFormat instead of going BUSY
  (R273). Safe. -/
  | noEngine
  /-- Raised by a block-step of a BUSY unit whose cursor is not one of the command's (R29: `s < nbx`, `t < nby`, `k < nbx * nby`,
  EXPAND for PVRTC only). Safe. -/
  | cursorOutOfGrid
  /-- Raised by a block-step when the decoder refuses the block's bytes; it never does for a block of the format's length
  (R84). Safe. -/
  | undecodableBlock
deriving DecidableEq, Repr

/-- A step is refused where the spec says that a model refuses. Every one is safe (the machine stops). -/
inductive Refusal where
  /-- Raised by exec for an instruction that has no meaning yet. Safe. -/
  | notModelled (mnemonic : String)
  /-- Raised by an accepted START whose source and output ranges overlap: "the result is unspecified and a model refuses the
  launch" (R63; log 11). Safe. -/
  | bufferOverlap
  /-- Raised by an accepted START, or by a block-step, whose buffers lie on a device region: "outside the spec and a model
  refuses it" (R57; log 12). Safe. -/
  | deviceRegion
  /-- Raised by a host store to or load from an address the platform backs by no ordinary memory: the spec does not say what
  answers (R58; log 2). Safe. -/
  | hostOutsideMemory
deriving DecidableEq, Repr

/-- The outcome of a step of this machine. -/
abbrev Result := Host.Outcome State Fault Refusal

/-- The zero pixel. -/
def Pixel.zero : Pixel := ⟨0, 0, 0, 0⟩

/-- The zero colour. -/
def Rgb.zero : Rgb := ⟨0, 0, 0⟩

/-- What an unwritten scratch record reads as. DESIGN CHOICE, unsafe: unspecified and unobservable in R36 (log 6). -/
def TexelInfo.zero : TexelInfo :=
  { a := ⟨0, 0, 0, 0⟩, b := ⟨0, 0, 0, 0⟩, wt := Vector.replicate 32 (.stored 0), pt := 0 }

/-- After reset (R36, R300). The registers are as R36 says; the cursor, the tile buffer, the palettes and the scratch are
unspecified there and zero here (DESIGN CHOICE, logs 3 to 6); no access is pending (log 9) and no choice has been taken (log 31). -/
def State.reset : State :=
  { cfg := defaultConfig
    st := .idle
    err := .none
    fmt := 0
    is2 := false
    src := 0
    len := 0
    dst := 0
    width := 0
    height := 0
    pc := { phase := .walk, s := 0, t := 0, k := 0 }
    tile := Vector.replicate 32 Pixel.zero
    colPal := Vector.replicate 4 Pixel.zero
    alphaPal := Vector.replicate 8 0
    etcBase := Vector.replicate 2 Rgb.zero
    etcPaint := Vector.replicate 4 Rgb.zero
    tex := []
    mem := []
    hostQ := []
    rdata := 0
    hostStores := []
    atStart := []
    choices := 0 }

end Sys2Proof.Machine
end

