-- ==== Sys2Proof/Machine/Flags.lean ====
section
/-! DEFINITION. STATUS, the unit's only flags (10_state R22, R34): its word and the four ways it is written. -/

namespace Sys2Proof.Machine

open Sys2Proof

/-- The code of `STATUS.STATE` (R22). -/
def UnitState.code : UnitState → BitVec 2
  | .idle => 0
  | .busy => 1
  | .done => 2
  | .error => 3

/-- The code of `STATUS.ERR` (R270). -/
def ErrCode.code : ErrCode → BitVec 4
  | .none => 0
  | .inputTooShort => 1
  | .allocationFailure => 2
  | .unknownFormat => 3
  | .invalidContainer => 4
  | .badGeometry => 5

/-- `x[1]` as the host reads it (R22): STATE in bits 1:0, ERR in bits 7:4, every other bit 0. -/
def statusWord (s : State) : Word := 0#24 ++ s.err.code ++ 0#2 ++ s.st.code

/-- `raise <Error>`, the unit's trap entry (60_exceptions R275): STATE and ERR are written, nothing else. -/
def raiseError (e : ErrCode) (s : State) : State := { s with st := .error, err := e }

/-- The effect of CLEAR, the unit's way back from an error (R102, R276). -/
def clearStatus (s : State) : State := { s with st := .idle, err := .none }

/-- START accepted with an empty grid (R108): DONE at once. -/
def acceptEmpty (s : State) : State := { s with st := .done, err := .none }

/-- START accepted (R100): BUSY, no error, the cursor at the first block of the first phase. The model notes what memory holds
and that the host has raced no byte yet (log 13). -/
def acceptBusy (phase : Phase) (s : State) : State :=
  { s with
    st := .busy
    err := .none
    pc := { phase := phase, s := 0, t := 0, k := 0 }
    hostStores := []
    atStart := s.mem }

end Sys2Proof.Machine
end

