-- ==== Sys2Proof/Machine/Ops.lean ====
section
/-! DEFINITION. The named operations over memory, the register window, the tile buffer and the PVRTC scratch. -/

namespace Sys2Proof.Machine

open Sys2Proof

/-! ### Outcomes -/

/-- Go on with `f` from a next state; a stop stays. -/
def andThen (o : Result) (f : State → Result) : Result :=
  match o with
  | .next s => f s
  | .fault r => .fault r
  | .refused r => .refused r

/-! ### Memory (20_memory) -/

/-- The byte at an address (R51). -/
def Memory.read : Memory → Nat → Byte
  | [], _ => Memory.unlisted
  | (k, v) :: m, a => if k = a then v else Memory.read m a

/-- Store one byte (R52), keeping the canonical form. -/
def Memory.write : Memory → Nat → Byte → Memory
  | [], a, b => if b = Memory.unlisted then [] else [(a, b)]
  | (k, v) :: m, a, b =>
    if a < k then (if b = Memory.unlisted then (k, v) :: m else (a, b) :: (k, v) :: m)
    else if a = k then (if b = Memory.unlisted then m else (a, b) :: m)
    else (k, v) :: Memory.write m a b

/-- `MemRead(addr, n)` (R51). -/
def Memory.readBytes (m : Memory) (a n : Nat) : List Byte := (List.range n).map fun j => m.read (a + j)

/-- `MemWrite(addr, n, v)` with `n` the length of `v` (R52). -/
def Memory.writeBytes : Memory → Nat → List Byte → Memory
  | m, _, [] => m
  | m, a, b :: bs => Memory.writeBytes (m.write a b) (a + 1) bs

/-- The ranges `[a, a + n)` and `[b, b + k)` share an address. -/
def overlaps (a n b k : Nat) : Bool := decide (0 < n) && decide (0 < k) && decide (a < b + k) && decide (b < a + n)

/-- Some range of the list meets a region of the kind (R58). -/
def meetsRegion (cfg : Config) (kind : RegionKind) (accs : List (Nat × Nat)) : Bool :=
  accs.any fun p => cfg.memMap.any fun r => decide (r.kind = kind) && overlaps p.1 p.2 r.base r.size

/-- How the platform answers a list of accesses (address, length). -/
inductive MemAnswer where
  /-- Some access leaves the 2^32 bytes of the space (R50). -/
  | outside
  /-- Some access meets a device region (U14). -/
  | device
  /-- Some access meets a region without memory (U13). -/
  | absent
  | ok
deriving DecidableEq, Repr

/-- The platform's answer. -/
def memAnswer (cfg : Config) (accs : List (Nat × Nat)) : MemAnswer :=
  if accs.any (fun p => decide (2 ^ 32 < p.1 + p.2)) then .outside
  else if meetsRegion cfg .device accs then .device
  else if meetsRegion cfg .absent accs then .absent
  else .ok

/-- A block-step with these accesses: it goes on when memory answers all of them; when one has no memory behind it the step
is not enabled and the unit stays as it is (U13; log 14). -/
def guarded (s : State) (accs : List (Nat × Nat)) (body : Result) : Result :=
  match memAnswer s.cfg accs with
  | .outside => .fault .outsideAddressSpace
  | .device => .refused .deviceRegion
  | .absent => .next s
  | .ok => body

/-! ### Races of the host with a running command (R61, R62; 93_implementation_defined U1; log 13) -/

/-- The host has stored to the byte during the running command. -/
def State.raced (s : State) (a : Nat) : Bool := s.hostStores.any fun c => decide (c.1 = a)

/-- The values a raced byte can be seen to have: what memory holds, what the host stored there during the command, what it held
at START. -/
def State.seen (s : State) (a : Nat) : List Byte :=
  s.mem.read a :: ((s.hostStores.filter fun c => decide (c.1 = a)).map fun c => c.2) ++ [s.atStart.read a]

/-- One of the values, by the `n`-th free choice. -/
def freePick (n : Nat) (vs : List Byte) : Byte := vs.getD (Config.freeChoice n % vs.length) 0

/-- The byte the unit reads: a raced one has its old or its new value (R62). -/
def State.fetchByte (s : State) (n a : Nat) : Byte := if s.raced a then freePick n (s.seen a) else s.mem.read a

/-- `MemRead(addr, n)` (R51) as the unit of this state does it: each byte on its own (R62). -/
def State.fetchBytes (s : State) (a n : Nat) : List Byte := (List.range n).map fun j => s.fetchByte (s.choices + j) (a + j)

/-- A host store that races with a store of the unit to the same byte: by the `n`-th free choice it comes first and is gone, or
last and stays. -/
def Memory.raceWrite (m : Memory) (n a : Nat) (b : Byte) : Memory :=
  if Config.freeChoice n % 2 = 1 then m.write a b else m

/-- After the unit's stores `accs`: each host store of the running command to one of their bytes comes before or after them. -/
def settle (accs : List (Nat × Nat)) (n : Nat) : List Host.Cell → Memory → Memory
  | [], m => m
  | (a, b) :: older, m =>
    if accs.any (fun p => decide (p.1 ≤ a) && decide (a < p.1 + p.2)) then (settle accs (n + 1) older m).raceWrite n a b
    else settle accs (n + 1) older m

/-- `n` bytes of any value, by the next free bytes (U16; log 23). -/
def State.freeBytes (s : State) (n : Nat) : List Byte := (List.range n).map fun j => Config.freeByte (s.choices + j)

/-! ### The register window (10_state R20 to R28) -/

/-- `RD x[i]`. -/
def readReg (s : State) (i : Fin 8) : Word :=
  match i with
  | 0 => 0
  | 1 => statusWord s
  | 2 => 0#23 ++ BitVec.ofBool s.is2 ++ s.fmt
  | 3 => s.src
  | 4 => s.len
  | 5 => s.dst ++ 0#2
  | 6 => s.width.setWidth 32
  | 7 => s.height.setWidth 32

/-- `WR x[i], v` for `i` other than 0: STATUS ignores writes (R22); `x[2]` to `x[7]` keep their stored bits and ignore the
rest (R23 to R27), and ignore every write while BUSY (R28). CTRL has no storage (R21). -/
def writeReg (i : Fin 8) (v : Word) (s : State) : State :=
  if s.st = .busy then s
  else
    match i with
    | 0 => s
    | 1 => s
    | 2 => { s with fmt := v.extractLsb 7 0, is2 := v.getLsbD 8 }
    | 3 => { s with src := v }
    | 4 => { s with len := v }
    | 5 => { s with dst := v.extractLsb 31 2 }
    | 6 => { s with width := v.extractLsb 15 0 }
    | 7 => { s with height := v.extractLsb 15 0 }

/-! ### The tile buffer (R31) -/

/-- Entry `n` of a tile, `n < 32`. -/
def tileAt (t : Vector Pixel 32) (n : Nat) : Pixel := t[n]?.getD Pixel.zero

/-- Write entries 0 to 15; entries 16 to 31 are unused by a 4x4 format and keep what they hold. -/
def setTile16 (f : Nat → Pixel) (s : State) : State :=
  { s with tile := Vector.ofFn fun i : Fin 32 => if i.val < 16 then f i.val else s.tile.get i }

/-- Write the colours of entries 0 to 15, leaving their alpha. -/
def setTileRgb16 (f : Nat → Rgb) (s : State) : State :=
  setTile16 (fun i => { r := (f i).r, g := (f i).g, b := (f i).b, a := (tileAt s.tile i).a }) s

/-- Write the alpha of entries 0 to 15, leaving their colours. -/
def setTileAlpha16 (f : Nat → Byte) (s : State) : State :=
  setTile16 (fun i => { tileAt s.tile i with a := f i }) s

/-- Write all 32 entries (PVRTC 2bpp). -/
def setTile32 (f : Nat → Pixel) (s : State) : State :=
  { s with tile := Vector.ofFn fun i : Fin 32 => f i.val }

/-- A colour with an alpha. -/
def Rgb.withAlpha (c : Rgb) (a : Byte) : Pixel := { r := c.r, g := c.g, b := c.b, a := a }

/-! ### The PVRTC scratch (R33) -/

/-- Record `k`. -/
def texRead (tex : List TexelInfo) (k : Nat) : TexelInfo := tex[k]?.getD TexelInfo.zero

/-- Write record `k`. -/
def texWrite (tex : List TexelInfo) (k : Nat) (r : TexelInfo) : List TexelInfo :=
  if k < tex.length then tex.set k r
  else tex ++ List.replicate (k - tex.length) TexelInfo.zero ++ [r]

/-- Change the record at the cursor's storage index. -/
def updateTex (f : TexelInfo → TexelInfo) (s : State) : State :=
  { s with tex := texWrite s.tex s.pc.k (f (texRead s.tex s.pc.k)) }

end Sys2Proof.Machine
end

