-- ==== Sys2Proof/Machine/Operands.lean ====
section
/-! DEFINITION. The operands of a command (30_encoding R70 to R72) and what the walker derives from them (41_blockgrid R121 to
R127): the grid, the two buffers, the addresses of blocks and pixels. -/

namespace Sys2Proof.Machine

open Sys2Proof

/-- The derived grid (R30, R122). -/
structure Grid where
  bw : Nat
  bh : Nat
  bb : Nat
  nbx : Nat
  nby : Nat
  clenLast : Nat
deriving DecidableEq, Repr

/-- `bw` (R71, R121). -/
def blockWidth : Format → Nat
  | .dxt1 => 4
  | .dxt5 => 4
  | .etc1 => 4
  | .etc2 => 4
  | .etc2a1 => 4
  | .etc2a8 => 4
  | .pvrtc4 => 4
  | .pvrtc2 => 8

/-- `bh` (R71, R121). -/
def blockHeight (_ : Format) : Nat := 4

/-- `bb` (R71, R72). -/
def blockBytes : Format → Nat
  | .dxt1 => 8
  | .dxt5 => 16
  | .etc1 => 8
  | .etc2 => 8
  | .etc2a1 => 9
  | .etc2a8 => 16
  | .pvrtc4 => 8
  | .pvrtc2 => 8

/-- The format is PVRTC: `fmt = 7`. -/
def isPvrtc : Format → Bool
  | .dxt1 => false
  | .dxt5 => false
  | .etc1 => false
  | .etc2 => false
  | .etc2a1 => false
  | .etc2a8 => false
  | .pvrtc4 => true
  | .pvrtc2 => true

/-- The grid of a format and the declared dimensions (R122). -/
def gridOf (f : Format) (w h : Nat) : Grid :=
  { bw := blockWidth f
    bh := blockHeight f
    bb := blockBytes f
    nbx := ceilDiv w (blockWidth f)
    nby := ceilDiv h (blockHeight f)
    clenLast := (w + blockWidth f - 1) % blockWidth f + 1 }

/-- The number of blocks. -/
def Grid.count (g : Grid) : Nat := g.nbx * g.nby

/-- `need` (R103). -/
def Grid.need (g : Grid) : Nat := g.nbx * g.nby * g.bb

/-- The command FORMAT selects (R71). -/
def State.format (s : State) : Option Format := formatOf s.fmt s.is2

/-- The grid of a format at the declared dimensions in WIDTH and HEIGHT (R30). -/
def State.grid (s : State) (f : Format) : Grid := gridOf f s.width.toNat s.height.toNat

/-- `SRC_BASE` as an address (R24). -/
def State.srcBase (s : State) : Nat := s.src.toNat

/-- `DST_BASE` as an address: bits 1:0 are 0 (R26). -/
def State.dstBase (s : State) : Nat := 4 * s.dst.toNat

/-- The length of the output buffer, `4 * w * h` (R50). -/
def State.dstLen (s : State) : Nat := 4 * s.width.toNat * s.height.toNat

/-- The address is in the source range of the command (R50). -/
def State.inSource (s : State) (f : Format) (a : Nat) : Bool :=
  decide (s.srcBase ≤ a) && decide (a < s.srcBase + (s.grid f).need)

/-- The address is in the output range of the command (R50). -/
def State.inOutput (s : State) (a : Nat) : Bool :=
  decide (s.dstBase ≤ a) && decide (a < s.dstBase + s.dstLen)

/-- The four bytes of a pixel in memory order R, G, B, A (R56). -/
def Pixel.bytes (p : Pixel) : List Byte := [p.r, p.g, p.b, p.a]

/-- The clipped copy length of a block in column `s` (R126). -/
def Grid.clen (g : Grid) (s : Nat) : Nat := if s + 1 < g.nbx then g.bw else g.clenLast

/-- The tile rows that exist in the output: those with `y ≥ 0` (R126). -/
def Grid.rows (g : Grid) (h t : Nat) : List Nat := (List.range g.bh).filter fun i => decide (g.bh * t + i < h)

/-- The output row of tile row `i` of block row `t` (R125). -/
def Grid.outRow (g : Grid) (h t i : Nat) : Nat := h - 1 - (g.bh * t + i)

/-- The address where tile row `i` of block `(s, t)` is stored (R127). -/
def Grid.rowAddr (g : Grid) (dst w h s t i : Nat) : Nat := dst + 4 * (g.outRow h t i * w + g.bw * s)

end Sys2Proof.Machine
end

