-- ==== Sys2Proof/Machine/Commands.lean ====
section
/-! DEFINITION. The control strobes and the commands (40_commands R100 to R108, R111 to R118). A command's block-steps are in
Machine/BlockStep.lean; what the commands do here is the acceptance, one atomic step. -/

namespace Sys2Proof.Machine

open Sys2Proof

/-- The checks of START in their fixed order (R100, R104 to R107, R277), for a format that has an engine. -/
def startCheck (f : Format) (s : State) : Option ErrCode :=
  if 2 ^ 32 < s.srcBase + (s.grid f).need ∨ 2 ^ 32 < s.dstBase + s.dstLen then some .badGeometry
  else if isPvrtc f = true ∧ 0 < (s.grid f).count ∧ ¬ (isPow2 (s.grid f).nbx = true ∧ isPow2 (s.grid f).nby = true) then
    some .badGeometry
  else if s.len.toNat < (s.grid f).need then some .inputTooShort
  else if isPvrtc f = true ∧ s.cfg.scratchBlocks < (s.grid f).count then some .allocationFailure
  else none

/-- The buffers of the command as accesses (R50). -/
def buffers (f : Format) (s : State) : List (Nat × Nat) :=
  [(s.srcBase, (s.grid f).need), (s.dstBase, s.dstLen)]

/-- The acceptance of a command whose checks passed (R100, R108): DONE for an empty grid, else BUSY. Before BUSY the model
refuses the launches the spec tells it to refuse: a buffer on a device region (R57), overlapping buffers (R63). -/
def launch (f : Format) (s : State) : Result :=
  if (s.grid f).count = 0 then .next (acceptEmpty s)
  else if meetsRegion s.cfg .device (buffers f s) then .refused .deviceRegion
  else if overlaps s.srcBase (s.grid f).need s.dstBase s.dstLen then .refused .bufferOverlap
  else .next (acceptBusy (if isPvrtc f then .expand else .walk) s)

/-- `accept()` of R100 for the format the command word selects, `none` where no engine has it (R73, R273). While BUSY the
strobe is lost (R101). -/
def accept (f : Option Format) (s : State) : Result :=
  if s.st = .busy then .next s
  else
    match f with
    | none => .next (raiseError .unknownFormat s)
    | some f =>
      match startCheck f s with
      | some e => .next (raiseError e s)
      | none => launch f s

/-- START (R100, R101): the command is what `x[2]` to `x[7]` hold. Bit 1 of the written value is ignored (R21). -/
def execStart (_clear : Bool) (s : State) : Result := accept s.format s

/-- CLEAR (R102); ignored while BUSY (R101). -/
def execClear (s : State) : Result :=
  if s.st = .busy then .next s else .next (clearStatus s)

/-- DECODE.DXT1 (R111): the acceptance of the command; `is2` is ignored. -/
def execDecodeDxt1 (_is2 : Bool) (s : State) : Result := accept (some .dxt1) s

/-- DECODE.DXT5 (R112). -/
def execDecodeDxt5 (_is2 : Bool) (s : State) : Result := accept (some .dxt5) s

/-- DECODE.ETC1 (R113). -/
def execDecodeEtc1 (_is2 : Bool) (s : State) : Result := accept (some .etc1) s

/-- DECODE.ETC2 (R114). -/
def execDecodeEtc2 (_is2 : Bool) (s : State) : Result := accept (some .etc2) s

/-- DECODE.ETC2A1 (R115). -/
def execDecodeEtc2a1 (_is2 : Bool) (s : State) : Result := accept (some .etc2a1) s

/-- DECODE.ETC2A8 (R116). -/
def execDecodeEtc2a8 (_is2 : Bool) (s : State) : Result := accept (some .etc2a8) s

/-- DECODE.PVRTC4 (R117). -/
def execDecodePvrtc4 (s : State) : Result := accept (some .pvrtc4) s

/-- DECODE.PVRTC2 (R118). -/
def execDecodePvrtc2 (s : State) : Result := accept (some .pvrtc2) s

/-- A reserved selector (R73, R273): UnknownFormat. -/
def execReservedFmt (_fmt : BitVec 8) (_is2 : Bool) (s : State) : Result := accept none s

end Sys2Proof.Machine
end

