-- ==== Sys2Proof/Machine/Dxt.lean ====
section
/-! DEFINITION. The DXT engine (42_dxt). -/

namespace Sys2Proof.Machine

open Sys2Proof

/-- `expand565` (R141). -/
def expand565 (q : BitVec 16) : Rgb :=
  { r := rep (q.extractLsb 15 11 : BitVec 5), g := rep (q.extractLsb 10 5 : BitVec 6),
    b := rep (q.extractLsb 4 0 : BitVec 5) }

/-- `(2 * x + y) / 3`, floor (R144). -/
def thirds (x y : Byte) : Byte := BitVec.ofNat 8 ((2 * x.toNat + y.toNat) / 3)

/-- `(x + y) / 2`, floor (R145). -/
def halves (x y : Byte) : Byte := BitVec.ofNat 8 ((x.toNat + y.toNat) / 2)

/-- A function of two channels, channel by channel. -/
def Rgb.zip (f : Byte → Byte → Byte) (c d : Rgb) : Rgb := { r := f c.r d.r, g := f c.g d.g, b := f c.b d.b }

/-- The palette of four-colour mode (R142, R144). -/
def fourColour (q0 q1 : BitVec 16) : Vector Pixel 4 :=
  #v[(expand565 q0).withAlpha 255, (expand565 q1).withAlpha 255,
     ((expand565 q0).zip thirds (expand565 q1)).withAlpha 255,
     ((expand565 q1).zip thirds (expand565 q0)).withAlpha 255]

/-- The palette of three-colour mode (R142, R145): entry 3 is opaque black. -/
def threeColour (q0 q1 : BitVec 16) : Vector Pixel 4 :=
  #v[(expand565 q0).withAlpha 255, (expand565 q1).withAlpha 255,
     ((expand565 q0).zip halves (expand565 q1)).withAlpha 255,
     { r := 0, g := 0, b := 0, a := 255 }]

/-- The palette of a DXT1 block, by the order of its endpoints (R143). -/
def dxt1Palette (q0 q1 : BitVec 16) : Vector Pixel 4 :=
  if q1.toNat < q0.toNat then fourColour q0 q1 else threeColour q0 q1

/-- The colour palette of a DXT5 block (R153). -/
def dxt5Palette (mode : Dxt5ColorMode) (q0 q1 : BitVec 16) : Vector Pixel 4 :=
  match mode with
  | .alwaysFour => fourColour q0 q1
  | .asDxt1 => dxt1Palette q0 q1

/-- `c[ I[2i+1:2i] ]` (R146). -/
def dxtSelect (pal : Vector Pixel 4) (idx : BitVec 32) (i : Nat) : Pixel :=
  pal.get (idx.extractLsb' (2 * i) 2).toFin

/-- Entry `k` of the ramp with divisor 7 (R150, R151). -/
def ramp7 (a0 a1 : Byte) (k : Nat) : Byte :=
  if k = 0 then a0 else if k = 1 then a1
  else BitVec.ofNat 8 (((8 - k) * a0.toNat + (k - 1) * a1.toNat) / 7)

/-- Entry `k` of the ramp with divisor 5 (R150, R152). -/
def ramp5 (a0 a1 : Byte) (k : Nat) : Byte :=
  if k = 0 then a0 else if k = 1 then a1 else if k = 6 then 0 else if k = 7 then 255
  else BitVec.ofNat 8 (((6 - k) * a0.toNat + (k - 1) * a1.toNat) / 5)

/-- The alpha palette with divisor 7. -/
def alpha7Palette (a0 a1 : Byte) : Vector Byte 8 := Vector.ofFn fun k : Fin 8 => ramp7 a0 a1 k.val

/-- The alpha palette with divisor 5. -/
def alpha5Palette (a0 a1 : Byte) : Vector Byte 8 := Vector.ofFn fun k : Fin 8 => ramp5 a0 a1 k.val

/-- The alpha palette of a DXT5 block, by the order of its endpoints (R151, R152). -/
def dxt5AlphaPalette (a0 a1 : Byte) : Vector Byte 8 :=
  if a1.toNat < a0.toNat then alpha7Palette a0 a1 else alpha5Palette a0 a1

/-- `a[ J[3i+2:3i] ]` (R154). -/
def alphaSelect (pal : Vector Byte 8) (idx : BitVec 48) (i : Nat) : Byte :=
  pal.get (idx.extractLsb' (3 * i) 3).toFin

/-- A DXT1 block with its palette (R146): palette registers and tile entries 0 to 15. -/
def dxt1State (pal : Vector Pixel 4) (b : DxtColour) (s : State) : State :=
  setTile16 (dxtSelect pal b.idx) { s with colPal := pal }

/-- The alpha half of a DXT5 block (R154): palette registers and the alpha of entries 0 to 15. -/
def dxt5AlphaState (pal : Vector Byte 8) (a : DxtAlpha) (s : State) : State :=
  setTileAlpha16 (alphaSelect pal a.idx) { s with alphaPal := pal }

/-- The colour half of a DXT5 block (R153, R154): palette registers and the colours of entries 0 to 15. -/
def dxt5ColourState (pal : Vector Pixel 4) (b : DxtColour) (s : State) : State :=
  setTileRgb16 (fun i => ⟨(dxtSelect pal b.idx i).r, (dxtSelect pal b.idx i).g, (dxtSelect pal b.idx i).b⟩)
    { s with colPal := pal }

/-- DXT1.FOUR (R144, R147). -/
def execDxt1Four (b : DxtColour) (s : State) : Result := .next (dxt1State (fourColour b.q0 b.q1) b s)

/-- DXT1.THREE (R145, R147). -/
def execDxt1Three (b : DxtColour) (s : State) : Result := .next (dxt1State (threeColour b.q0 b.q1) b s)

/-- DXT5.ALPHA7 (R151, R154). -/
def execDxt5Alpha7 (a : DxtAlpha) (s : State) : Result := .next (dxt5AlphaState (alpha7Palette a.a0 a.a1) a s)

/-- DXT5.ALPHA5 (R152, R154). -/
def execDxt5Alpha5 (a : DxtAlpha) (s : State) : Result := .next (dxt5AlphaState (alpha5Palette a.a0 a.a1) a s)

/-- DXT5.COLOR (R153, R154). -/
def execDxt5Color (b : DxtColour) (s : State) : Result :=
  .next (dxt5ColourState (dxt5Palette s.cfg.dxt5ColorMode b.q0 b.q1) b s)

/-- `decode_dxt1_block` (R147), the whole function: the pixel at raster index `i`. -/
def decodeDxt1Block (bs : List Byte) (i : Nat) : Pixel :=
  dxtSelect (dxt1Palette (dxtColourOf (BitVec.ofNat 64 (leNat bs))).q0 (dxtColourOf (BitVec.ofNat 64 (leNat bs))).q1)
    (dxtColourOf (BitVec.ofNat 64 (leNat bs))).idx i

/-- `decode_dxt5_block` (R155), the whole function: the pixel at raster index `i`. -/
def decodeDxt5Block (mode : Dxt5ColorMode) (bs : List Byte) (i : Nat) : Pixel :=
  let a := dxtAlphaOf (BitVec.ofNat 64 (leNat (bs.take 8)))
  let b := dxtColourOf (BitVec.ofNat 64 (leNat (bs.drop 8)))
  { dxtSelect (dxt5Palette mode b.q0 b.q1) b.idx i with a := alphaSelect (dxt5AlphaPalette a.a0 a.a1) a.idx i }

end Sys2Proof.Machine
end

