-- ==== Sys2Proof/Machine/Etc.lean ====
section
/-! DEFINITION. The ETC engine (43_etc). -/

namespace Sys2Proof.Machine

open Sys2Proof

/-! ### Pixel codes, order and partition -/

/-- The raster index of pixel `p` (R175), which is also the pixel number of raster index `p`: the map swaps rows and columns. -/
def etcRaster (p : Nat) : Nat := 4 * (p % 4) + p / 4

/-- The 2-bit code of pixel `p` (R176). -/
def etcCode (m l : BitVec 16) (p : Nat) : BitVec 2 := BitVec.ofBool (m.getLsbD p) ++ BitVec.ofBool (l.getLsbD p)

/-- The sub-block of pixel `p` (R177): left and right halves for flip 0, top and bottom for flip 1. -/
def etcSub (flip : BitVec 1) (p : Nat) : Fin 2 :=
  if flip = 0 then (if p / 4 < 2 then 0 else 1) else (if p % 4 < 2 then 0 else 1)

/-- The signed offset of a code under a table codeword (R178). -/
def etcOffset (cfg : Config) (tw : BitVec 3) (code : BitVec 2) : Int :=
  match code.toNat with
  | 0 => ((cfg.etcModifier.get tw.toFin).1 : Int)
  | 1 => ((cfg.etcModifier.get tw.toFin).2 : Int)
  | 2 => -((cfg.etcModifier.get tw.toFin).1 : Int)
  | _ => -((cfg.etcModifier.get tw.toFin).2 : Int)

/-- A signed offset added to each channel, each clamped on its own (R179). -/
def Rgb.addClamp (c : Rgb) (d : Int) : Rgb :=
  { r := clamp255 ((c.r.toNat : Int) + d), g := clamp255 ((c.g.toNat : Int) + d), b := clamp255 ((c.b.toNat : Int) + d) }

/-- The pixel at raster index `i` of an Individual or Differential block (R179). -/
def etcModulated (cfg : Config) (base : Vector Rgb 2) (tw0 tw1 : BitVec 3) (flip : BitVec 1) (m l : BitVec 16)
    (i : Nat) : Pixel :=
  ((base.get (etcSub flip (etcRaster i))).addClamp
    (etcOffset cfg (if etcSub flip (etcRaster i) = 0 then tw0 else tw1) (etcCode m l (etcRaster i)))).withAlpha 255

/-- The pixel at raster index `i` of a T or H block (R182, R183). -/
def etcPainted (paint : Vector Rgb 4) (m l : BitVec 16) (i : Nat) : Pixel :=
  (paint.get (etcCode m l (etcRaster i)).toFin).withAlpha 255

/-! ### The five modes -/

/-- The base colours of an Individual block (R180). -/
def individualBase (b : EtcIndividual) : Vector Rgb 2 :=
  #v[⟨rep b.r1, rep b.g1, rep b.b1⟩, ⟨rep b.r2, rep b.g2, rep b.b2⟩]

/-- Base plus delta on five bits (R181). Under `wrap` the sum is taken modulo 32; in ETC2 it is in range anyway. -/
def addDelta (mode : Etc1DiffOverflow) (c : BitVec 5) (d : BitVec 3) : BitVec 5 :=
  match mode with
  | .wrap => BitVec.ofInt 5 ((c.toNat : Int) + sext3 d)

/-- The base colours of a Differential block (R181). -/
def differentialBase (mode : Etc1DiffOverflow) (b : EtcDifferential) : Vector Rgb 2 :=
  #v[⟨rep b.r, rep b.g, rep b.b⟩,
     ⟨rep (addDelta mode b.r b.dr), rep (addDelta mode b.g b.dg), rep (addDelta mode b.b b.db)⟩]

/-- The paint colours of a T block (R182). -/
def tPaint (cfg : Config) (b : EtcT) : Vector Rgb 4 :=
  let base0 : Rgb := ⟨rep b.r1, rep b.g1, rep b.b1⟩
  let base1 : Rgb := ⟨rep b.r2, rep b.g2, rep b.b2⟩
  let d : Int := ((cfg.etcDistance.get b.di.toFin : Nat) : Int)
  #v[base0, base1.addClamp d, base1, base1.addClamp (-d)]

/-- The lowest bit of the H distance index (R183): `(R1, G1, B1) >= (R2, G2, B2)`, red compared first, which is the order of
the packed colours. -/
def hTieBreak (b : EtcH) : Bool :=
  decide ((b.r2 ++ b.g2 ++ b.b2).toNat ≤ (b.r1 ++ b.g1 ++ b.b1).toNat)

/-- The distance index of an H block (R183). -/
def hDistanceIndex (b : EtcH) : BitVec 3 := b.da ++ b.db ++ BitVec.ofBool (hTieBreak b)

/-- The paint colours of an H block (R183). -/
def hPaint (cfg : Config) (b : EtcH) : Vector Rgb 4 :=
  let base0 : Rgb := ⟨rep b.r1, rep b.g1, rep b.b1⟩
  let base1 : Rgb := ⟨rep b.r2, rep b.g2, rep b.b2⟩
  let d : Int := ((cfg.etcDistance.get (hDistanceIndex b).toFin : Nat) : Int)
  #v[base0.addClamp d, base0.addClamp (-d), base1.addClamp d, base1.addClamp (-d)]

/-- One channel of a Planar pixel (R184). -/
def planarChannel (o h v : Byte) (x y : Nat) : Byte :=
  clamp255 (((x : Int) * ((h.toNat : Int) - (o.toNat : Int)) + (y : Int) * ((v.toNat : Int) - (o.toNat : Int))
    + 4 * (o.toNat : Int) + 2) >>> 2)

/-- The pixel at raster index `i` of a Planar block (R184). -/
def planarPixel (b : EtcPlanar) (i : Nat) : Pixel :=
  { r := planarChannel (rep b.ro) (rep b.rh) (rep b.rv) (i % 4) (i / 4)
    g := planarChannel (rep b.go) (rep b.gh) (rep b.gv) (i % 4) (i / 4)
    b := planarChannel (rep b.bo) (rep b.bh) (rep b.bv) (i % 4) (i / 4)
    a := 255 }

/-- ETC.INDIVIDUAL on the state (R180). -/
def etcIndividualState (b : EtcIndividual) (s : State) : State :=
  setTile16 (etcModulated s.cfg (individualBase b) b.tw0 b.tw1 b.flip b.m b.l) { s with etcBase := individualBase b }

/-- ETC.DIFFERENTIAL on the state (R181). -/
def etcDifferentialState (b : EtcDifferential) (s : State) : State :=
  setTile16 (etcModulated s.cfg (differentialBase s.cfg.etc1DiffOverflow b) b.tw0 b.tw1 b.flip b.m b.l)
    { s with etcBase := differentialBase s.cfg.etc1DiffOverflow b }

/-- ETC.T on the state (R182). -/
def etcTState (b : EtcT) (s : State) : State :=
  setTile16 (etcPainted (tPaint s.cfg b) b.m b.l) { s with etcPaint := tPaint s.cfg b }

/-- ETC.H on the state (R183). -/
def etcHState (b : EtcH) (s : State) : State :=
  setTile16 (etcPainted (hPaint s.cfg b) b.m b.l) { s with etcPaint := hPaint s.cfg b }

/-- ETC.PLANAR on the state (R184): tile entries in raster order, no palette register. -/
def etcPlanarState (b : EtcPlanar) (s : State) : State := setTile16 (planarPixel b) s

/-- ETC.INDIVIDUAL. -/
def execEtcIndividual (b : EtcIndividual) (s : State) : Result := .next (etcIndividualState b s)

/-- ETC.DIFFERENTIAL. -/
def execEtcDifferential (b : EtcDifferential) (s : State) : Result := .next (etcDifferentialState b s)

/-- ETC.T. -/
def execEtcT (b : EtcT) (s : State) : Result := .next (etcTState b s)

/-- ETC.H. -/
def execEtcH (b : EtcH) (s : State) : Result := .next (etcHState b s)

/-- ETC.PLANAR. -/
def execEtcPlanar (b : EtcPlanar) (s : State) : Result := .next (etcPlanarState b s)

/-! ### Alpha variants -/

/-- The table index of pixel `p` (R79). -/
def eacIndex (x : BitVec 48) (p : Nat) : BitVec 3 := x.extractLsb' (45 - 3 * p) 3

/-- `alpha(p)` (R189). -/
def eacPixelAlpha (cfg : Config) (b : EacAlpha) (p : Nat) : Byte :=
  clamp255 ((b.base.toNat : Int) + (b.mult.toNat : Int) * (cfg.eacModifier.get b.tsel.toFin).get (eacIndex b.idx p).toFin)

/-- EAC.ALPHA on the state (R189, R190): the alpha of entries 0 to 15. -/
def eacAlphaState (b : EacAlpha) (s : State) : State :=
  setTileAlpha16 (fun i => eacPixelAlpha s.cfg b (etcRaster i)) s

/-- EAC.ALPHA. -/
def execEacAlpha (b : EacAlpha) (s : State) : Result := .next (eacAlphaState b s)

/-- `decode_etc_color_block` on the state (R185): mode selection, then the mode. -/
def etcColourState (etc2 : Bool) (w : BitVec 64) (s : State) : State :=
  match etcMode etc2 w with
  | .individual => etcIndividualState (etcIndividualOf w) s
  | .differential => etcDifferentialState (etcDifferentialOf w) s
  | .t => etcTState (etcTOf w) s
  | .h => etcHState (etcHOf w) s
  | .planar => etcPlanarState (etcPlanarOf w) s

/-- ETC2A1.BLOCK (R186): the colour block as ETC2, then the alpha byte on all sixteen pixels. -/
def execEtc2a1Block (alpha : Byte) (colour : BitVec 64) (s : State) : Result :=
  .next (setTileAlpha16 (fun _ => alpha) (etcColourState true colour s))

/-- ETC2A8.BLOCK (R190): the colour block as ETC2, then the alpha block. -/
def execEtc2a8Block (alpha colour : BitVec 64) (s : State) : Result :=
  .next (eacAlphaState (eacAlphaOf alpha) (etcColourState true colour s))

/-! ### The whole block functions -/

/-- `decode_etc_color_block` (R185), the whole function: the pixel at raster index `i`. -/
def decodeEtcColourBlock (cfg : Config) (etc2 : Bool) (w : BitVec 64) (i : Nat) : Pixel :=
  match etcMode etc2 w with
  | .individual =>
    etcModulated cfg (individualBase (etcIndividualOf w)) (etcIndividualOf w).tw0 (etcIndividualOf w).tw1
      (etcIndividualOf w).flip (etcIndividualOf w).m (etcIndividualOf w).l i
  | .differential =>
    etcModulated cfg (differentialBase cfg.etc1DiffOverflow (etcDifferentialOf w)) (etcDifferentialOf w).tw0
      (etcDifferentialOf w).tw1 (etcDifferentialOf w).flip (etcDifferentialOf w).m (etcDifferentialOf w).l i
  | .t => etcPainted (tPaint cfg (etcTOf w)) (etcTOf w).m (etcTOf w).l i
  | .h => etcPainted (hPaint cfg (etcHOf w)) (etcHOf w).m (etcHOf w).l i
  | .planar => planarPixel (etcPlanarOf w) i

/-- `decode_etc2a1_block` (R186), the whole function. -/
def decodeEtc2a1Block (cfg : Config) (bs : List Byte) (i : Nat) : Pixel :=
  { decodeEtcColourBlock cfg true (BitVec.ofNat 64 (beNat (bs.drop 1))) i with a := bs.headD 0 }

/-- `decode_etc2a8_block` (R190), the whole function. -/
def decodeEtc2a8Block (cfg : Config) (bs : List Byte) (i : Nat) : Pixel :=
  { decodeEtcColourBlock cfg true (BitVec.ofNat 64 (beNat (bs.drop 8))) i with
    a := eacPixelAlpha cfg (eacAlphaOf (BitVec.ofNat 64 (beNat (bs.take 8)))) (etcRaster i) }

end Sys2Proof.Machine
end

