-- ==== Sys2Proof/Machine/Pvrtc.lean ====
section
/-! DEFINITION. The PVRTC engine (44_pvrtc). -/

namespace Sys2Proof.Machine

open Sys2Proof

/-! ### EXPAND: colours -/

/-- Four bits to five by replication of the top bit (R225, R226). -/
def widen4 (v : BitVec 4) : BitVec 5 := (v.setWidth 5 <<< 1) ||| (v.setWidth 5 >>> 3)

/-- Three bits to five (R225). -/
def widen3 (v : BitVec 3) : BitVec 5 := (v.setWidth 5 <<< 2) ||| (v.setWidth 5 >>> 1)

/-- The alpha of a translucent colour: a 0 bit appended (R224). -/
def alpha3 (v : BitVec 3) : BitVec 4 := v.setWidth 4 <<< 1

/-- Write colour A of the record at the cursor. -/
def setColourA (c : Texel) (s : State) : State := updateTex (fun r => { r with a := c }) s

/-- Write colour B of the record at the cursor. -/
def setColourB (c : Texel) (s : State) : State := updateTex (fun r => { r with b := c }) s

/-- Colour A, opaque (R225). -/
def colaOpaque (r g : BitVec 5) (b : BitVec 4) : Texel := { r := r, g := g, b := widen4 b, a := 15 }

/-- Colour A, translucent (R225). -/
def colaTranslucent (a : BitVec 3) (r g : BitVec 4) (b : BitVec 3) : Texel :=
  { r := widen4 r, g := widen4 g, b := widen3 b, a := alpha3 a }

/-- Colour B, opaque (R226). -/
def colbOpaque (r g b : BitVec 5) : Texel := { r := r, g := g, b := b, a := 15 }

/-- Colour B, translucent (R226). -/
def colbTranslucent (a : BitVec 3) (r g b : BitVec 4) : Texel :=
  { r := widen4 r, g := widen4 g, b := widen4 b, a := alpha3 a }

/-- PVRTC.COLA.OPAQUE (R225); `mflag` is no part of the colour. -/
def execPvrtcColaOpaque (r g : BitVec 5) (b : BitVec 4) (_mflag : BitVec 1) (s : State) : Result :=
  .next (setColourA (colaOpaque r g b) s)

/-- PVRTC.COLA.TRANSLUCENT (R225). -/
def execPvrtcColaTranslucent (a : BitVec 3) (r g : BitVec 4) (b : BitVec 3) (_mflag : BitVec 1) (s : State) : Result :=
  .next (setColourA (colaTranslucent a r g b) s)

/-- PVRTC.COLB.OPAQUE (R226). -/
def execPvrtcColbOpaque (r g b : BitVec 5) (s : State) : Result := .next (setColourB (colbOpaque r g b) s)

/-- PVRTC.COLB.TRANSLUCENT (R226). -/
def execPvrtcColbTranslucent (a : BitVec 3) (r g b : BitVec 4) (s : State) : Result :=
  .next (setColourB (colbTranslucent a r g b) s)

/-! ### EXPAND: weights and punch-through -/

/-- The 2-bit code `M[2i+1:2i]` (R80). -/
def modCode (m : BitVec 32) (i : Nat) : BitVec 2 := m.extractLsb' (2 * i) 2

/-- The weights of a 4bpp block (R228): entries 0 to 15; entries 16 to 31 are unused and keep what they hold (log 28). -/
def weights4 (table : Vector (Fin 9) 4) (m : BitVec 32) (old : Vector Weight 32) : Vector Weight 32 :=
  Vector.ofFn fun i : Fin 32 => if i.val < 16 then .stored (table.get (modCode m i.val).toFin) else old.get i

/-- The punch-through mask over the first `n` sub-pixels (R231): bit `i` set exactly when code `i` is 2. -/
def punchMask (m : BitVec 32) : Nat → BitVec 32
  | 0 => 0
  | n + 1 => punchMask m n ||| (if modCode m n = 2 then (1#32 <<< n) else 0)

/-- Weight 8 for a set bit, 0 for a clear one (R229, R230). -/
def bitWeight (b : Bool) : Weight := if b then .stored 8 else .stored 0

/-- The weights of a 2bpp block with `mflag = 0` (R229). -/
def weights2Direct (m : BitVec 32) : Vector Weight 32 := Vector.ofFn fun i : Fin 32 => bitWeight (m.getLsbD i.val)

/-- The fill mark of a 2bpp block with `mflag = 1` (R230). -/
def fillMark (m : BitVec 32) : Fill :=
  if m.getLsbD 0 = false then .hv else if m.getLsbD 20 = false then .h else .v

/-- The weight of sub-pixel `i = 8 * y + x` of a 2bpp block with `mflag = 1` (R230). The `k`-th stored position has `k = i / 2`. -/
def weight2Interpolated (std : Vector (Fin 9) 4) (m : BitVec 32) (i : Nat) : Weight :=
  if (i % 8 + i / 8) % 2 = 1 then .fill (fillMark m)
  else if i = 0 then bitWeight (m.getLsbD 1)
  else if i = 20 ∧ m.getLsbD 0 = true then bitWeight (m.getLsbD 21)
  else .stored (std.get (modCode m (i / 2)).toFin)

/-- The weights of a 2bpp block with `mflag = 1` (R230). -/
def weights2Interpolated (std : Vector (Fin 9) 4) (m : BitVec 32) : Vector Weight 32 :=
  Vector.ofFn fun i : Fin 32 => weight2Interpolated std m i.val

/-- PVRTC.MOD4.STANDARD on the state (R228, R231). -/
def mod4StandardState (m : BitVec 32) (s : State) : State :=
  updateTex (fun r => { r with wt := weights4 s.cfg.pvrtcStd m r.wt, pt := 0 }) s

/-- PVRTC.MOD4.PUNCHTHROUGH on the state (R228, R231). -/
def mod4PunchthroughState (m : BitVec 32) (s : State) : State :=
  updateTex (fun r => { r with wt := weights4 s.cfg.pvrtcPt m r.wt, pt := punchMask m 16 }) s

/-- PVRTC.MOD2.DIRECT on the state (R229, R231). -/
def mod2DirectState (m : BitVec 32) (s : State) : State :=
  updateTex (fun r => { r with wt := weights2Direct m, pt := 0 }) s

/-- PVRTC.MOD2.INTERPOLATED on the state (R230, R231). -/
def mod2InterpolatedState (m : BitVec 32) (s : State) : State :=
  updateTex (fun r => { r with wt := weights2Interpolated s.cfg.pvrtcStd m, pt := 0 }) s

/-- PVRTC.MOD4.STANDARD. -/
def execPvrtcMod4Standard (m : BitVec 32) (s : State) : Result := .next (mod4StandardState m s)

/-- PVRTC.MOD4.PUNCHTHROUGH. -/
def execPvrtcMod4Punchthrough (m : BitVec 32) (s : State) : Result := .next (mod4PunchthroughState m s)

/-- PVRTC.MOD2.DIRECT. -/
def execPvrtcMod2Direct (m : BitVec 32) (s : State) : Result := .next (mod2DirectState m s)

/-- PVRTC.MOD2.INTERPOLATED. -/
def execPvrtcMod2Interpolated (m : BitVec 32) (s : State) : Result := .next (mod2InterpolatedState m s)

/-- `colourA(B)` (R225) from the whole word. -/
def colourA (ca : BitVec 16) : Texel :=
  if ca.getLsbD 15 then colaOpaque (ca.extractLsb 14 10) (ca.extractLsb 9 5) (ca.extractLsb 4 1)
  else colaTranslucent (ca.extractLsb 14 12) (ca.extractLsb 11 8) (ca.extractLsb 7 4) (ca.extractLsb 3 1)

/-- `colourB(B)` (R226) from the whole word. -/
def colourB (cb : BitVec 16) : Texel :=
  if cb.getLsbD 15 then colbOpaque (cb.extractLsb 14 10) (cb.extractLsb 9 5) (cb.extractLsb 4 0)
  else colbTranslucent (cb.extractLsb 14 12) (cb.extractLsb 11 8) (cb.extractLsb 7 4) (cb.extractLsb 3 0)

/-- The weights and the mask by `is2` and `mflag` (R227). -/
def modulationState (is2 mflag : Bool) (m : BitVec 32) (s : State) : State :=
  match is2, mflag with
  | false, false => mod4StandardState m s
  | false, true => mod4PunchthroughState m s
  | true, false => mod2DirectState m s
  | true, true => mod2InterpolatedState m s

/-- PVRTC.BLOCK (R222): the record at the cursor gets its two colours, its weights and its mask; `mflag` is `ca[0]` (R227)
and `is2` is the command's. -/
def execPvrtcBlock (ca cb : BitVec 16) (m : BitVec 32) (s : State) : Result :=
  .next (modulationState s.is2 (ca.getLsbD 0) m (setColourB (colourB cb) (setColourA (colourA ca) s)))

/-! ### The Morton index -/

/-- The low `2 n` bits of the Morton index (R233): `t` in even bits, `s` in odd bits. -/
def mortonLow (s t : Nat) : Nat → Nat
  | 0 => 0
  | n + 1 => mortonLow s t n ||| ((t.testBit n).toNat <<< (2 * n)) ||| ((s.testBit n).toNat <<< (2 * n + 1))

/-- `morton(s, t)` (R233), with `2^n` the shorter side. -/
def morton (nbx nby s t : Nat) : Nat :=
  mortonLow s t (min nbx nby).log2 ||| (((s ||| t) >>> (min nbx nby).log2) <<< (2 * (min nbx nby).log2))

/-! ### WALK -/

/-- The neighbourhood (R234): `N[ay][ax]`, toroidal. -/
def neighbour (tex : List TexelInfo) (nbx nby s t ay ax : Nat) : TexelInfo :=
  texRead tex (morton nbx nby ((s + ax + nbx - 1) % nbx) ((t + ay + nby - 1) % nby))

/-- A row weight `W4[y][ay]` (R235). -/
def rowWeight (cfg : Config) (y ay : Nat) : Nat :=
  (cfg.pvrtcW4[y % 4]'(Nat.mod_lt _ (by decide)))[ay % 3]'(Nat.mod_lt _ (by decide))

/-- A column weight `WX[x][ax]` (R235, R236). -/
def colWeight (cfg : Config) (is2 : Bool) (x ax : Nat) : Nat :=
  if is2 then (cfg.pvrtcW8[x % 8]'(Nat.mod_lt _ (by decide)))[ax % 3]'(Nat.mod_lt _ (by decide))
  else (cfg.pvrtcW4[x % 4]'(Nat.mod_lt _ (by decide)))[ax % 3]'(Nat.mod_lt _ (by decide))

/-- A 9-tap sum (R236) of one channel `c` of the neighbourhood `n`. -/
def tapSum (cfg : Config) (is2 : Bool) (n : Nat → Nat → TexelInfo) (c : TexelInfo → Nat) (x y : Nat) : Nat :=
  ((List.range 3).map fun ay =>
    ((List.range 3).map fun ax => colWeight cfg is2 x ax * rowWeight cfg y ay * c (n ay ax)).sum).sum

/-- A sum scaled by two shifts (R237, R238): `(v >> i) + (v >> j)`. -/
def scaleBy (shifts : Nat × Nat) (v : Nat) : Nat := (v >>> shifts.1) + (v >>> shifts.2)

/-- Scaling of an r, g or b sum to eight bits (R237, R238), by the configuration (R239). -/
def scaleRgb (cfg : Config) (is2 : Bool) (v : Nat) : Nat := scaleBy (if is2 then cfg.pvrtcScale2 else cfg.pvrtcScale4) v

/-- Scaling of an alpha sum to eight bits (R237, R238), by the configuration (R239). -/
def scaleAlpha (cfg : Config) (is2 : Bool) (v : Nat) : Nat :=
  scaleBy (if is2 then cfg.pvrtcScale2Alpha else cfg.pvrtcScale4Alpha) v

/-- The number of a weight. A fill mark is no weight and never gets here for records that EXPAND wrote (R241; log 19). -/
def Weight.toNat : Weight → Nat
  | .stored w => w.val
  | .fill _ => 0

/-- Entry `i` of a record's weights, `i < 32`. -/
def TexelInfo.weight (r : TexelInfo) (i : Nat) : Weight := r.wt[i % 32]'(Nat.mod_lt _ (by decide))

/-- `wn(xx, yy)` (R241): the stored weight at a tile-relative position, looked up in the neighbour it lies in. -/
def neighbourWeight (n : Nat → Nat → TexelInfo) (xx yy : Int) : Nat :=
  ((n (if yy < 0 then 0 else if 4 ≤ yy then 2 else 1) (if xx < 0 then 0 else if 8 ≤ xx then 2 else 1)).weight
    (8 * (yy % 4).toNat + (xx % 8).toNat)).toNat

/-- A derived weight (R241) with the rounding of `PVRTC2_AVERAGE`. -/
def derivedWeight (avg : Pvrtc2Average) (n : Nat → Nat → TexelInfo) (f : Fill) (x y : Int) : Nat :=
  match avg, f with
  | .roundHalfUp, .hv =>
    (neighbourWeight n x (y - 1) + neighbourWeight n x (y + 1) + neighbourWeight n (x - 1) y
      + neighbourWeight n (x + 1) y + 2) / 4
  | .roundHalfUp, .h => (neighbourWeight n (x - 1) y + neighbourWeight n (x + 1) y + 1) / 2
  | .roundHalfUp, .v => (neighbourWeight n x (y - 1) + neighbourWeight n x (y + 1) + 1) / 2

/-- The columns of a tile (R71). -/
def pvrtcWidth (is2 : Bool) : Nat := if is2 then 8 else 4

/-- The modulation weight of sub-pixel `(x, y)` (R240, R241). -/
def pvrtcWeight (cfg : Config) (is2 : Bool) (n : Nat → Nat → TexelInfo) (x y : Nat) : Nat :=
  match (n 1 1).weight (pvrtcWidth is2 * y + x) with
  | .stored w => w.val
  | .fill f => derivedWeight cfg.pvrtc2Average n f x y

/-- The blend of one channel (R242), floor division. -/
def blend (ea eb w : Nat) : Nat := (ea * (8 - w) + eb * w) / 8

/-- One sub-pixel (R242, R243). -/
def pvrtcPixel (cfg : Config) (is2 : Bool) (n : Nat → Nat → TexelInfo) (x y : Nat) : Pixel :=
  let w := pvrtcWeight cfg is2 n x y
  let ch := fun (ca cb : TexelInfo → Nat) (scale : Nat → Nat) =>
    BitVec.ofNat 8 (blend (scale (tapSum cfg is2 n ca x y)) (scale (tapSum cfg is2 n cb x y)) w)
  { r := ch (fun i => i.a.r.toNat) (fun i => i.b.r.toNat) (scaleRgb cfg is2)
    g := ch (fun i => i.a.g.toNat) (fun i => i.b.g.toNat) (scaleRgb cfg is2)
    b := ch (fun i => i.a.b.toNat) (fun i => i.b.b.toNat) (scaleRgb cfg is2)
    a := if (n 1 1).pt.getLsbD (pvrtcWidth is2 * y + x) then 0
         else ch (fun i => i.a.a.toNat) (fun i => i.b.a.toNat) (scaleAlpha cfg is2) }

/-- `pvrtc_tile` (R243): the pixel at raster index `i` of the tile. -/
def pvrtcTile (cfg : Config) (is2 : Bool) (n : Nat → Nat → TexelInfo) (i : Nat) : Pixel :=
  pvrtcPixel cfg is2 n (i % pvrtcWidth is2) (i / pvrtcWidth is2)

/-- The tile of block `(s, t)` in the tile buffer (R223, R243). -/
def pvrtcTileState (is2 : Bool) (g : Grid) (s : State) : State :=
  if is2 then setTile32 (pvrtcTile s.cfg true (neighbour s.tex g.nbx g.nby s.pc.s s.pc.t)) s
  else setTile16 (pvrtcTile s.cfg false (neighbour s.tex g.nbx g.nby s.pc.s s.pc.t)) s

end Sys2Proof.Machine
end

