-- ==== Sys2Proof/Machine/Dispatch.lean ====
section
/-! DEFINITION. The meaning of every instruction: one arm per row of spec/opcode_table.json, in the table's order. -/

namespace Sys2Proof.Machine

open Sys2Proof

def exec (i : Instr) (s : State) : Host.Outcome State Fault Refusal :=
  match i with
  | .start clear => Sys2Proof.Machine.execStart clear s
  | .clear => Sys2Proof.Machine.execClear s
  | .decodeDxt1 is2 => Sys2Proof.Machine.execDecodeDxt1 is2 s
  | .decodeDxt5 is2 => Sys2Proof.Machine.execDecodeDxt5 is2 s
  | .decodeEtc1 is2 => Sys2Proof.Machine.execDecodeEtc1 is2 s
  | .decodeEtc2 is2 => Sys2Proof.Machine.execDecodeEtc2 is2 s
  | .decodeEtc2a1 is2 => Sys2Proof.Machine.execDecodeEtc2a1 is2 s
  | .decodeEtc2a8 is2 => Sys2Proof.Machine.execDecodeEtc2a8 is2 s
  | .decodePvrtc4 => Sys2Proof.Machine.execDecodePvrtc4 s
  | .decodePvrtc2 => Sys2Proof.Machine.execDecodePvrtc2 s
  | .reservedFmt fmt is2 => Sys2Proof.Machine.execReservedFmt fmt is2 s
  | .dxt1Four b => Sys2Proof.Machine.execDxt1Four b s
  | .dxt1Three b => Sys2Proof.Machine.execDxt1Three b s
  | .dxt5Alpha7 a => Sys2Proof.Machine.execDxt5Alpha7 a s
  | .dxt5Alpha5 a => Sys2Proof.Machine.execDxt5Alpha5 a s
  | .dxt5Color b => Sys2Proof.Machine.execDxt5Color b s
  | .etcIndividual b => Sys2Proof.Machine.execEtcIndividual b s
  | .etcT b => Sys2Proof.Machine.execEtcT b s
  | .etcH b => Sys2Proof.Machine.execEtcH b s
  | .etcPlanar b => Sys2Proof.Machine.execEtcPlanar b s
  | .etcDifferential b => Sys2Proof.Machine.execEtcDifferential b s
  | .eacAlpha b => Sys2Proof.Machine.execEacAlpha b s
  | .etc2a1Block alpha colour => Sys2Proof.Machine.execEtc2a1Block alpha colour s
  | .etc2a8Block alpha colour => Sys2Proof.Machine.execEtc2a8Block alpha colour s
  | .pvrtcBlock ca cb m => Sys2Proof.Machine.execPvrtcBlock ca cb m s
  | .pvrtcColaOpaque r g b mflag => Sys2Proof.Machine.execPvrtcColaOpaque r g b mflag s
  | .pvrtcColaTranslucent a r g b mflag => Sys2Proof.Machine.execPvrtcColaTranslucent a r g b mflag s
  | .pvrtcColbOpaque r g b => Sys2Proof.Machine.execPvrtcColbOpaque r g b s
  | .pvrtcColbTranslucent a r g b => Sys2Proof.Machine.execPvrtcColbTranslucent a r g b s
  | .pvrtcMod4Standard m => Sys2Proof.Machine.execPvrtcMod4Standard m s
  | .pvrtcMod4Punchthrough m => Sys2Proof.Machine.execPvrtcMod4Punchthrough m s
  | .pvrtcMod2Direct m => Sys2Proof.Machine.execPvrtcMod2Direct m s
  | .pvrtcMod2Interpolated m => Sys2Proof.Machine.execPvrtcMod2Interpolated m s

end Sys2Proof.Machine
end

