-- ==== Sys2Proof/Machine/Walker.lean ====
section
/-! DEFINITION. The block-grid walker (41_blockgrid): the cursor's advance and the copy-out of a tile. -/

namespace Sys2Proof.Machine

open Sys2Proof

/-- `advance(s, t)` (R123): row-major. -/
def advance (g : Grid) (c : Cursor) : Cursor :=
  if c.s + 1 < g.nbx then { c with phase := .walk, s := c.s + 1 }
  else { c with phase := .walk, s := 0, t := c.t + 1 }

/-- The advance of an EXPAND step (R222). -/
def advanceExpand (g : Grid) (c : Cursor) : Cursor :=
  if c.k + 1 < g.count then { phase := .expand, s := 0, t := 0, k := c.k + 1 }
  else { phase := .walk, s := 0, t := 0, k := 0 }

/-- The first `clen` pixels of tile row `i` as bytes (R128). -/
def tileRow (tile : Vector Pixel 32) (g : Grid) (i clen : Nat) : List Byte :=
  (List.range clen).flatMap fun j => (tileAt tile (g.bw * i + j)).bytes

/-- `copy_out(T, s, t)` (R128): one MemWrite per tile row that exists in the output. -/
def copyOut (g : Grid) (dst w h s t : Nat) (tile : Vector Pixel 32) (m : Memory) : Memory :=
  (g.rows h t).foldl (fun m i => m.writeBytes (g.rowAddr dst w h s t i) (tileRow tile g i (g.clen s))) m

/-- The accesses of `copy_out` (R52). -/
def storeAccesses (g : Grid) (dst w h s t : Nat) : List (Nat × Nat) :=
  (g.rows h t).map fun i => (g.rowAddr dst w h s t i, 4 * g.clen s)

/-- What the copy-out of the tile at the cursor leaves in memory; host stores to the same bytes during the command come before or
after it (R61; log 13). -/
def storeTile (g : Grid) (s : State) : Memory :=
  settle (storeAccesses g s.dstBase s.width.toNat s.height.toNat s.pc.s s.pc.t) (s.choices + g.bb) s.hostStores
    (copyOut g s.dstBase s.width.toNat s.height.toNat s.pc.s s.pc.t s.tile s.mem)

/-- The end of a WALK step (R109, R223): copy out the tile at the cursor, advance, DONE after the last block. DESIGN CHOICE: the
tile buffer, the palettes and the scratch keep what the last block left, and the cursor stays past the last block, although R110
says of them nothing and U17 any value (logs 3 to 6). -/
def finishWalk (g : Grid) (s : State) : State :=
  { s with
    mem := storeTile g s
    pc := advance g s.pc
    st := if (advance g s.pc).t = g.nby then .done else s.st
    hostStores := if (advance g s.pc).t = g.nby then [] else s.hostStores
    choices := s.choices + g.bb + s.hostStores.length }

/-- The end of an EXPAND step (R222). -/
def finishExpand (g : Grid) (s : State) : State := { s with pc := advanceExpand g s.pc, choices := s.choices + g.bb }

end Sys2Proof.Machine
end

