-- ==== Sys2Proof/Machine/BlockStep.lean ====
section
/-! DEFINITION. The block-step, the unit's atomic step (00_scope R7): fetch of a block, its rows, the walker (40_commands R109,
44_pvrtc R222, R223). -/

namespace Sys2Proof.Machine

open Sys2Proof

/-- The words of a block that a format's block-step runs, in order, with their byte offset (R86). ETC2A1 and ETC2A8 blocks
and PVRTC blocks are one row whose meaning goes through the rows inside it (log 18). -/
def rowWords : Format → List (WordKind × Nat)
  | .dxt1 => [(.dxt1, 0)]
  | .dxt5 => [(.dxt5Alpha, 0), (.dxt5Colour, 8)]
  | .etc1 => [(.etcColour false, 0)]
  | .etc2 => [(.etcColour true, 0)]
  | .etc2a1 => [(.etc2a1, 0)]
  | .etc2a8 => [(.etc2a8, 0)]
  | .pvrtc4 => [(.pvrtc, 0)]
  | .pvrtc2 => [(.pvrtc, 0)]

/-- The instructions in a block's bytes. -/
def decodeRows : List (WordKind × Nat) → List Byte → Except DecodeError (List Instr)
  | [], _ => .ok []
  | w :: ws, bs =>
    match decode w.1 ((bs.drop w.2).take w.1.bytes) with
    | .error e => .error e
    | .ok i =>
      match decodeRows ws bs with
      | .error e => .error e
      | .ok is => .ok (i :: is)

/-- The instructions of a block of a format. -/
def decodeBlock (f : Format) (bs : List Byte) : Except DecodeError (List Instr) := decodeRows (rowWords f) bs

/-- Run instructions one after the other. -/
def runAll : List Instr → State → Result
  | [], s => .next s
  | i :: is, s => andThen (exec i s) (runAll is)

/-- The address of the block at the cursor in phase WALK of a DXT or ETC command (R124). -/
def blockAddr (g : Grid) (s : State) : Nat := s.srcBase + (s.pc.t * g.nbx + s.pc.s) * g.bb

/-- The address of the block at the cursor in phase EXPAND (R222). -/
def expandAddr (s : State) : Nat := s.srcBase + 8 * s.pc.k

/-- The stores of the WALK step at the cursor. -/
def walkStores (g : Grid) (s : State) : List (Nat × Nat) :=
  storeAccesses g s.dstBase s.width.toNat s.height.toNat s.pc.s s.pc.t

/-- `step_walk` (R109): the block-step of phase WALK for DXT and ETC. -/
def walkBlock (f : Format) (s : State) : Result :=
  guarded s ((blockAddr (s.grid f) s, (s.grid f).bb) :: walkStores (s.grid f) s)
    (match decodeBlock f (s.fetchBytes (blockAddr (s.grid f) s) (s.grid f).bb) with
     | .error _ => .fault .undecodableBlock
     | .ok is => andThen (runAll is s) fun s' => .next (finishWalk (s.grid f) s'))

/-- `step_expand` (R222): the block-step of phase EXPAND. -/
def expandBlock (f : Format) (s : State) : Result :=
  guarded s [(expandAddr s, 8)]
    (match decodeBlock f (s.fetchBytes (expandAddr s) 8) with
     | .error _ => .fault .undecodableBlock
     | .ok is => andThen (runAll is s) fun s' => .next (finishExpand (s.grid f) s'))

/-- `step_walk_pvrtc` (R223): the block-step of phase WALK for PVRTC; it reads the scratch, no memory. -/
def walkPvrtc (f : Format) (s : State) : Result :=
  guarded s (walkStores (s.grid f) s) (.next (finishWalk (s.grid f) (pvrtcTileState s.is2 (s.grid f) s)))

/-- The format's whole block function (R147, R155, R185, R186, R190): the pixel at raster index `i` of the tile of a DXT or
ETC block. A PVRTC tile is no function of one block (R221): none. -/
def blockPixel (cfg : Config) (f : Format) (bs : List Byte) (i : Nat) : Option Pixel :=
  match f with
  | .dxt1 => some (decodeDxt1Block bs i)
  | .dxt5 => some (decodeDxt5Block cfg.dxt5ColorMode bs i)
  | .etc1 => some (decodeEtcColourBlock cfg false (BitVec.ofNat 64 (beNat bs)) i)
  | .etc2 => some (decodeEtcColourBlock cfg true (BitVec.ofNat 64 (beNat bs)) i)
  | .etc2a1 => some (decodeEtc2a1Block cfg bs i)
  | .etc2a8 => some (decodeEtc2a8Block cfg bs i)
  | .pvrtc4 => none
  | .pvrtc2 => none

/-- The cursor is one of the command's (R29). -/
def cursorOk (f : Format) (s : State) : Bool :=
  match s.pc.phase with
  | .expand => isPvrtc f && decide (s.pc.k < (s.grid f).count)
  | .walk => decide (s.pc.s < (s.grid f).nbx) && decide (s.pc.t < (s.grid f).nby)

/-- One step of the unit: a block-step while BUSY; in IDLE, DONE and ERROR it has no enabled step (R109, R110, R222). -/
def unitStep (s : State) : Result :=
  if s.st = .busy then
    match s.format with
    | none => .fault .noEngine
    | some f =>
      if cursorOk f s then
        match s.pc.phase with
        | .expand => expandBlock f s
        | .walk => if isPvrtc f then walkPvrtc f s else walkBlock f s
      else .fault .cursorOutOfGrid
  else .next s

end Sys2Proof.Machine
end

