-- ==== Sys2Proof/Machine/HostAccess.lean ====
section
/-! DEFINITION. The accesses of the host and the platform (10_state R20 to R28, 20_memory R60 to R62, 30_encoding R85, 70_reset
R300), and which of host and unit moves next (log 9, log 22). -/

namespace Sys2Proof.Machine

open Sys2Proof

/-- A write to CTRL: the strobe it carries is executed; a value without one does nothing (R21). -/
def writeCtrl (v : Word) (s : State) : Result :=
  match decodeCtrl v with
  | .ok i => exec i s
  | .error _ => .next s

/-- `WR x[i], v`. -/
def hostWrite (i : Fin 8) (v : Word) (s : State) : Result :=
  if i = 0 then writeCtrl v s else .next (writeReg i v s)

/-- `RD x[i]`: the value goes to the host; reading has no side effect (R28). -/
def hostRead (i : Fin 8) (s : State) : State := { s with rdata := readReg s i }

/-- The address is in the source range of a running command. -/
def sourceLocked (s : State) (a : Nat) : Bool :=
  match s.format with
  | some f => decide (s.st = .busy) && s.inSource f a
  | none => false

/-- The address is in the output range of a running command. -/
def outputLocked (s : State) (a : Nat) : Bool := decide (s.st = .busy) && s.inOutput a

/-- A host store to ordinary memory. To a buffer of a running command it is a race (R61, R62; U1; log 13): a byte of the source
takes the value and the unit may still read the old one; a byte of the output has the host's value or the unit's. -/
def storeState (a : Nat) (b : Byte) (s : State) : State :=
  if outputLocked s a then
    { s with mem := s.mem.raceWrite s.choices a b, hostStores := (a, b) :: s.hostStores, choices := s.choices + 1 }
  else if sourceLocked s a then { s with mem := s.mem.write a b, hostStores := (a, b) :: s.hostStores }
  else { s with mem := s.mem.write a b }

/-- A host load from ordinary memory. From the output range of a running command it is a race (R61; U1; log 13): the old value
or the new one. -/
def loadState (a : Nat) (s : State) : State :=
  if outputLocked s a then { s with rdata := (freePick s.choices (s.seen a)).setWidth 32, choices := s.choices + 1 }
  else { s with rdata := (s.mem.read a).setWidth 32 }

/-- An access of the host to one byte of memory, where the platform has ordinary memory (log 2). -/
def atMemory (a : Word) (s t : State) : Result :=
  match memAnswer s.cfg [(a.toNat, 1)] with
  | .ok => .next t
  | .outside => .refused .hostOutsideMemory
  | .device => .refused .hostOutsideMemory
  | .absent => .refused .hostOutsideMemory

/-- A host store of one byte (R60 (a), R305). -/
def hostStore (a : Word) (b : Byte) (s : State) : Result := atMemory a s (storeState a.toNat b s)

/-- A host load of one byte (R60 (b)). -/
def hostLoad (a : Word) (s : State) : Result := atMemory a s (loadState a.toNat s)

/-- A command abandoned by reset (R300; U16, log 23): each byte of its output range, which the command would have written, holds
any value, so that a reset inside a block-step is covered too; every other byte of memory stays. Nothing is abandoned while the
unit is not BUSY. -/
def abandonOutput (s : State) : State :=
  if s.st = .busy then
    { s with mem := s.mem.writeBytes s.dstBase (s.freeBytes s.dstLen), choices := s.choices + s.dstLen }
  else s

/-- The unit's state as after reset (R36, R300); memory, the configuration, the host's own data and the count of free choices
stay (R301; log 29). -/
def clearUnit (s : State) : State :=
  { State.reset with cfg := s.cfg, mem := s.mem, hostQ := s.hostQ, rdata := s.rdata, choices := s.choices }

/-- Reset (R300, R301): a running command is abandoned, then the unit's state is that after reset. -/
def resetUnit (s : State) : State := clearUnit (abandonOutput s)

/-- One access, taken off the queue already; `wait` gives the unit its step. -/
def hostAccess (op : HostOp) (s : State) : Result :=
  match op with
  | .wr i v => hostWrite i v s
  | .rd i => .next (hostRead i s)
  | .poll => .next (hostRead 1 s)
  | .wait => unitStep s
  | .store a b => hostStore a b s
  | .load a => hostLoad a s
  | .reset => .next (resetUnit s)

/-- A POLL at the head of the queue reads STATUS; while it reads BUSY it stays there and the unit takes its block-step
(R85, R315 (b)). -/
def pollBusy (s : State) : Result := unitStep (hostRead 1 s)

/-- One step of the machine: the next access of the host, or, when none is pending, the unit's own step. -/
def nextStep (s : State) : Result :=
  match s.hostQ with
  | [] => unitStep s
  | .poll :: q => if s.st = .busy then pollBusy s else hostAccess .poll { s with hostQ := q }
  | op :: q => hostAccess op { s with hostQ := q }

/-! ### The host's pseudo-instructions (R85) -/

/-- The value of `x[2]` for a format (R71). -/
def selector : Format → BitVec 9
  | .dxt1 => commandWord 1 false
  | .dxt5 => commandWord 2 false
  | .etc1 => commandWord 3 false
  | .etc2 => commandWord 4 false
  | .etc2a1 => commandWord 5 false
  | .etc2a8 => commandWord 6 false
  | .pvrtc4 => commandWord 7 false
  | .pvrtc2 => commandWord 7 true

/-- `DECODE.<FMT> src=, len=, dst=, w=, h=` (R85). -/
def decodeLine (f : Format) (src len dst w h : Word) : List HostOp :=
  [.wr 2 ((selector f).setWidth 32), .wr 3 src, .wr 4 len, .wr 5 dst, .wr 6 w, .wr 7 h, .wr 0 1, .poll]

/-- `CLEAR` (R85). -/
def clearLine : List HostOp := [.wr 0 2]

/-! ### Placing one instruction where the next step fetches -/

/-- A running command of one block whose bytes are these, at its first block-step. -/
def placeBlock (f : Format) (bs : List Byte) (s : State) : State :=
  { s with
    st := .busy
    err := .none
    fmt := (selector f).extractLsb 7 0
    is2 := (selector f).getLsbD 8
    src := 0x1000
    len := BitVec.ofNat 32 bs.length
    dst := 0x800
    width := BitVec.ofNat 16 (blockWidth f)
    height := BitVec.ofNat 16 (blockHeight f)
    pc := { phase := if isPvrtc f then .expand else .walk, s := 0, t := 0, k := 0 }
    mem := s.mem.writeBytes 0x1000 bs
    hostStores := []
    hostQ := .wait :: s.hostQ }

/-- Put a word where the next step fetches it: a CTRL value as the host's next write; a command word in FORMAT with START as
the host's next write; a word of a block in a block of zeros at the source of a running one-block command. -/
def placeWord (k : WordKind) (w : Nat) (s : State) : State :=
  match k with
  | .ctrl => { s with hostQ := .wr 0 (BitVec.ofNat 32 w) :: s.hostQ }
  | .command =>
    { s with
      st := if s.st = .busy then .idle else s.st
      fmt := BitVec.ofNat 8 w
      is2 := w.testBit 8
      hostQ := .wr 0 1 :: s.hostQ }
  | .dxt1 => placeBlock .dxt1 (k.layout w) s
  | .dxt5Alpha => placeBlock .dxt5 (k.layout w ++ leBytes 8 0) s
  | .dxt5Colour => placeBlock .dxt5 (leBytes 8 0 ++ k.layout w) s
  | .etcColour false => placeBlock .etc1 (k.layout w) s
  | .etcColour true => placeBlock .etc2 (k.layout w) s
  | .eacAlpha => placeBlock .etc2a8 (k.layout w ++ leBytes 8 0) s
  | .etc2a1 => placeBlock .etc2a1 (k.layout w) s
  | .etc2a8 => placeBlock .etc2a8 (k.layout w) s
  | .pvrtc => placeBlock .pvrtc4 (k.layout w) s
  | .colourA => placeBlock .pvrtc4 (leBytes 4 0 ++ k.layout w ++ leBytes 2 0) s
  | .colourB => placeBlock .pvrtc4 (leBytes 6 0 ++ k.layout w) s
  | .modulation is2 mflag =>
    placeBlock (if is2 then .pvrtc2 else .pvrtc4) (k.layout w ++ leBytes 4 mflag.toNat) s

end Sys2Proof.Machine
end

