-- ==== Sys2Proof/Machine/Step.lean ====
section
/-! DEFINITION. The step, and an instruction placed where the step fetches it (log 21). -/

namespace Sys2Proof.Machine

open Sys2Proof

/-- One step of the machine. -/
def step : State → Host.Outcome State Fault Refusal := nextStep

/-- The state with an instruction of `nbits` bits where `step` fetches its next instruction. -/
def State.withFetchWord (s : State) (nbits w : Nat) : State := placeWord (tableKind nbits w) w s

end Sys2Proof.Machine
end

