-- ==== Sys2Proof/Safety.lean ====
section
/-! DEFINITION. What a safe state is, in the terms the statements use: STATUS that agrees with itself, a command that START
accepts, a running command, the invariant of every step. -/

namespace Sys2Proof.Machine

open Sys2Proof

/-- STATUS (R22, R270, R274): ERR is 0 exactly when STATE is not ERROR, and never InvalidContainer. -/
def State.statusOk (s : State) : Prop := (s.err = .none ↔ s.st ≠ .error) ∧ s.err ≠ .invalidContainer

/-- The address ranges of a command lie in the space (R104). -/
def State.rangesFit (f : Format) (s : State) : Prop :=
  s.srcBase + (s.grid f).need ≤ 2 ^ 32 ∧ s.dstBase + s.dstLen ≤ 2 ^ 32

/-- The grid of a PVRTC command is a power of two each way (R106); no demand on the other formats. -/
def State.gridFits (f : Format) (s : State) : Prop :=
  isPvrtc f = true → isPow2 (s.grid f).nbx = true ∧ isPow2 (s.grid f).nby = true

/-- The scratch holds the records of a PVRTC command (R107). -/
def State.scratchFits (f : Format) (s : State) : Prop :=
  isPvrtc f = true → (s.grid f).count ≤ s.cfg.scratchBlocks

/-- The buffers are apart and on no device (R57, R63; R310 (c), (d)). -/
def State.buffersApart (f : Format) (s : State) : Prop :=
  overlaps s.srcBase (s.grid f).need s.dstBase s.dstLen = false ∧ meetsRegion s.cfg .device (buffers f s) = false

/-- Memory answers on both buffers (R58; U13): no part of them is missing. -/
def State.backed (f : Format) (s : State) : Prop := meetsRegion s.cfg .absent (buffers f s) = false

/-- START accepts the command of format `f` that the registers hold, and it has something to do (R100). -/
structure State.Launchable (f : Format) (s : State) : Prop where
  idle : s.st ≠ .busy
  nonempty : 0 < (s.grid f).count
  ranges : s.rangesFit f
  grid : s.gridFits f
  long : (s.grid f).need ≤ s.len.toNat
  scratch : s.scratchFits f
  apart : s.buffersApart f

/-- A record that EXPAND wrote (R228, R229, R230): the sub-pixels that `wn` of R241 can reach, and in 4bpp all sixteen, hold a
weight and not a fill mark. -/
def TexelInfo.Expanded (is2 : Bool) (r : TexelInfo) : Prop :=
  match is2 with
  | false => ∀ i, i < 16 → ∃ w, r.weight i = .stored w
  | true => ∀ i, i < 32 → (i % 8 + i / 8) % 2 = 0 → ∃ w, r.weight i = .stored w

/-- How many records the command has written when the cursor stands where it does (R222). -/
def recordsWritten (g : Grid) (c : Cursor) : Nat :=
  match c.phase with
  | .expand => c.k
  | .walk => g.count

/-- A running command of format `f` (R100, R109, R222, R223, R310). -/
structure State.Running (f : Format) (s : State) : Prop where
  selects : s.format = some f
  ranges : s.rangesFit f
  grid : s.gridFits f
  long : (s.grid f).need ≤ s.len.toNat
  scratch : s.scratchFits f
  apart : s.buffersApart f
  cursor : cursorOk f s = true
  records : isPvrtc f = true → ∀ k, k < recordsWritten (s.grid f) s.pc → (texRead s.tex k).Expanded s.is2

/-- The invariant of every step. -/
structure State.Inv (s : State) : Prop where
  memory : s.mem.wf
  status : s.statusOk
  running : s.st = .busy → ∃ f, s.Running f

/-- The block-steps a running command still has to take (R315 (a)): the WALK steps from the cursor on, and before them the EXPAND
steps left. -/
def blockStepsLeft (g : Grid) (c : Cursor) : Nat :=
  match c.phase with
  | .expand => (g.count - c.k) + g.count
  | .walk => g.count - (c.t * g.nbx + c.s)

/-- The block-steps of a whole command (R315 (a)). -/
def blockSteps (f : Format) (s : State) : Nat :=
  if isPvrtc f then 2 * (s.grid f).count else (s.grid f).count

end Sys2Proof.Machine
end

