-- ==== Sys2Proof/Certificates/Slice0/Obligations.lean ====
section
/-! DEFINITION. The statements for the provers. Each says in plain numbers what a rule of spec/ gives; the helpers in
Sys2Proof.Claim are the spec's own formulas on numbers, written apart from the machine's. -/

namespace Sys2Proof.Claim

open Sys2Proof Sys2Proof.Machine

/-! ### Numbers -/

/-- Byte `k` of a block, as a number. -/
def byte (bs : List Byte) (k : Nat) : Nat := (bs.getD k 0).toNat

/-- `le` (R10) of a list of bytes. -/
def le (bs : List Byte) : Nat := bs.foldr (fun b n => b.toNat + 256 * n) 0

/-- `be` (R10) of a list of bytes. -/
def be (bs : List Byte) : Nat := bs.foldl (fun n b => 256 * n + b.toNat) 0

/-- `rep_4` (R13). -/
def rep4 (v : Nat) : Nat := 17 * v

/-- `rep_5` (R13). -/
def rep5 (v : Nat) : Nat := 8 * v + v / 4

/-- `rep_6` (R13). -/
def rep6 (v : Nat) : Nat := 4 * v + v / 16

/-- `rep_7` (R13). -/
def rep7 (v : Nat) : Nat := 2 * v + v / 64

/-- `clamp255` (R11). -/
def clamp (v : Int) : Int := max 0 (min 255 v)

/-- `sext_3` (R12). -/
def signed3 (v : Nat) : Int := if v < 4 then (v : Int) else (v : Int) - 8

/-- Digit `i` of a number in base `b`. -/
def digit (b v i : Nat) : Nat := v / b ^ i % b

/-- The four channels of a pixel. -/
def PixelIs (p : Pixel) (r g b a : Int) : Prop :=
  (p.r.toNat : Int) = r ∧ (p.g.toNat : Int) = g ∧ (p.b.toNat : Int) = b ∧ (p.a.toNat : Int) = a

/-- The three channels of a colour. -/
def RgbIs (c : Rgb) (r g b : Int) : Prop :=
  (c.r.toNat : Int) = r ∧ (c.g.toNat : Int) = g ∧ (c.b.toNat : Int) = b

/-! ### Frames -/

/-- Every register, the cursor, the configuration, the host's data, every byte of memory and the model's notes on races are
unchanged. -/
structure Keeps (s t : State) : Prop where
  registers : ∀ i, readReg t i = readReg s i
  cursor : t.pc = s.pc
  config : t.cfg = s.cfg
  queue : t.hostQ = s.hostQ
  answer : t.rdata = s.rdata
  memory : ∀ a, t.mem.read a = s.mem.read a
  races : t.hostStores = s.hostStores ∧ t.atStart = s.atStart ∧ t.choices = s.choices

/-- Tile entries 16 to 31 are unchanged. -/
def KeepsUpperTile (s t : State) : Prop := ∀ n, 16 ≤ n → n < 32 → tileAt t.tile n = tileAt s.tile n

/-- The colours of the tile are unchanged, entries 16 to 31 included (that those stay is the model's choice, log 28). -/
def KeepsColours (s t : State) : Prop :=
  ∀ n, n < 32 → (tileAt t.tile n).r = (tileAt s.tile n).r ∧ (tileAt t.tile n).g = (tileAt s.tile n).g ∧
    (tileAt t.tile n).b = (tileAt s.tile n).b

/-- The state with an error raised (R275). -/
def raised (e : ErrCode) (s : State) : State := { s with st := .error, err := e }

/-- No region that is not ordinary memory holds the address (R58; log 2). -/
def Ordinary (s : State) (a : Nat) : Prop := ∀ r ∈ s.cfg.memMap, ¬(r.base ≤ a ∧ a < r.base + r.size)

/-- The host may touch the byte (R61): the unit is not BUSY, or the byte is in neither buffer. -/
def Untouched (s : State) (a : Nat) : Prop :=
  s.st = .busy → s.inOutput a = false ∧ ∀ f, s.format = some f → s.inSource f a = false

/-- A value a raced byte can be seen to have (R62, U1; log 13): the new one, in memory, one the host stored during the command, or
the old one, at START. -/
def OldOrNew (s : State) (a : Nat) (v : Byte) : Prop :=
  v = s.mem.read a ∨ (a, v) ∈ s.hostStores ∨ v = s.atStart.read a

/-- The state of a command just accepted (R100); what memory holds is noted, and no race is under way (log 13). -/
def accepted (f : Format) (s : State) : State :=
  { s with
    st := .busy
    err := .none
    pc := { phase := match f with
                     | .pvrtc4 => .expand
                     | .pvrtc2 => .expand
                     | _ => .walk
            s := 0, t := 0, k := 0 }
    hostStores := []
    atStart := s.mem }

/-- The next step of `s` is the unit's own, from `u`: no access is pending, or a `wait` is taken off the queue, or a POLL reads BUSY
and stays (log 9, log 22). -/
def UnitMoves (s u : State) : Prop :=
  (s.hostQ = [] ∧ u = s) ∨ (∃ q, s.hostQ = .wait :: q ∧ u = { s with hostQ := q }) ∨
    (∃ q, s.hostQ = .poll :: q ∧ s.st = .busy ∧ u = { s with rdata := readReg s 1 })

/-- The instructions whose command is of format `f` (R71). -/
def CommandOf (f : Format) (i : Instr) : Prop :=
  match f with
  | .dxt1 => ∃ is2, i = .decodeDxt1 is2
  | .dxt5 => ∃ is2, i = .decodeDxt5 is2
  | .etc1 => ∃ is2, i = .decodeEtc1 is2
  | .etc2 => ∃ is2, i = .decodeEtc2 is2
  | .etc2a1 => ∃ is2, i = .decodeEtc2a1 is2
  | .etc2a8 => ∃ is2, i = .decodeEtc2a8 is2
  | .pvrtc4 => i = .decodePvrtc4
  | .pvrtc2 => i = .decodePvrtc2

/-! ### DXT formulas -/

/-- The red channel of a 5-6-5 colour, expanded (R141). -/
def red565 (q : Nat) : Nat := rep5 (q / 2048 % 32)

/-- The green channel. -/
def green565 (q : Nat) : Nat := rep6 (q / 32 % 64)

/-- The blue channel. -/
def blue565 (q : Nat) : Nat := rep5 (q % 32)

/-- One channel of the four-colour palette (R142, R144). -/
def four (x0 x1 : Nat) (k : Nat) : Nat :=
  if k = 0 then x0 else if k = 1 then x1 else if k = 2 then (2 * x0 + x1) / 3 else (x0 + 2 * x1) / 3

/-- One channel of the three-colour palette (R142, R145). -/
def three (x0 x1 : Nat) (k : Nat) : Nat :=
  if k = 0 then x0 else if k = 1 then x1 else if k = 2 then (x0 + x1) / 2 else 0

/-- A pixel has the colour of entry `k` of the four-colour palette. -/
def FourColour (q0 q1 : Nat) (k : Nat) (p : Pixel) : Prop :=
  p.r.toNat = four (red565 q0) (red565 q1) k ∧ p.g.toNat = four (green565 q0) (green565 q1) k ∧
    p.b.toNat = four (blue565 q0) (blue565 q1) k

/-- A pixel has the colour of entry `k` of the three-colour palette. -/
def ThreeColour (q0 q1 : Nat) (k : Nat) (p : Pixel) : Prop :=
  p.r.toNat = three (red565 q0) (red565 q1) k ∧ p.g.toNat = three (green565 q0) (green565 q1) k ∧
    p.b.toNat = three (blue565 q0) (blue565 q1) k

/-- The alpha ramp with divisor 7 (R150, R151). -/
def alphaRamp7 (a0 a1 k : Nat) : Nat :=
  if k = 0 then a0 else if k = 1 then a1 else ((8 - k) * a0 + (k - 1) * a1) / 7

/-- The alpha ramp with divisor 5 and the two constants (R150, R152). -/
def alphaRamp5 (a0 a1 k : Nat) : Nat :=
  if k = 0 then a0 else if k = 1 then a1
  else if k = 6 then 0 else if k = 7 then 255
  else ((6 - k) * a0 + (k - 1) * a1) / 5

/-! ### ETC formulas -/

/-- The raster index of pixel `p` (R175). -/
def raster (p : Nat) : Nat := 4 * (p % 4) + p / 4

/-- The code of pixel `p` (R176). -/
def code (m l p : Nat) : Nat := 2 * digit 2 m p + digit 2 l p

/-- The sub-block of pixel `p` (R177). -/
def sub (flip p : Nat) : Nat := if flip = 0 then p / 8 else p % 4 / 2

/-- The offset of a code (R178) for a pair `(small, large)`. -/
def offset (pair : Nat × Nat) (c : Nat) : Int :=
  if c = 0 then pair.1 else if c = 1 then pair.2 else if c = 2 then -(pair.1 : Int) else -(pair.2 : Int)

/-- A byte `R dR` of a Differential block is out of range (R172, R185). -/
def OutOfRange (b : Nat) : Prop := (b / 8 : Nat) + signed3 (b % 8) < 0 ∨ 31 < (b / 8 : Nat) + signed3 (b % 8)

/-- The planar blend of one channel (R184). -/
def planar (o h v x y : Int) : Int := clamp ((x * (h - o) + y * (v - o) + 4 * o + 2) / 4)

/-! ### PVRTC formulas -/

/-- `STD` and `PT` (R227) of a configuration, by the code of a sub-pixel. -/
def tableWeight (table : Vector (Fin 9) 4) (m i : Nat) : Weight :=
  .stored (table[digit 4 m i]'(Nat.mod_lt _ (by decide)))

/-- A one-bit weight (R229). -/
def oneBit (b : Nat) : Weight := if b = 1 then .stored 8 else .stored 0

/-- The position of the `k`-th stored code of a 2bpp block with `mflag = 1` (R80, R230), as a raster index. -/
def storedAt (k : Nat) : Nat := 8 * (k / 4) + 2 * (k % 4) + k / 4 % 2

/-- The 9-tap sum of R236 over one channel of the neighbourhood, with the column table given. -/
def taps (col row : Nat → Nat) (n : Nat → Nat → Nat) : Nat :=
  row 0 * (col 0 * n 0 0 + col 1 * n 0 1 + col 2 * n 0 2) + row 1 * (col 0 * n 1 0 + col 1 * n 1 1 + col 2 * n 1 2) +
    row 2 * (col 0 * n 2 0 + col 1 * n 2 1 + col 2 * n 2 2)

/-- `W4[p]` (R235) as a function of the neighbour index. -/
def w4 (p a : Nat) : Nat :=
  match p, a with
  | 0, 0 => 2 | 0, 1 => 2
  | 1, 0 => 1 | 1, 1 => 3
  | 2, 1 => 4
  | 3, 1 => 3 | 3, 2 => 1
  | _, _ => 0

/-- `W8[p]` (R235) as a function of the neighbour index. -/
def w8 (p a : Nat) : Nat :=
  if a = 0 then 4 - p else if a = 1 then (if p ≤ 4 then 4 + p else 12 - p) else p - 4

/-- The scaled sum of a colour channel (R237, R238). -/
def scaled (is2 : Bool) (v : Nat) : Nat := if is2 then v / 4 + v / 128 else v / 2 + v / 64

/-- The scaled sum of alpha (R237, R238). -/
def scaledAlpha (is2 : Bool) (v : Nat) : Nat := if is2 then v / 2 + v / 32 else v + v / 16

/-- The blend (R242). -/
def mix (ea eb w : Nat) : Nat := (ea * (8 - w) + eb * w) / 8

/-- One blended channel of sub-pixel `(x, y)` (R236 to R238, R242) from the channel's values in the nine records. -/
def channel (is2 : Bool) (scale : Nat → Nat) (a b : Nat → Nat → Nat) (x y w : Nat) : Nat :=
  let col := if is2 then w8 x else w4 x
  mix (scale (taps col (w4 y) a)) (scale (taps col (w4 y) b)) w

end Sys2Proof.Claim

open Sys2Proof Sys2Proof.Machine Sys2Proof.Claim

/-! ### Encodings (30_encoding, 43_etc mode selection) -/

/-- Decoding the encoding of a well-formed instruction gives it back, every operand at every value (R86). The encoder's choice of
the ignored bits of T, H and Planar blocks is the model's (log 30). -/
def Obligations.DecodeOfEncode : Prop :=
  ∀ i : Instr, i.wf = true → decode i.kind (encode i) = .ok i

/-- What the decoder answers is well-formed, and it refuses only a wrong length and a CTRL value without a strobe (R21, R72,
R84). That a CTRL value or a command word is four bytes, least significant first, is the model's (log 26). -/
def Obligations.DecoderTotalAndSound : Prop :=
  ∀ (k : WordKind) (bs : List Byte),
    (∀ i, decode k bs = .ok i → i.wf = true) ∧
    (bs.length ≠ k.bytes → decode k bs = .error .wrongLength) ∧
    (bs.length = k.bytes → k ≠ .ctrl → ∃ i, decode k bs = .ok i) ∧
    (bs.length = 4 → k = .ctrl → byte bs 0 % 4 = 0 → decode k bs = .error .noStrobe) ∧
    (bs.length = 4 → k = .ctrl → byte bs 0 % 4 ≠ 0 → ∃ i, decode k bs = .ok i)

/-- Words written out from the spec's encodings decode to what they stand for (R21, R71, R74, R75, R77, R79, R80). The four CTRL
and command words are laid out as bytes in the model's order (log 26). -/
def Obligations.ExampleWords : Prop :=
  decode .ctrl [0x03, 0, 0, 0] = .ok (.start true) ∧
  decode .ctrl [0xFE, 0xFF, 0xFF, 0xFF] = .ok .clear ∧
  decode .command [0x01, 0x01, 0, 0] = .ok (.decodeDxt1 true) ∧
  decode .command [0x07, 0x01, 0, 0] = .ok .decodePvrtc2 ∧
  decode .dxt1 [0x00, 0xF8, 0x1F, 0x00, 0xE4, 0x4E, 0x00, 0xFF] =
    .ok (.dxt1Four { q0 := 0xF800, q1 := 0x001F, idx := 0xFF004EE4 }) ∧
  decode .dxt5Alpha [0xFF, 0x00, 0x88, 0xC6, 0xFA, 0x88, 0xC6, 0xFA] =
    .ok (.dxt5Alpha7 { a0 := 255, a1 := 0, idx := 0xFAC688FAC688 }) ∧
  decode (.etcColour false) [0x12, 0x34, 0x56, 0x00, 0x00, 0x00, 0x00, 0x00] =
    .ok (.etcIndividual
      { r1 := 1, r2 := 2, g1 := 3, g2 := 4, b1 := 5, b2 := 6, tw0 := 0, tw1 := 0, flip := 0, m := 0, l := 0 }) ∧
  decode (.etcColour true) [0x81, 0x81, 0x81, 0x02, 0x00, 0x00, 0x00, 0x00] =
    .ok (.etcDifferential
      { r := 16, dr := 1, g := 16, dg := 1, b := 16, db := 1, tw0 := 0, tw1 := 0, flip := 0, m := 0, l := 0 }) ∧
  decode .eacAlpha [0x80, 0x13, 0, 0, 0, 0, 0, 0x07] = .ok (.eacAlpha { base := 128, mult := 1, tsel := 3, idx := 7 }) ∧
  decode .colourA [0x34, 0x12] = .ok (.pvrtcColaTranslucent 1 2 3 2 0) ∧
  decode .colourB [0xE0, 0x83] = .ok (.pvrtcColbOpaque 0 31 0) ∧
  decode (.modulation false true) [0xE4, 0xE4, 0xE4, 0xE4] = .ok (.pvrtcMod4Punchthrough 0xE4E4E4E4)

/-- The selector table (R71, R73): the low eight bits of the word select, bit 8 is read for selector 7 alone, and the geometry of
each format is the table's. The word is read from four bytes, least significant first, which is the model's choice (log 26). -/
def Obligations.CommandWordSelects : Prop :=
  (∀ bs : List Byte, bs.length = 4 → ∃ i, decode .command bs = .ok i ∧
    (byte bs 0 = 1 → CommandOf .dxt1 i) ∧ (byte bs 0 = 2 → CommandOf .dxt5 i) ∧
    (byte bs 0 = 3 → CommandOf .etc1 i) ∧ (byte bs 0 = 4 → CommandOf .etc2 i) ∧
    (byte bs 0 = 5 → CommandOf .etc2a1 i) ∧ (byte bs 0 = 6 → CommandOf .etc2a8 i) ∧
    (byte bs 0 = 7 → byte bs 1 % 2 = 0 → CommandOf .pvrtc4 i) ∧
    (byte bs 0 = 7 → byte bs 1 % 2 = 1 → CommandOf .pvrtc2 i) ∧
    (byte bs 0 = 0 ∨ 8 ≤ byte bs 0 → ∃ is2, i = .reservedFmt (bs.getD 0 0) is2)) ∧
  (∀ f : Format, (blockWidth f, blockHeight f, blockBytes f) =
    match f with
    | .dxt1 => (4, 4, 8)
    | .dxt5 => (4, 4, 16)
    | .etc1 => (4, 4, 8)
    | .etc2 => (4, 4, 8)
    | .etc2a1 => (4, 4, 9)
    | .etc2a8 => (4, 4, 16)
    | .pvrtc4 => (4, 4, 8)
    | .pvrtc2 => (8, 4, 8))

/-- The DXT blocks byte by byte (R74, R75) and their modes (R143, R151, R152: unsigned comparison of the stored endpoints). -/
def Obligations.DxtLayout : Prop :=
  ∀ bs : List Byte, bs.length = 8 →
    (∃ b : DxtColour,
      b.q0.toNat = byte bs 0 + 256 * byte bs 1 ∧ b.q1.toNat = byte bs 2 + 256 * byte bs 3 ∧
      b.idx.toNat = byte bs 4 + 256 * byte bs 5 + 256 ^ 2 * byte bs 6 + 256 ^ 3 * byte bs 7 ∧
      decode .dxt1 bs = .ok (if b.q1.toNat < b.q0.toNat then .dxt1Four b else .dxt1Three b) ∧
      decode .dxt5Colour bs = .ok (.dxt5Color b)) ∧
    ∃ a : DxtAlpha,
      a.a0.toNat = byte bs 0 ∧ a.a1.toNat = byte bs 1 ∧ a.idx.toNat = le (bs.drop 2) ∧
      decode .dxt5Alpha bs = .ok (if a.a1.toNat < a.a0.toNat then .dxt5Alpha7 a else .dxt5Alpha5 a)

/-- The five ETC modes from the block's first four bytes (R171 to R174, R185). -/
def Obligations.EtcModeSelection : Prop :=
  ∀ (etc2 : Bool) (bs : List Byte), bs.length = 8 → ∃ i, decode (.etcColour etc2) bs = .ok i ∧
    (byte bs 3 / 2 % 2 = 0 → ∃ b, i = .etcIndividual b) ∧
    (byte bs 3 / 2 % 2 = 1 → etc2 = true → OutOfRange (byte bs 0) → ∃ b, i = .etcT b) ∧
    (byte bs 3 / 2 % 2 = 1 → etc2 = true → ¬ OutOfRange (byte bs 0) → OutOfRange (byte bs 1) → ∃ b, i = .etcH b) ∧
    (byte bs 3 / 2 % 2 = 1 → etc2 = true → ¬ OutOfRange (byte bs 0) → ¬ OutOfRange (byte bs 1) → OutOfRange (byte bs 2) →
      ∃ b, i = .etcPlanar b) ∧
    (byte bs 3 / 2 % 2 = 1 →
      (etc2 = false ∨ (¬ OutOfRange (byte bs 0) ∧ ¬ OutOfRange (byte bs 1) ∧ ¬ OutOfRange (byte bs 2))) →
      ∃ b, i = .etcDifferential b)

/-- The fields of the five ETC blocks and the planes of the pixel codes (R76, R77, R81, R82, R83). -/
def Obligations.EtcLayout : Prop :=
  ∀ (etc2 : Bool) (bs : List Byte), bs.length = 8 →
    (∀ b, decode (.etcColour etc2) bs = .ok (.etcIndividual b) →
      b.r1.toNat = byte bs 0 / 16 ∧ b.r2.toNat = byte bs 0 % 16 ∧ b.g1.toNat = byte bs 1 / 16 ∧
      b.g2.toNat = byte bs 1 % 16 ∧ b.b1.toNat = byte bs 2 / 16 ∧ b.b2.toNat = byte bs 2 % 16 ∧
      b.tw0.toNat = byte bs 3 / 32 ∧ b.tw1.toNat = byte bs 3 / 4 % 8 ∧ b.flip.toNat = byte bs 3 % 2 ∧
      b.m.toNat = 256 * byte bs 4 + byte bs 5 ∧ b.l.toNat = 256 * byte bs 6 + byte bs 7) ∧
    (∀ b, decode (.etcColour etc2) bs = .ok (.etcDifferential b) →
      b.r.toNat = byte bs 0 / 8 ∧ b.dr.toNat = byte bs 0 % 8 ∧ b.g.toNat = byte bs 1 / 8 ∧
      b.dg.toNat = byte bs 1 % 8 ∧ b.b.toNat = byte bs 2 / 8 ∧ b.db.toNat = byte bs 2 % 8 ∧
      b.tw0.toNat = byte bs 3 / 32 ∧ b.tw1.toNat = byte bs 3 / 4 % 8 ∧ b.flip.toNat = byte bs 3 % 2 ∧
      b.m.toNat = 256 * byte bs 4 + byte bs 5 ∧ b.l.toNat = 256 * byte bs 6 + byte bs 7) ∧
    (∀ b, decode (.etcColour true) bs = .ok (.etcT b) →
      b.r1.toNat = 4 * (byte bs 0 / 8 % 4) + byte bs 0 % 4 ∧ b.g1.toNat = byte bs 1 / 16 ∧
      b.b1.toNat = byte bs 1 % 16 ∧ b.r2.toNat = byte bs 2 / 16 ∧ b.g2.toNat = byte bs 2 % 16 ∧
      b.b2.toNat = byte bs 3 / 16 ∧ b.di.toNat = 2 * (byte bs 3 / 4 % 4) + byte bs 3 % 2 ∧
      b.m.toNat = 256 * byte bs 4 + byte bs 5 ∧ b.l.toNat = 256 * byte bs 6 + byte bs 7) ∧
    (∀ b, decode (.etcColour true) bs = .ok (.etcH b) →
      b.r1.toNat = byte bs 0 / 8 % 16 ∧ b.g1.toNat = 2 * (byte bs 0 % 8) + byte bs 1 / 16 % 2 ∧
      b.b1.toNat = 8 * (byte bs 1 / 8 % 2) + 2 * (byte bs 1 % 4) + byte bs 2 / 128 ∧
      b.r2.toNat = byte bs 2 / 8 % 16 ∧ b.g2.toNat = 2 * (byte bs 2 % 8) + byte bs 3 / 128 ∧
      b.b2.toNat = byte bs 3 / 8 % 16 ∧ b.da.toNat = byte bs 3 / 4 % 2 ∧ b.db.toNat = byte bs 3 % 2 ∧
      b.m.toNat = 256 * byte bs 4 + byte bs 5 ∧ b.l.toNat = 256 * byte bs 6 + byte bs 7) ∧
    (∀ b, decode (.etcColour true) bs = .ok (.etcPlanar b) →
      b.ro.toNat = be bs / 2 ^ 57 % 64 ∧ b.go.toNat = 64 * (be bs / 2 ^ 56 % 2) + be bs / 2 ^ 49 % 64 ∧
      b.bo.toNat = 32 * (be bs / 2 ^ 48 % 2) + 8 * (be bs / 2 ^ 43 % 4) + be bs / 2 ^ 39 % 8 ∧
      b.rh.toNat = 2 * (be bs / 2 ^ 34 % 32) + be bs / 2 ^ 32 % 2 ∧ b.gh.toNat = be bs / 2 ^ 25 % 128 ∧
      b.bh.toNat = be bs / 2 ^ 19 % 64 ∧ b.rv.toNat = be bs / 2 ^ 13 % 64 ∧ b.gv.toNat = be bs / 2 ^ 6 % 128 ∧
      b.bv.toNat = be bs % 64)

/-- The alpha block and the two combined ETC2 blocks (R78, R79). -/
def Obligations.AlphaBlockLayout : Prop :=
  (∀ bs : List Byte, bs.length = 8 → ∃ b : EacAlpha, decode .eacAlpha bs = .ok (.eacAlpha b) ∧
    b.base.toNat = byte bs 0 ∧ b.mult.toNat = byte bs 1 / 16 ∧ b.tsel.toNat = byte bs 1 % 16 ∧
    b.idx.toNat = be (bs.drop 2)) ∧
  (∀ bs : List Byte, bs.length = 9 → ∃ alpha colour, decode .etc2a1 bs = .ok (.etc2a1Block alpha colour) ∧
    alpha.toNat = byte bs 0 ∧ colour.toNat = be (bs.drop 1)) ∧
  (∀ bs : List Byte, bs.length = 16 → ∃ alpha colour, decode .etc2a8 bs = .ok (.etc2a8Block alpha colour) ∧
    alpha.toNat = be (bs.take 8) ∧ colour.toNat = be (bs.drop 8))

/-- The PVRTC block and its words (R80, R227). -/
def Obligations.PvrtcLayout : Prop :=
  (∀ bs : List Byte, bs.length = 8 → ∃ ca cb m, decode .pvrtc bs = .ok (.pvrtcBlock ca cb m) ∧
    m.toNat = le (bs.take 4) ∧ ca.toNat = byte bs 4 + 256 * byte bs 5 ∧ cb.toNat = byte bs 6 + 256 * byte bs 7) ∧
  (∀ bs : List Byte, bs.length = 2 → 32768 ≤ le bs → ∃ r g b mflag,
    decode .colourA bs = .ok (.pvrtcColaOpaque r g b mflag) ∧
    r.toNat = le bs / 1024 % 32 ∧ g.toNat = le bs / 32 % 32 ∧ b.toNat = le bs / 2 % 16 ∧ mflag.toNat = le bs % 2) ∧
  (∀ bs : List Byte, bs.length = 2 → le bs < 32768 → ∃ a r g b mflag,
    decode .colourA bs = .ok (.pvrtcColaTranslucent a r g b mflag) ∧
    a.toNat = le bs / 4096 % 8 ∧ r.toNat = le bs / 256 % 16 ∧ g.toNat = le bs / 16 % 16 ∧ b.toNat = le bs / 2 % 8 ∧
    mflag.toNat = le bs % 2) ∧
  (∀ bs : List Byte, bs.length = 2 → 32768 ≤ le bs → ∃ r g b, decode .colourB bs = .ok (.pvrtcColbOpaque r g b) ∧
    r.toNat = le bs / 1024 % 32 ∧ g.toNat = le bs / 32 % 32 ∧ b.toNat = le bs % 32) ∧
  (∀ bs : List Byte, bs.length = 2 → le bs < 32768 → ∃ a r g b,
    decode .colourB bs = .ok (.pvrtcColbTranslucent a r g b) ∧
    a.toNat = le bs / 4096 % 8 ∧ r.toNat = le bs / 256 % 16 ∧ g.toNat = le bs / 16 % 16 ∧ b.toNat = le bs % 16) ∧
  (∀ (is2 mflag : Bool) (bs : List Byte), bs.length = 4 → ∃ m : BitVec 32, m.toNat = le bs ∧
    decode (.modulation is2 mflag) bs = .ok (match is2, mflag with
      | false, false => .pvrtcMod4Standard m
      | false, true => .pvrtcMod4Punchthrough m
      | true, false => .pvrtcMod2Direct m
      | true, true => .pvrtcMod2Interpolated m))

/-! ### Reset, registers, strobes (10_state, 40_commands, 60_exceptions, 70_reset_and_hazards) -/

/-- Reset (R36, R300, R301): every register reads 0 in the state after reset, and a reset asserted in any state, BUSY included,
makes every register read 0, and leaves every byte of memory but those of the output range of a running command, of which nothing
is said: they have any value (U16; log 23). That the host's queue stays is the model's choice (log 29). -/
def Obligations.ResetRegisters : Prop :=
  (∀ i, readReg State.reset i = 0) ∧ State.reset.st = .idle ∧ State.reset.err = .none ∧
  ∀ (s : State) (q : List HostOp), s.hostQ = .reset :: q → ∃ t, step s = .next t ∧
    (∀ i, readReg t i = 0) ∧ t.st = .idle ∧ t.err = .none ∧ t.hostQ = q ∧
    ∀ a, (s.st ≠ .busy ∨ s.inOutput a = false) → t.mem.read a = s.mem.read a

/-- A write to a register other than CTRL while the unit is not BUSY (R22 to R27): the bits that are stored, and nothing else of
the state but the host's queue. -/
def Obligations.RegisterWrites : Prop :=
  ∀ (s : State) (i : Fin 8) (v : Word) (q : List HostOp), s.hostQ = .wr i v :: q → i ≠ 0 → s.st ≠ .busy →
    ∃ t, step s = .next t ∧ t.hostQ = q ∧
      readReg t i = (if i = 1 then readReg s 1
        else if i = 2 then v &&& 0x1FF#32
        else if i = 3 ∨ i = 4 then v
        else if i = 5 then v &&& 0xFFFFFFFC#32
        else v &&& 0xFFFF#32) ∧
      (∀ j, j ≠ i → readReg t j = readReg s j) ∧
      t = { s with
        hostQ := q, fmt := t.fmt, is2 := t.is2, src := t.src, len := t.len, dst := t.dst, width := t.width, height := t.height }

/-- A register read (R21, R22, R28): CTRL reads 0, STATUS is STATE in bits 1:0 and ERR in bits 7:4, and nothing but the host's
answer and its queue changes. POLL (R85) ends by reading a STATUS that is not BUSY; while BUSY it stays pending and the unit takes
its step (log 22). -/
def Obligations.RegisterReads : Prop :=
  (∀ (s : State) (i : Fin 8) (q : List HostOp), s.hostQ = .rd i :: q →
       step s = .next { s with hostQ := q, rdata := readReg s i } ∧
       readReg s 0 = 0 ∧
       (readReg s 1).toNat =
         (match s.st with
          | .idle => 0
          | .busy => 1
          | .done => 2
          | .error => 3) +
         16 * (match s.err with
          | .none => 0
          | .inputTooShort => 1
          | .allocationFailure => 2
          | .unknownFormat => 3
          | .invalidContainer => 4
          | .badGeometry => 5)) ∧
  ∀ (s : State) (q : List HostOp), s.hostQ = .poll :: q →
    (s.st ≠ .busy → step s = .next { s with hostQ := q, rdata := readReg s 1 }) ∧
    (s.st = .busy → step s = unitStep { s with rdata := readReg s 1 })

/-- While BUSY every register write of the host is lost (R22, R28, R101): the strobes, STATUS and the arguments alike. -/
def Obligations.WritesLostWhileBusy : Prop :=
  ∀ (s : State) (i : Fin 8) (v : Word) (q : List HostOp), s.hostQ = .wr i v :: q → s.st = .busy →
    step s = .next { s with hostQ := q }

/-- No instruction and no block-step writes `x[2]` to `x[7]` (R28), nor the configuration. -/
def Obligations.ArgumentsKept : Prop :=
  (∀ (i : Instr) (s t : State), exec i s = .next t →
    (∀ j : Fin 8, 2 ≤ j.val → readReg t j = readReg s j) ∧ t.cfg = s.cfg) ∧
  ∀ s t : State, unitStep s = .next t → (∀ j : Fin 8, 2 ≤ j.val → readReg t j = readReg s j) ∧ t.cfg = s.cfg

/-- START and every DECODE instruction complete (R100, R111 to R118): from every state whose registers hold a command that passes
the checks, the unit goes BUSY with no error at the first block of the first phase, and nothing else of the spec's state changes.
That a DECODE row is the acceptance alone, for the row's format whatever FORMAT selects, is the model's reading (log 16, DEDUCED);
step runs a row only where FORMAT selects it. -/
def Obligations.LaunchCompletes : Prop :=
  ∀ (f : Format) (s : State), s.Launchable f →
    (∀ i, CommandOf f i → exec i s = .next (accepted f s)) ∧
    (s.format = some f → ∀ c, exec (.start c) s = .next (accepted f s))

/-- START runs the instruction that the word in FORMAT decodes to (R70, R71, R86); the word as bytes is log 26. -/
def Obligations.StartRunsSelectedCommand : Prop :=
  ∀ (s : State) (i : Instr) (c : Bool), decode .command (leBytes 4 (readReg s 2).toNat) = .ok i →
    exec (.start c) s = exec i s

/-- START raises the first cause in the order of R277, and raising writes STATE and ERR and nothing else (R275, R104 to R107,
R273). -/
def Obligations.StartErrorPriority : Prop :=
  ∀ (s : State) (c : Bool), s.st ≠ .busy →
    (s.format = none → exec (.start c) s = .next (raised .unknownFormat s)) ∧
    ∀ f, s.format = some f →
      (¬ s.rangesFit f → exec (.start c) s = .next (raised .badGeometry s)) ∧
      (s.rangesFit f → 0 < (s.grid f).count → ¬ s.gridFits f → exec (.start c) s = .next (raised .badGeometry s)) ∧
      (s.rangesFit f → s.gridFits f → s.len.toNat < (s.grid f).need →
        exec (.start c) s = .next (raised .inputTooShort s)) ∧
      (s.rangesFit f → s.gridFits f → (s.grid f).need ≤ s.len.toNat → ¬ s.scratchFits f →
        exec (.start c) s = .next (raised .allocationFailure s))

/-- START with a zero dimension (R108): DONE at once, no error, nothing else changed. -/
def Obligations.EmptyGridDone : Prop :=
  ∀ (s : State) (f : Format) (c : Bool), s.st ≠ .busy → s.format = some f → (s.width = 0 ∨ s.height = 0) →
    exec (.start c) s = .next { s with st := .done, err := .none }

/-- A reserved selector raises UnknownFormat (R73, R273): its own effect, in every state that is not BUSY, and START's when FORMAT
holds 0 or 8 to 255, whatever the other registers hold. -/
def Obligations.ReservedSelectorRaises : Prop :=
  (∀ (fmt : BitVec 8) (is2 : Bool) (s : State), s.st ≠ .busy →
    exec (.reservedFmt fmt is2) s = .next (raised .unknownFormat s)) ∧
  ∀ (s : State) (c : Bool), s.st ≠ .busy → (s.fmt.toNat = 0 ∨ 8 ≤ s.fmt.toNat) →
    exec (.start c) s = .next (raised .unknownFormat s)

/-- CLEAR (R102, R276): IDLE and no error while the unit is not BUSY, nothing while it is; it is the host's write to CTRL with
bit 1 set and bit 0 clear. -/
def Obligations.ClearEffect : Prop :=
  (∀ s : State, (s.st ≠ .busy → exec .clear s = .next { s with st := .idle, err := .none }) ∧
    (s.st = .busy → exec .clear s = .next s)) ∧
  ∀ (s : State) (v : Word) (q : List HostOp), s.hostQ = .wr 0 v :: q → v.toNat % 4 = 2 → s.st ≠ .busy →
    step s = .next { s with hostQ := q, st := .idle, err := .none }

/-- The launches the spec tells a model to refuse (R57, R63): buffers on a device region, overlapping buffers. That the refusal
comes at START is the model's choice (log 11, log 12). -/
def Obligations.LaunchRefusals : Prop :=
  ∀ (s : State) (f : Format) (c : Bool), s.st ≠ .busy → s.format = some f → 0 < (s.grid f).count → s.rangesFit f →
    s.gridFits f → (s.grid f).need ≤ s.len.toNat → s.scratchFits f →
    (meetsRegion s.cfg .device (buffers f s) = true → exec (.start c) s = .refused .deviceRegion) ∧
    (meetsRegion s.cfg .device (buffers f s) = false →
      (∃ a, s.inSource f a = true ∧ s.inOutput a = true) → exec (.start c) s = .refused .bufferOverlap)

/-- The host's loads and stores of memory. Where the platform has ordinary memory: a byte in no buffer of a running command is
stored and loaded as it is (R60 (a), (b), R305). While BUSY an access to a buffer is a race with either value (R61, R62, U1; that
the model takes the race and not the refusal, and its form, are log 13 and log 31): a store to the source is noted and the unit
may read the old value; a store to the output stays or is gone; a load from the output gives the old value or the new one. What
the unit reads of a byte the host stored nothing to is memory's. An access elsewhere is refused (log 2). -/
def Obligations.HostAccesses : Prop :=
  (∀ (s : State) (a : Word) (b : Byte) (q : List HostOp), s.hostQ = .store a b :: q →
    (Ordinary s a.toNat →
      (Untouched s a.toNat → step s = .next { s with hostQ := q, mem := s.mem.write a.toNat b }) ∧
      (∀ f, s.st = .busy → s.format = some f → s.inSource f a.toNat = true → s.inOutput a.toNat = false →
        step s = .next { s with
          hostQ := q, mem := s.mem.write a.toNat b, hostStores := (a.toNat, b) :: s.hostStores }) ∧
      (s.st = .busy → s.inOutput a.toNat = true → ∃ m, (m = s.mem ∨ m = s.mem.write a.toNat b) ∧
        step s = .next { s with
          hostQ := q, mem := m, hostStores := (a.toNat, b) :: s.hostStores, choices := s.choices + 1 })) ∧
    (¬ Ordinary s a.toNat → step s = .refused .hostOutsideMemory)) ∧
  (∀ (s : State) (a : Word) (q : List HostOp), s.hostQ = .load a :: q →
    (Ordinary s a.toNat →
      ((s.st = .busy → s.inOutput a.toNat = false) →
        step s = .next { s with hostQ := q, rdata := (s.mem.read a.toNat).setWidth 32 }) ∧
      (s.st = .busy → s.inOutput a.toNat = true → ∃ v, OldOrNew s a.toNat v ∧
        step s = .next { s with hostQ := q, rdata := v.setWidth 32, choices := s.choices + 1 })) ∧
    (¬ Ordinary s a.toNat → step s = .refused .hostOutsideMemory)) ∧
  ∀ (s : State) (a n j : Nat), j < n →
    (s.fetchBytes a n).length = n ∧ OldOrNew s (a + j) ((s.fetchBytes a n).getD j 0) ∧
    ((∀ c ∈ s.hostStores, c.1 ≠ a + j) → (s.fetchBytes a n).getD j 0 = s.mem.read (a + j))

/-! ### The DXT engine (42_dxt) -/

/-- DXT1.FOUR completes in every state (R141, R142, R144, R146): the palette registers and the sixteen opaque pixels. The alpha 255
of entries 2 and 3 is what R144 derives ("every DXT1 pixel is opaque"). -/
def Obligations.Dxt1FourResult : Prop :=
  ∀ (b : DxtColour) (s : State), ∃ t, exec (.dxt1Four b) s = .next t ∧
    (∀ k : Fin 4, FourColour b.q0.toNat b.q1.toNat k.val (t.colPal.get k) ∧ (t.colPal.get k).a = 255) ∧
    ∀ n, n < 16 → FourColour b.q0.toNat b.q1.toNat (digit 4 b.idx.toNat n) (tileAt t.tile n) ∧ (tileAt t.tile n).a = 255

/-- DXT1.THREE completes in every state (R141, R142, R145, R146): entry 3 is opaque black. -/
def Obligations.Dxt1ThreeResult : Prop :=
  ∀ (b : DxtColour) (s : State), ∃ t, exec (.dxt1Three b) s = .next t ∧
    (∀ k : Fin 4, ThreeColour b.q0.toNat b.q1.toNat k.val (t.colPal.get k) ∧ (t.colPal.get k).a = 255) ∧
    ∀ n, n < 16 → ThreeColour b.q0.toNat b.q1.toNat (digit 4 b.idx.toNat n) (tileAt t.tile n) ∧ (tileAt t.tile n).a = 255

/-- The corrected solid-block law and the opacity of DXT1 (R148): every pixel has alpha 255; with equal endpoints a pixel has the
endpoint's colour exactly when its index is not 3 or the endpoint is 0. -/
def Obligations.Dxt1Laws : Prop :=
  ∀ (bs : List Byte) (s : State), bs.length = 8 → ∃ i t, decode .dxt1 bs = .ok i ∧ exec i s = .next t ∧
    (∀ n, n < 16 → (tileAt t.tile n).a = 255) ∧
    (byte bs 0 = byte bs 2 → byte bs 1 = byte bs 3 → ∀ n, n < 16 →
      (PixelIs (tileAt t.tile n) (red565 (byte bs 0 + 256 * byte bs 1)) (green565 (byte bs 0 + 256 * byte bs 1))
          (blue565 (byte bs 0 + 256 * byte bs 1)) 255 ↔
        digit 4 (le (bs.drop 4)) n ≠ 3 ∨ (byte bs 0 = 0 ∧ byte bs 1 = 0)) ∧
      (digit 4 (le (bs.drop 4)) n = 3 → PixelIs (tileAt t.tile n) 0 0 0 255))

/-- DXT5.ALPHA7 completes in every state (R150, R151, R154): the ramp, and the alpha of each pixel by its 3-bit index; the colours
of the tile stay (in entries 16 to 31 by the model's choice, log 28). -/
def Obligations.Dxt5Alpha7Result : Prop :=
  ∀ (a : DxtAlpha) (s : State), ∃ t, exec (.dxt5Alpha7 a) s = .next t ∧
    (∀ k : Fin 8, (t.alphaPal.get k).toNat = alphaRamp7 a.a0.toNat a.a1.toNat k.val) ∧
    (∀ n, n < 16 → (tileAt t.tile n).a.toNat = alphaRamp7 a.a0.toNat a.a1.toNat (digit 8 a.idx.toNat n)) ∧ KeepsColours s t

/-- DXT5.ALPHA5 completes in every state (R150, R152, R154): four interpolated entries, then 0 and 255; the colours of the tile
stay (in entries 16 to 31 by the model's choice, log 28). -/
def Obligations.Dxt5Alpha5Result : Prop :=
  ∀ (a : DxtAlpha) (s : State), ∃ t, exec (.dxt5Alpha5 a) s = .next t ∧
    (∀ k : Fin 8, (t.alphaPal.get k).toNat = alphaRamp5 a.a0.toNat a.a1.toNat k.val) ∧
    (∀ n, n < 16 → (tileAt t.tile n).a.toNat = alphaRamp5 a.a0.toNat a.a1.toNat (digit 8 a.idx.toNat n)) ∧ KeepsColours s t

/-- DXT5.COLOR completes in every state, for both values of DXT5_COLOR_MODE (R153, R154); the alpha of the tile stays. -/
def Obligations.Dxt5ColorResult : Prop :=
  ∀ (b : DxtColour) (s : State), ∃ t, exec (.dxt5Color b) s = .next t ∧
    (∀ k : Fin 4,
      ((s.cfg.dxt5ColorMode = .alwaysFour ∨ b.q1.toNat < b.q0.toNat) →
        FourColour b.q0.toNat b.q1.toNat k.val (t.colPal.get k)) ∧
      (s.cfg.dxt5ColorMode = .asDxt1 → b.q0.toNat ≤ b.q1.toNat →
        ThreeColour b.q0.toNat b.q1.toNat k.val (t.colPal.get k))) ∧
    (∀ n, n < 16 →
      (tileAt t.tile n).a = (tileAt s.tile n).a ∧
      ((s.cfg.dxt5ColorMode = .alwaysFour ∨ b.q1.toNat < b.q0.toNat) →
        FourColour b.q0.toNat b.q1.toNat (digit 4 b.idx.toNat n) (tileAt t.tile n)) ∧
      (s.cfg.dxt5ColorMode = .asDxt1 → b.q0.toNat ≤ b.q1.toNat →
        ThreeColour b.q0.toNat b.q1.toNat (digit 4 b.idx.toNat n) (tileAt t.tile n)))

/-- What the DXT rows leave unchanged (R109, R140, R149): everything but the tile entries 0 to 15 and their own palette. That a
palette register and tile entries 16 to 31 are kept is the model's choice (log 5, log 28). -/
def Obligations.DxtFrame : Prop :=
  ∀ (b : DxtColour) (a : DxtAlpha) (s t : State),
    ((exec (.dxt1Four b) s = .next t ∨ exec (.dxt1Three b) s = .next t ∨ exec (.dxt5Color b) s = .next t) →
      Keeps s t ∧ KeepsUpperTile s t ∧ t.alphaPal = s.alphaPal ∧ t.etcBase = s.etcBase ∧ t.etcPaint = s.etcPaint ∧
        t.tex = s.tex) ∧
    ((exec (.dxt5Alpha7 a) s = .next t ∨ exec (.dxt5Alpha5 a) s = .next t) →
      Keeps s t ∧ KeepsUpperTile s t ∧ t.colPal = s.colPal ∧ t.etcBase = s.etcBase ∧ t.etcPaint = s.etcPaint ∧
        t.tex = s.tex)

/-! ### The ETC engine (43_etc) -/

/-- ETC.INDIVIDUAL completes in every state, for every table (R175 to R180); the default table is R178's. -/
def Obligations.EtcIndividualResult : Prop :=
  defaultConfig.etcModifier.toList = [(2, 8), (5, 17), (9, 29), (13, 42), (18, 60), (24, 80), (33, 106), (47, 183)] ∧
  ∀ (b : EtcIndividual) (s : State), ∃ t, exec (.etcIndividual b) s = .next t ∧
    RgbIs (t.etcBase.get 0) (rep4 b.r1.toNat : Nat) (rep4 b.g1.toNat : Nat) (rep4 b.b1.toNat : Nat) ∧
    RgbIs (t.etcBase.get 1) (rep4 b.r2.toNat : Nat) (rep4 b.g2.toNat : Nat) (rep4 b.b2.toNat : Nat) ∧ ∀ p, p < 16 →
    let second := sub b.flip.toNat p = 1
    let m := offset (s.cfg.etcModifier.get (if second then b.tw1 else b.tw0).toFin) (code b.m.toNat b.l.toNat p)
    PixelIs (tileAt t.tile (raster p))
      (clamp ((rep4 (if second then b.r2 else b.r1).toNat : Nat) + m))
      (clamp ((rep4 (if second then b.g2 else b.g1).toNat : Nat) + m))
      (clamp ((rep4 (if second then b.b2 else b.b1).toNat : Nat) + m)) 255

/-- ETC.DIFFERENTIAL completes in every state, for every table (R175 to R179, R181): the second base is the sum on five bits. -/
def Obligations.EtcDifferentialResult : Prop :=
  ∀ (b : EtcDifferential) (s : State), ∃ t, exec (.etcDifferential b) s = .next t ∧
    let moved := fun (c : BitVec 5) (d : BitVec 3) => rep5 (((c.toNat : Int) + signed3 d.toNat) % 32).toNat
    RgbIs (t.etcBase.get 0) (rep5 b.r.toNat : Nat) (rep5 b.g.toNat : Nat) (rep5 b.b.toNat : Nat) ∧
    RgbIs (t.etcBase.get 1) (moved b.r b.dr : Nat) (moved b.g b.dg : Nat) (moved b.b b.db : Nat) ∧ ∀ p, p < 16 →
    let second := sub b.flip.toNat p = 1
    let m := offset (s.cfg.etcModifier.get (if second then b.tw1 else b.tw0).toFin) (code b.m.toNat b.l.toNat p)
    let base := fun (c : BitVec 5) (d : BitVec 3) => if second then moved c d else rep5 c.toNat
    PixelIs (tileAt t.tile (raster p))
      (clamp ((base b.r b.dr : Nat) + m)) (clamp ((base b.g b.dg : Nat) + m)) (clamp ((base b.b b.db : Nat) + m)) 255

/-- ETC.T completes in every state, for every distance table (R182); the default table is the rule's. -/
def Obligations.EtcTResult : Prop :=
  defaultConfig.etcDistance.toList = [3, 6, 11, 16, 23, 32, 41, 64] ∧
  ∀ (b : EtcT) (s : State), ∃ t, exec (.etcT b) s = .next t ∧
    let d : Int := ((s.cfg.etcDistance.get b.di.toFin : Nat) : Int)
    let paint := fun (c : Nat) (x y : BitVec 4) =>
      if c = 0 then ((rep4 x.toNat : Nat) : Int)
      else if c = 1 then clamp ((rep4 y.toNat : Nat) + d)
      else if c = 2 then ((rep4 y.toNat : Nat) : Int)
      else clamp ((rep4 y.toNat : Nat) - d)
    (∀ c : Fin 4, RgbIs (t.etcPaint.get c) (paint c.val b.r1 b.r2) (paint c.val b.g1 b.g2) (paint c.val b.b1 b.b2)) ∧
    ∀ p, p < 16 →
      let c := code b.m.toNat b.l.toNat p
      PixelIs (tileAt t.tile (raster p)) (paint c b.r1 b.r2) (paint c b.g1 b.g2) (paint c b.b1 b.b2) 255

/-- ETC.H completes in every state, for every distance table (R183): the lowest bit of the distance index is the lexicographic
comparison of the two colours, red first. -/
def Obligations.EtcHResult : Prop :=
  ∀ (b : EtcH) (s : State), ∃ t, exec (.etcH b) s = .next t ∧
    ∃ di : Fin 8,
      di.val = 4 * b.da.toNat + 2 * b.db.toNat +
        (if b.r2.toNat < b.r1.toNat ∨ (b.r1 = b.r2 ∧ (b.g2.toNat < b.g1.toNat ∨
            (b.g1 = b.g2 ∧ b.b2.toNat ≤ b.b1.toNat))) then 1 else 0) ∧
      let d : Int := ((s.cfg.etcDistance.get di : Nat) : Int)
      let paint := fun (c : Nat) (x y : BitVec 4) =>
        clamp ((rep4 (if c < 2 then x else y).toNat : Nat) + (if c % 2 = 0 then d else -d))
      (∀ c : Fin 4, RgbIs (t.etcPaint.get c) (paint c.val b.r1 b.r2) (paint c.val b.g1 b.g2) (paint c.val b.b1 b.b2)) ∧
      ∀ p, p < 16 →
        let c := code b.m.toNat b.l.toNat p
        PixelIs (tileAt t.tile (raster p)) (paint c b.r1 b.r2) (paint c b.g1 b.g2) (paint c b.b1 b.b2) 255

/-- ETC.PLANAR completes in every state (R184): raster order, no permutation. -/
def Obligations.EtcPlanarResult : Prop :=
  ∀ (b : EtcPlanar) (s : State), ∃ t, exec (.etcPlanar b) s = .next t ∧ ∀ x y, x < 4 → y < 4 →
    PixelIs (tileAt t.tile (4 * y + x))
      (planar (rep6 b.ro.toNat : Nat) (rep6 b.rh.toNat : Nat) (rep6 b.rv.toNat : Nat) x y)
      (planar (rep7 b.go.toNat : Nat) (rep7 b.gh.toNat : Nat) (rep7 b.gv.toNat : Nat) x y)
      (planar (rep6 b.bo.toNat : Nat) (rep6 b.bh.toNat : Nat) (rep6 b.bv.toNat : Nat) x y) 255

/-- EAC.ALPHA completes in every state, for every alpha table (R189, R79): the alpha of each pixel in its own order; the colours
stay (in tile entries 16 to 31 by the model's choice, log 28). The default table is R188's. -/
def Obligations.EacAlphaResult : Prop :=
  defaultConfig.eacModifier.toList.map Vector.toList =
    [[-3, -6, -9, -15, 2, 5, 8, 14], [-3, -7, -10, -13, 2, 6, 9, 12], [-2, -5, -8, -13, 1, 4, 7, 12],
     [-2, -4, -6, -13, 1, 3, 5, 12], [-3, -6, -8, -12, 2, 5, 7, 11], [-3, -7, -9, -11, 2, 6, 8, 10],
     [-4, -7, -8, -11, 3, 6, 7, 10], [-3, -5, -8, -11, 2, 4, 7, 10], [-2, -6, -8, -10, 1, 5, 7, 9],
     [-2, -5, -8, -10, 1, 4, 7, 9], [-2, -4, -8, -10, 1, 3, 7, 9], [-2, -5, -7, -10, 1, 4, 6, 9],
     [-3, -4, -7, -10, 2, 3, 6, 9], [-1, -2, -3, -10, 0, 1, 2, 9], [-4, -6, -8, -9, 3, 5, 7, 8],
     [-3, -5, -7, -9, 2, 4, 6, 8]] ∧
  ∀ (b : EacAlpha) (s : State), ∃ t, exec (.eacAlpha b) s = .next t ∧ KeepsColours s t ∧ ∀ p, p < 16 →
    ∃ idx : Fin 8, idx.val = b.idx.toNat / 2 ^ (45 - 3 * p) % 8 ∧
      ((tileAt t.tile (raster p)).a.toNat : Int) =
        clamp ((b.base.toNat : Int) + b.mult.toNat * (s.cfg.eacModifier.get b.tsel.toFin).get idx)

/-- ETC2A1.BLOCK and ETC2A8.BLOCK complete in every state (R186, R190): the colour half as the ETC2 block its bytes decode to, then
the alpha byte on all sixteen pixels, or the alpha block as EAC.ALPHA. That tile entries 16 to 31 and the palette registers stay as
the colour half left them is the model's choice (log 28, log 5). -/
def Obligations.Etc2AlphaBlocks : Prop :=
  (∀ (alpha : Byte) (colour : BitVec 64) (s : State), ∃ i u t,
    decode (.etcColour true) (beBytes 8 colour.toNat) = .ok i ∧ exec i s = .next u ∧
    exec (.etc2a1Block alpha colour) s = .next t ∧
    (∀ n, n < 16 → tileAt t.tile n = { tileAt u.tile n with a := alpha }) ∧ KeepsUpperTile s t ∧
    t.etcBase = u.etcBase ∧ t.etcPaint = u.etcPaint) ∧
  (∀ (alpha colour : BitVec 64) (s : State), ∃ i j u t,
    decode (.etcColour true) (beBytes 8 colour.toNat) = .ok i ∧ decode .eacAlpha (beBytes 8 alpha.toNat) = .ok j ∧
    exec i s = .next u ∧ exec j u = .next t ∧ exec (.etc2a8Block alpha colour) s = .next t)

/-- ETC1 and ETC2 read a colour block alike exactly when the diff bit is 0 or no sum overflows (R185). -/
def Obligations.Etc1Etc2Agree : Prop :=
  ∀ bs : List Byte, bs.length = 8 →
    (decode (.etcColour false) bs = decode (.etcColour true) bs ↔
      byte bs 3 / 2 % 2 = 0 ∨
        (¬ OutOfRange (byte bs 0) ∧ ¬ OutOfRange (byte bs 1) ∧ ¬ OutOfRange (byte bs 2)))

/-- What the ETC rows leave unchanged (R109, 43_etc): everything but the tile entries 0 to 15 and their own palette. Which palette
registers a row writes (Individual and Differential the bases, T and H the paint colours, though R182 and R183 name bases too) is
the model's choice (log 5), and so is that tile entries 16 to 31 stay (log 28). -/
def Obligations.EtcFrame : Prop :=
  ∀ (i : Instr) (s t : State), (i.kind = .etcColour true ∨ i.kind = .etcColour false ∨ i.kind = .eacAlpha ∨
      i.kind = .etc2a1 ∨ i.kind = .etc2a8) → exec i s = .next t →
    Keeps s t ∧ KeepsUpperTile s t ∧ t.colPal = s.colPal ∧ t.alphaPal = s.alphaPal ∧ t.tex = s.tex ∧
    ((∃ b, i = .etcIndividual b) ∨ (∃ b, i = .etcDifferential b) → t.etcPaint = s.etcPaint) ∧
    ((∃ b, i = .etcT b) ∨ (∃ b, i = .etcH b) → t.etcBase = s.etcBase) ∧
    ((∃ b, i = .etcPlanar b) ∨ (∃ b, i = .eacAlpha b) → t.etcBase = s.etcBase ∧ t.etcPaint = s.etcPaint)

/-! ### The PVRTC engine (44_pvrtc) -/

/-- The four colour words complete in every state (R224, R225, R226): the record at the cursor gets the widened colour; its other
colour, its weights and its mask stay. -/
def Obligations.PvrtcColourResult : Prop :=
  ∀ s : State,
    (∀ (r g : BitVec 5) (b : BitVec 4) (mflag : BitVec 1), ∃ t, exec (.pvrtcColaOpaque r g b mflag) s = .next t ∧
      ∃ c : Texel, texRead t.tex s.pc.k = { texRead s.tex s.pc.k with a := c } ∧
        c.r = r ∧ c.g = g ∧ c.b.toNat = 2 * b.toNat + b.toNat / 8 ∧ c.a = 15) ∧
    (∀ (a : BitVec 3) (r g : BitVec 4) (b : BitVec 3) (mflag : BitVec 1), ∃ t,
      exec (.pvrtcColaTranslucent a r g b mflag) s = .next t ∧
      ∃ c : Texel, texRead t.tex s.pc.k = { texRead s.tex s.pc.k with a := c } ∧
        c.r.toNat = 2 * r.toNat + r.toNat / 8 ∧ c.g.toNat = 2 * g.toNat + g.toNat / 8 ∧
        c.b.toNat = 4 * b.toNat + b.toNat / 2 ∧ c.a.toNat = 2 * a.toNat) ∧
    (∀ r g b : BitVec 5, ∃ t, exec (.pvrtcColbOpaque r g b) s = .next t ∧
      ∃ c : Texel, texRead t.tex s.pc.k = { texRead s.tex s.pc.k with b := c } ∧
        c.r = r ∧ c.g = g ∧ c.b = b ∧ c.a = 15) ∧
    (∀ (a : BitVec 3) (r g b : BitVec 4), ∃ t, exec (.pvrtcColbTranslucent a r g b) s = .next t ∧
      ∃ c : Texel, texRead t.tex s.pc.k = { texRead s.tex s.pc.k with b := c } ∧
        c.r.toNat = 2 * r.toNat + r.toNat / 8 ∧ c.g.toNat = 2 * g.toNat + g.toNat / 8 ∧
        c.b.toNat = 2 * b.toNat + b.toNat / 8 ∧ c.a.toNat = 2 * a.toNat)

/-- The 4bpp modulation words complete in every state (R227, R228, R231): sixteen weights from the table of the mode, and the mask
of the codes 2 in punch-through mode; the colours stay. -/
def Obligations.PvrtcMod4Result : Prop :=
  defaultConfig.pvrtcStd.toList = [0, 3, 5, 8] ∧ defaultConfig.pvrtcPt.toList = [0, 4, 4, 8] ∧
  ∀ (m : BitVec 32) (s : State),
    (∃ t, exec (.pvrtcMod4Standard m) s = .next t ∧
      (texRead t.tex s.pc.k).a = (texRead s.tex s.pc.k).a ∧ (texRead t.tex s.pc.k).b = (texRead s.tex s.pc.k).b ∧
      (∀ n, n < 16 → (texRead t.tex s.pc.k).weight n = tableWeight s.cfg.pvrtcStd m.toNat n) ∧
      (texRead t.tex s.pc.k).pt = 0) ∧
    (∃ t, exec (.pvrtcMod4Punchthrough m) s = .next t ∧
      (texRead t.tex s.pc.k).a = (texRead s.tex s.pc.k).a ∧ (texRead t.tex s.pc.k).b = (texRead s.tex s.pc.k).b ∧
      (∀ n, n < 16 → (texRead t.tex s.pc.k).weight n = tableWeight s.cfg.pvrtcPt m.toNat n) ∧
      (∀ n, (texRead t.tex s.pc.k).pt.getLsbD n = decide (n < 16 ∧ digit 4 m.toNat n = 2)))

/-- The 2bpp modulation words complete in every state (R229, R230, R231): one bit a sub-pixel; or a stored code at the sixteen
positions with an even sum of coordinates, the fill mark at the others, and the two codes that lend their low bit to a flag. -/
def Obligations.PvrtcMod2Result : Prop :=
  ∀ (m : BitVec 32) (s : State),
    (∃ t, exec (.pvrtcMod2Direct m) s = .next t ∧
      (texRead t.tex s.pc.k).a = (texRead s.tex s.pc.k).a ∧ (texRead t.tex s.pc.k).b = (texRead s.tex s.pc.k).b ∧
      (∀ n, n < 32 → (texRead t.tex s.pc.k).weight n = oneBit (digit 2 m.toNat n)) ∧ (texRead t.tex s.pc.k).pt = 0) ∧
    (∃ t, exec (.pvrtcMod2Interpolated m) s = .next t ∧
      (texRead t.tex s.pc.k).a = (texRead s.tex s.pc.k).a ∧ (texRead t.tex s.pc.k).b = (texRead s.tex s.pc.k).b ∧
      (∀ k, k < 16 → (texRead t.tex s.pc.k).weight (storedAt k) =
        if k = 0 then oneBit (digit 2 m.toNat 1)
        else if k = 10 ∧ digit 2 m.toNat 0 = 1 then oneBit (digit 2 m.toNat 21)
        else tableWeight s.cfg.pvrtcStd m.toNat k) ∧
      (∀ n, n < 32 → (n % 8 + n / 8) % 2 = 1 → (texRead t.tex s.pc.k).weight n =
        .fill (if digit 2 m.toNat 0 = 0 then .hv else if digit 2 m.toNat 20 = 0 then .h else .v)) ∧
      (texRead t.tex s.pc.k).pt = 0)

/-- PVRTC.BLOCK completes in every state (R222, R227): it is its colour A word, its colour B word and its modulation word in
turn, the last read by the command's `is2` and the block's `mflag`. -/
def Obligations.PvrtcBlockIsItsWords : Prop :=
  ∀ (ca cb : BitVec 16) (m : BitVec 32) (s : State), ∃ ia ib im u v t,
    decode .colourA (leBytes 2 ca.toNat) = .ok ia ∧ decode .colourB (leBytes 2 cb.toNat) = .ok ib ∧
    decode (.modulation s.is2 (ca.getLsbD 0)) (leBytes 4 m.toNat) = .ok im ∧
    exec ia s = .next u ∧ exec ib u = .next v ∧ exec im v = .next t ∧ exec (.pvrtcBlock ca cb m) s = .next t

/-- What the PVRTC rows leave unchanged (R222): everything but the record at the cursor's storage index. -/
def Obligations.PvrtcFrame : Prop :=
  ∀ (i : Instr) (s t : State), (i.kind = .pvrtc ∨ i.kind = .colourA ∨ i.kind = .colourB ∨
      ∃ is2 mflag, i.kind = .modulation is2 mflag) → exec i s = .next t →
    Keeps s t ∧ t.tile = s.tile ∧ t.colPal = s.colPal ∧ t.alphaPal = s.alphaPal ∧ t.etcBase = s.etcBase ∧
    t.etcPaint = s.etcPaint ∧ ∀ j, j ≠ s.pc.k → texRead t.tex j = texRead s.tex j

/-- The Morton index (R233): `t` in the even bits, `s` in the odd bits, the longer side's high bits above; and it is a bijection
from a grid with sides powers of two onto its storage indices. -/
def Obligations.MortonBijective : Prop :=
  ∀ a b : Nat,
    (∀ x y, x < 2 ^ a → y < 2 ^ b →
      (∀ j, j < min a b → (morton (2 ^ a) (2 ^ b) x y).testBit (2 * j) = y.testBit j ∧
        (morton (2 ^ a) (2 ^ b) x y).testBit (2 * j + 1) = x.testBit j) ∧
      morton (2 ^ a) (2 ^ b) x y / 4 ^ min a b = (x ||| y) / 2 ^ min a b) ∧
    (∀ x y, x < 2 ^ a → y < 2 ^ b → morton (2 ^ a) (2 ^ b) x y < 2 ^ a * 2 ^ b) ∧
    ∀ k, k < 2 ^ a * 2 ^ b → ∃ p : Nat × Nat, (p.1 < 2 ^ a ∧ p.2 < 2 ^ b ∧ morton (2 ^ a) (2 ^ b) p.1 p.2 = k) ∧
      ∀ q : Nat × Nat, q.1 < 2 ^ a → q.2 < 2 ^ b → morton (2 ^ a) (2 ^ b) q.1 q.2 = k → q = p

/-- Every sub-pixel of a PVRTC tile by the exact sums, scalings and blend, with the stated tables (R235 to R238, R240, R242): no
channel wraps, and a punched sub-pixel has alpha 0. -/
def Obligations.PvrtcPixelExact : Prop :=
  ∀ (is2 : Bool) (n : Nat → Nat → TexelInfo) (x y : Nat), x < (if is2 then 8 else 4) → y < 4 →
    pvrtcWeight defaultConfig is2 n x y ≤ 8 →
    let w := pvrtcWeight defaultConfig is2 n x y
    let p := pvrtcPixel defaultConfig is2 n x y
    p.r.toNat = channel is2 (scaled is2) (fun i j => (n i j).a.r.toNat) (fun i j => (n i j).b.r.toNat) x y w ∧
    p.g.toNat = channel is2 (scaled is2) (fun i j => (n i j).a.g.toNat) (fun i j => (n i j).b.g.toNat) x y w ∧
    p.b.toNat = channel is2 (scaled is2) (fun i j => (n i j).a.b.toNat) (fun i j => (n i j).b.b.toNat) x y w ∧
    p.a.toNat = if (n 1 1).pt.getLsbD ((if is2 then 8 else 4) * y + x) = true then 0
      else channel is2 (scaledAlpha is2) (fun i j => (n i j).a.a.toNat) (fun i j => (n i j).b.a.toNat) x y w

/-- The weight of a sub-pixel (R240, R241): the own record's stored weight, or the average of stored neighbours by the fill mark;
over records that EXPAND wrote every neighbour read is a stored weight (R241 derives it: "wn never returns a fill mark"; log 19) and
the result is at most 8; in 4bpp the stored weight. -/
def Obligations.DerivedWeights : Prop :=
  ∀ (n : Nat → Nat → TexelInfo), (∀ i j, (n i j).Expanded true) → ∀ x y : Nat, x < 8 → y < 4 →
    let at' := fun (dx dy : Int) =>
      (n (if (y : Int) + dy < 0 then 0 else if 4 ≤ (y : Int) + dy then 2 else 1)
        (if (x : Int) + dx < 0 then 0 else if 8 ≤ (x : Int) + dx then 2 else 1)).weight
        (8 * (((y : Int) + dy) % 4).toNat + (((x : Int) + dx) % 8).toNat)
    pvrtcWeight defaultConfig true n x y ≤ 8 ∧
    (∀ w, (n 1 1).weight (8 * y + x) = .stored w → pvrtcWeight defaultConfig true n x y = w.val) ∧
    (∀ f, (n 1 1).weight (8 * y + x) = .fill f → ∃ d u l r : Fin 9,
      at' 0 (-1) = .stored d ∧ at' 0 1 = .stored u ∧ at' (-1) 0 = .stored l ∧ at' 1 0 = .stored r ∧
      pvrtcWeight defaultConfig true n x y =
        match f with
        | .hv => (d.val + u.val + l.val + r.val + 2) / 4
        | .h => (l.val + r.val + 1) / 2
        | .v => (d.val + u.val + 1) / 2) ∧
    ∀ (n4 : Nat → Nat → TexelInfo) (w : Fin 9), x < 4 → (n4 1 1).weight (4 * y + x) = .stored w →
      pvrtcWeight defaultConfig false n4 x y = w.val

/-- The uniform-image law (R244), with the stated tables: when the nine records are equal, a sub-pixel is the blend of the widened
colours of that one record by the weight at its own position. -/
def Obligations.UniformImage : Prop :=
  ∀ (is2 : Bool) (rec : TexelInfo) (x y : Nat), rec.Expanded is2 → x < (if is2 then 8 else 4) → y < 4 →
    let w := pvrtcWeight defaultConfig is2 (fun _ _ => rec) x y
    let p := pvrtcPixel defaultConfig is2 (fun _ _ => rec) x y
    p.r.toNat = mix (rep5 rec.a.r.toNat) (rep5 rec.b.r.toNat) w ∧ p.g.toNat = mix (rep5 rec.a.g.toNat) (rep5 rec.b.g.toNat) w ∧
    p.b.toNat = mix (rep5 rec.a.b.toNat) (rep5 rec.b.b.toNat) w ∧
    p.a.toNat = if rec.pt.getLsbD ((if is2 then 8 else 4) * y + x) = true then 0
      else mix (rep4 rec.a.a.toNat) (rep4 rec.b.a.toNat) w

/-! ### The walker and the block-step (41_blockgrid, 40_commands, 44_pvrtc) -/

/-- The cursor visits every grid position once, row-major (R123): each advance moves to the next position in that order, and it
leaves the grid exactly after the last of the `nbx * nby` positions. In phase EXPAND it visits every storage index in order and
after the last goes to the first position of WALK (R222). -/
def Obligations.CursorOrder : Prop :=
  (∀ (g : Grid) (c : Cursor), c.s < g.nbx → c.t < g.nby →
    (advance g c).phase = .walk ∧ (advance g c).s < g.nbx ∧ (advance g c).t ≤ g.nby ∧
    (advance g c).t * g.nbx + (advance g c).s = c.t * g.nbx + c.s + 1 ∧
    ((advance g c).t = g.nby ↔ c.t * g.nbx + c.s + 1 = g.nbx * g.nby)) ∧
  ∀ (g : Grid) (c : Cursor), c.k < g.nbx * g.nby →
    (c.k + 1 < g.nbx * g.nby → advanceExpand g c = { phase := .expand, s := 0, t := 0, k := c.k + 1 }) ∧
    (c.k + 1 = g.nbx * g.nby → advanceExpand g c = { phase := .walk, s := 0, t := 0, k := 0 })

/-- The in-bounds parts of the tiles partition the output (R53, R125, R126, R129): every output pixel is pixel `(i, j)` of the
tile of exactly one block. -/
def Obligations.OutputPartition : Prop :=
  ∀ (f : Format) (w h x y : Nat), x < w → y < h →
    let g := gridOf f w h
    let Covers := fun (s t i j : Nat) =>
      s < g.nbx ∧ t < g.nby ∧ i ∈ g.rows h t ∧ j < g.clen s ∧ g.outRow h t i = y ∧ g.bw * s + j = x
    Covers (x / g.bw) ((h - 1 - y) / g.bh) ((h - 1 - y) % g.bh) (x % g.bw) ∧
    ∀ s t i j, Covers s t i j →
      s = x / g.bw ∧ t = (h - 1 - y) / g.bh ∧ i = (h - 1 - y) % g.bh ∧ j = x % g.bw

/-- A step runs the decoded instruction. A write to CTRL executes the instruction its value decodes to (as bytes: log 26); one
without a strobe does nothing (R21). Where the unit moves (with no access pending, at a `wait`, at a POLL while BUSY; log 9,
log 22): a DXT or ETC block-step executes the instructions that the block at the cursor decodes to, then copies the tile out and
advances (R109); an EXPAND step executes PVRTC.BLOCK on the block at `SRC_BASE + 8 * k`, then advances (R222); a PVRTC WALK step
fills the tile from the scratch, copies out and advances (R223). The bytes the unit reads are memory's but for races
(HostAccesses; log 13). Where no memory answers some access of a block-step (R58, U13), the unit stays BUSY; that the whole state
stays as it is and no part of the block-step happens is the model's reading (log 14, DEDUCED). Not BUSY, nothing happens (R110). -/
def Obligations.StepRunsDecodedInstruction : Prop :=
  (∀ (s : State) (v : Word) (q : List HostOp) (i : Instr), s.hostQ = .wr 0 v :: q →
    decode .ctrl (leBytes 4 v.toNat) = .ok i → step s = exec i { s with hostQ := q }) ∧
  (∀ (s : State) (v : Word) (q : List HostOp), s.hostQ = .wr 0 v :: q → v.toNat % 4 = 0 →
    step s = .next { s with hostQ := q }) ∧
  (∀ (s u : State) (f : Format), UnitMoves s u → u.st = .busy → u.format = some f → isPvrtc f = false →
    u.pc.phase = .walk → u.pc.s < (u.grid f).nbx → u.pc.t < (u.grid f).nby →
    let answer := memAnswer u.cfg ((blockAddr (u.grid f) u, (u.grid f).bb) :: walkStores (u.grid f) u)
    (∀ is : List Instr, answer = .ok → decodeBlock f (u.fetchBytes (blockAddr (u.grid f) u) (u.grid f).bb) = .ok is →
      step s = andThen (runAll is u) fun t => .next (finishWalk (u.grid f) t)) ∧
    (answer = .absent → step s = .next u)) ∧
  (∀ (s u : State) (f : Format), UnitMoves s u → u.st = .busy → u.format = some f → isPvrtc f = true →
    u.pc.phase = .expand → u.pc.k < (u.grid f).count →
    let answer := memAnswer u.cfg [(u.srcBase + 8 * u.pc.k, 8)]
    (∀ i : Instr, answer = .ok → decode .pvrtc (u.fetchBytes (u.srcBase + 8 * u.pc.k) 8) = .ok i →
      step s = andThen (exec i u) fun t => .next (finishExpand (u.grid f) t)) ∧
    (answer = .absent → step s = .next u)) ∧
  (∀ (s u : State) (f : Format), UnitMoves s u → u.st = .busy → u.format = some f → isPvrtc f = true →
    u.pc.phase = .walk → u.pc.s < (u.grid f).nbx → u.pc.t < (u.grid f).nby →
    let answer := memAnswer u.cfg (walkStores (u.grid f) u)
    (answer = .ok → step s = .next (finishWalk (u.grid f) (pvrtcTileState u.is2 (u.grid f) u))) ∧
    (answer = .absent → step s = .next u)) ∧
  (∀ s u : State, UnitMoves s u → u.st ≠ .busy → step s = .next u)

/-- The rows of a block together compute the format's whole block function (R147, R155, R185, R186, R190): the block decodes, its
rows all run from every state, and the tile they leave depends on the block's bytes and the configuration alone. -/
def Obligations.RowsComputeBlock : Prop :=
  ∀ (f : Format) (bs : List Byte) (s : State), isPvrtc f = false → bs.length = blockBytes f →
    ∃ is t, decodeBlock f bs = .ok is ∧ runAll is s = .next t ∧
      ∀ n, n < 16 → blockPixel s.cfg f bs n = some (tileAt t.tile n)

/-- The stores of a WALK step (R52, R127, R128): the four bytes of each in-bounds pixel of the tile go to its address, every other
byte of memory is as before, and no register but STATUS is written. Where the host stored to the byte during the command, its value
may stand there instead (R61, U1; log 13). The tile is read in the next state: that the tile buffer still holds it there, also after
the last block, is the model's choice (log 4; R110 does not say). -/
def Obligations.WalkStores : Prop :=
  ∀ (s t : State) (f : Format), s.Running f → s.st = .busy → s.pc.phase = .walk → s.mem.wf → s.backed f →
    unitStep s = .next t →
    (∀ i, i ∈ (s.grid f).rows s.height.toNat s.pc.t → ∀ j, j < (s.grid f).clen s.pc.s → ∀ c, c < 4 →
      let x := (s.grid f).rowAddr s.dstBase s.width.toNat s.height.toNat s.pc.s s.pc.t i + 4 * j + c
      t.mem.read x = (tileAt t.tile ((s.grid f).bw * i + j)).bytes.getD c 0 ∨ (x, t.mem.read x) ∈ s.hostStores) ∧
    (∀ a, (∀ p, p ∈ walkStores (s.grid f) s → a < p.1 ∨ p.1 + p.2 ≤ a) → t.mem.read a = s.mem.read a) ∧
    (∀ r : Fin 8, r ≠ 1 → readReg t r = readReg s r)

/-! ### The machine as a whole -/

/-- The invariant holds after reset. -/
def Obligations.ResetInv : Prop := State.reset.Inv

/-- Every step keeps the invariant, from every state that has it: memory in canonical form, STATUS that agrees with itself and
never shows InvalidContainer (R22, R274), and a BUSY unit whose command passed the checks, whose cursor is in the grid and whose
scratch holds the records EXPAND has written (R29, R100, R222). -/
def Obligations.StepKeepsInv : Prop :=
  ∀ s t : State, s.Inv → step s = .next t → t.Inv

/-- No step from a state with the invariant faults: no block-step raises an error (R109, R270), no access leaves the address space
(R50, R104), and the unit never loses its command. -/
def Obligations.NoFault : Prop :=
  ∀ (s : State), s.Inv → ∀ r, step s ≠ .fault r

/-- A command runs exactly its block-steps (R315 (a), (b)): after START of a launchable command over memory that answers, the unit
is BUSY for `nbx * nby` steps, twice as many for PVRTC, and DONE after the last. -/
def Obligations.CommandReachesDone : Prop :=
  ∀ (s : State) (f : Format), s.Launchable f → s.format = some f → s.backed f → s.hostQ = [.wr 0 1] →
    (∀ n, n < blockSteps f s → ∃ t, Sys2Proof.core.run (1 + n) s = .next t ∧ t.st = .busy) ∧
    ∃ t, Sys2Proof.core.run (1 + blockSteps f s) s = .next t ∧ t.st = .done ∧ t.err = .none

/-- The net effect of a DXT or ETC command (R110, R129, R56): each output pixel holds the pixel of its block of the source at
START, no other byte of memory changes, and the arguments stay. -/
def Obligations.CommandNetEffect : Prop :=
  ∀ (s : State) (f : Format), s.Launchable f → s.format = some f → isPvrtc f = false → s.backed f → s.mem.wf →
    s.hostQ = [.wr 0 1] →
    ∃ t, Sys2Proof.core.run (1 + blockSteps f s) s = .next t ∧ t.st = .done ∧ t.err = .none ∧
      (∀ x y, x < s.width.toNat → y < s.height.toNat →
        let r := s.height.toNat - 1 - y
        let block := s.srcBase + (r / 4 * (s.grid f).nbx + x / 4) * blockBytes f
        ∃ p, blockPixel s.cfg f (s.mem.readBytes block (blockBytes f)) (4 * (r % 4) + x % 4) = some p ∧
          t.mem.readBytes (s.dstBase + 4 * (y * s.width.toNat + x)) 4 = [p.r, p.g, p.b, p.a]) ∧
      (∀ a, s.inOutput a = false → t.mem.read a = s.mem.read a) ∧
      ∀ j : Fin 8, 2 ≤ j.val → readReg t j = readReg s j

/-- The net effect of a PVRTC command (R110, R129, R221 to R223, R234): the scratch holds for every block of the source at START the
record that PVRTC.BLOCK leaves, each output pixel is the sub-pixel the engine gives from the nine records around its block, with
toroidal wrap, written out here from R234; no other byte of memory changes, and the arguments stay. That the scratch still holds the
records after DONE, where they are read here, is the model's choice (log 6; R110 does not say, R33 calls it dead). -/
def Obligations.PvrtcNetEffect : Prop :=
  ∀ (s : State) (f : Format), s.Launchable f → s.format = some f → isPvrtc f = true → s.backed f → s.mem.wf →
    s.hostQ = [.wr 0 1] →
    ∃ t, Sys2Proof.core.run (1 + blockSteps f s) s = .next t ∧ t.st = .done ∧ t.err = .none ∧
      (∀ k, k < (s.grid f).count →
        let bs := s.mem.readBytes (s.srcBase + 8 * k) 8
        (∃ i u v, decode .pvrtc bs = .ok i ∧ u.cfg = s.cfg ∧ u.is2 = s.is2 ∧ u.pc.k = k ∧ exec i u = .next v ∧
          texRead v.tex k = texRead t.tex k) ∧
        (texRead t.tex k).Expanded s.is2) ∧
      (∀ x y, x < s.width.toNat → y < s.height.toNat →
        let r := s.height.toNat - 1 - y
        let nbx := (s.grid f).nbx
        let nby := (s.grid f).nby
        let n := fun ay ax : Nat =>
          texRead t.tex (morton nbx nby ((x / blockWidth f + ax + nbx - 1) % nbx) ((r / 4 + ay + nby - 1) % nby))
        let p := pvrtcPixel s.cfg s.is2 n (x % blockWidth f) (r % 4)
        t.mem.readBytes (s.dstBase + 4 * (y * s.width.toNat + x)) 4 = [p.r, p.g, p.b, p.a]) ∧
      (∀ a, s.inOutput a = false → t.mem.read a = s.mem.read a) ∧
      ∀ j : Fin 8, 2 ≤ j.val → readReg t j = readReg s j

/-- A command's output is a function of its registers and its source bytes (R35 (a), R140, R310): two states that agree on the
registers, the configuration and the source bytes leave the same bytes in the output range, whatever else differs. -/
def Obligations.OutputDependsOnSourceOnly : Prop :=
  ∀ (s s' : State) (f : Format), s.Launchable f → s'.Launchable f → s.format = some f → s.backed f → s.mem.wf →
    s'.mem.wf → s.hostQ = [.wr 0 1] → s'.hostQ = [.wr 0 1] → s.cfg = s'.cfg →
    (∀ j : Fin 8, 2 ≤ j.val → readReg s j = readReg s' j) →
    (∀ a, s.inSource f a = true → s.mem.read a = s'.mem.read a) →
    ∃ t t', Sys2Proof.core.run (1 + blockSteps f s) s = .next t ∧ Sys2Proof.core.run (1 + blockSteps f s) s' = .next t' ∧
      ∀ a, s.inOutput a = true → t.mem.read a = t'.mem.read a

/-- A whole DECODE line (R85): from a unit that is not BUSY the seven register writes leave the operands in the registers and end
in the outcome of the command's acceptance, with the POLL pending. -/
def Obligations.DecodeLineLaunches : Prop :=
  ∀ (s : State) (f : Format) (src len dst w h : Word), s.st ≠ .busy → s.hostQ = decodeLine f src len dst w h →
    let u := { s with
      fmt := (selector f).extractLsb 7 0, is2 := (selector f).getLsbD 8, src := src, len := len,
      dst := dst.extractLsb 31 2, width := w.extractLsb 15 0, height := h.extractLsb 15 0, hostQ := [.poll] }
    u.format = some f ∧ Sys2Proof.core.run 7 s = accept (some f) u
end

