-- ==== Sys2Proof/Laws/Arith.lean ====
section
/-! SUPPORT. The laws of the arithmetic helpers: bit replication, the clamp, byte assembly, ceiling division. -/

namespace Sys2Proof.Machine

open Sys2Proof

/-- R13: `rep_4(v) = 17 * v`. -/
theorem rep4_toNat (v : BitVec 4) : (rep v).toNat = 17 * v.toNat := by
  revert v; decide

/-- R13: `rep_5`. -/
theorem rep5_toNat (v : BitVec 5) : (rep v).toNat = 8 * v.toNat + v.toNat / 4 := by
  revert v; decide

/-- R13: `rep_6`. -/
theorem rep6_toNat (v : BitVec 6) : (rep v).toNat = 4 * v.toNat + v.toNat / 16 := by
  revert v; decide

/-- R13: `rep_7`. -/
theorem rep7_toNat (v : BitVec 7) : (rep v).toNat = 2 * v.toNat + v.toNat / 64 := by
  revert v; decide +kernel

/-- R11: the clamp as a number. -/
theorem clamp255_toNat (v : Int) : ((clamp255 v).toNat : Int) = max 0 (min 255 v) := by
  unfold clamp255
  split
  · simp; omega
  · split
    · simp; omega
    · obtain ⟨n, rfl⟩ := Int.eq_ofNat_of_zero_le (show 0 ≤ v by omega)
      simp
      omega

/-- R12: `sext_3`. -/
theorem sext3_eq (v : BitVec 3) : sext3 v = if v.toNat < 4 then (v.toNat : Int) else (v.toNat : Int) - 8 := by
  revert v; decide

theorem sumInRange_iff (c : BitVec 5) (d : BitVec 3) :
    sumInRange c d = true ↔ 0 ≤ (c.toNat : Int) + sext3 d ∧ (c.toNat : Int) + sext3 d ≤ 31 := by
  simp [sumInRange]

@[simp] theorem length_leBytes (n v : Nat) : (leBytes n v).length = n := by
  induction n generalizing v with
  | zero => rfl
  | succ n ih => simp [leBytes, ih]

@[simp] theorem length_beBytes (n v : Nat) : (beBytes n v).length = n := by simp [beBytes]

/-- The bytes of a number assemble to its low `n` bytes. -/
theorem leNat_leBytes (n v : Nat) : leNat (leBytes n v) = v % 256 ^ n := by
  induction n generalizing v with
  | zero => simp [leBytes, leNat, Nat.mod_one]
  | succ n ih =>
    simp only [leBytes, leNat, ih, BitVec.toNat_ofNat]
    rw [Nat.pow_succ (m := n), Nat.mul_comm (256 ^ n), Nat.mod_mul]

theorem beNat_beBytes (n v : Nat) : beNat (beBytes n v) = v % 256 ^ n := by
  simp [beNat, beBytes, leNat_leBytes]

theorem leNat_lt (bs : List Byte) : leNat bs < 256 ^ bs.length := by
  induction bs with
  | nil => simp [leNat]
  | cons b bs ih =>
    have := b.isLt
    simp only [leNat, List.length_cons, Nat.pow_succ]
    omega

theorem beNat_lt (bs : List Byte) : beNat bs < 256 ^ bs.length := by
  have := leNat_lt bs.reverse
  simpa [beNat] using this

theorem leNat_append (as bs : List Byte) : leNat (as ++ bs) = leNat as + 256 ^ as.length * leNat bs := by
  induction as with
  | nil => simp [leNat]
  | cons a as ih =>
    simp only [List.cons_append, leNat, ih, List.length_cons, Nat.pow_succ]
    ring

theorem isPow2_iff (n : Nat) : isPow2 n = true ↔ ∃ k, n = 2 ^ k := by
  constructor
  · intro h
    simp [isPow2] at h
    exact ⟨_, h.2⟩
  · rintro ⟨k, rfl⟩
    simp [isPow2, Nat.log2_two_pow]

/-- The quotient of an index below `a` is below the ceiling quotient. -/
theorem div_lt_ceilDiv {x a b : Nat} (hb : 0 < b) (hx : x < a) : x / b < ceilDiv a b := by
  unfold ceilDiv
  rw [Nat.div_lt_iff_lt_mul hb, Nat.lt_iff_add_one_le]
  have h1 := Nat.div_add_mod (a + b - 1) b
  have h2 := Nat.mod_lt (a + b - 1) hb
  have h3 : b * ((a + b - 1) / b) = (a + b - 1) / b * b := Nat.mul_comm ..
  omega

theorem ceilDiv_pos {a b : Nat} (hb : 0 < b) (ha : 0 < a) : 0 < ceilDiv a b := by
  exact Nat.lt_of_le_of_lt (Nat.zero_le _) (div_lt_ceilDiv hb ha)

/-- The last block starts inside. -/
theorem mul_lt_of_lt_ceilDiv {x a b : Nat} (hb : 0 < b) (hx : x < ceilDiv a b) : b * x < a := by
  unfold ceilDiv at hx
  have h1 := Nat.div_mul_le_self (a + b - 1) b
  have h2 : (x + 1) * b ≤ (a + b - 1) / b * b := Nat.mul_le_mul_right b hx
  rw [Nat.add_mul, Nat.mul_comm x b] at h2
  omega

end Sys2Proof.Machine
end

