-- ==== Sys2Proof/Laws/State.lean ====
section
/-! SUPPORT. What each update of the state does to each field, one lemma per field, true by unfolding. -/

namespace Sys2Proof.Machine

open Sys2Proof

/-! ### raiseError -/

@[simp] theorem raiseError_cfg (e : ErrCode) (s : State) : (raiseError e s).cfg = s.cfg := rfl
@[simp] theorem raiseError_st (e : ErrCode) (s : State) : (raiseError e s).st = .error := rfl
@[simp] theorem raiseError_err (e : ErrCode) (s : State) : (raiseError e s).err = e := rfl
@[simp] theorem raiseError_fmt (e : ErrCode) (s : State) : (raiseError e s).fmt = s.fmt := rfl
@[simp] theorem raiseError_is2 (e : ErrCode) (s : State) : (raiseError e s).is2 = s.is2 := rfl
@[simp] theorem raiseError_src (e : ErrCode) (s : State) : (raiseError e s).src = s.src := rfl
@[simp] theorem raiseError_len (e : ErrCode) (s : State) : (raiseError e s).len = s.len := rfl
@[simp] theorem raiseError_dst (e : ErrCode) (s : State) : (raiseError e s).dst = s.dst := rfl
@[simp] theorem raiseError_width (e : ErrCode) (s : State) : (raiseError e s).width = s.width := rfl
@[simp] theorem raiseError_height (e : ErrCode) (s : State) : (raiseError e s).height = s.height := rfl
@[simp] theorem raiseError_pc (e : ErrCode) (s : State) : (raiseError e s).pc = s.pc := rfl
@[simp] theorem raiseError_tile (e : ErrCode) (s : State) : (raiseError e s).tile = s.tile := rfl
@[simp] theorem raiseError_colPal (e : ErrCode) (s : State) : (raiseError e s).colPal = s.colPal := rfl
@[simp] theorem raiseError_alphaPal (e : ErrCode) (s : State) : (raiseError e s).alphaPal = s.alphaPal := rfl
@[simp] theorem raiseError_etcBase (e : ErrCode) (s : State) : (raiseError e s).etcBase = s.etcBase := rfl
@[simp] theorem raiseError_etcPaint (e : ErrCode) (s : State) : (raiseError e s).etcPaint = s.etcPaint := rfl
@[simp] theorem raiseError_tex (e : ErrCode) (s : State) : (raiseError e s).tex = s.tex := rfl
@[simp] theorem raiseError_mem (e : ErrCode) (s : State) : (raiseError e s).mem = s.mem := rfl
@[simp] theorem raiseError_hostQ (e : ErrCode) (s : State) : (raiseError e s).hostQ = s.hostQ := rfl
@[simp] theorem raiseError_rdata (e : ErrCode) (s : State) : (raiseError e s).rdata = s.rdata := rfl
@[simp] theorem raiseError_hostStores (e : ErrCode) (s : State) : (raiseError e s).hostStores = s.hostStores := rfl
@[simp] theorem raiseError_atStart (e : ErrCode) (s : State) : (raiseError e s).atStart = s.atStart := rfl
@[simp] theorem raiseError_choices (e : ErrCode) (s : State) : (raiseError e s).choices = s.choices := rfl

/-! ### clearStatus -/

@[simp] theorem clearStatus_cfg (s : State) : (clearStatus s).cfg = s.cfg := rfl
@[simp] theorem clearStatus_st (s : State) : (clearStatus s).st = .idle := rfl
@[simp] theorem clearStatus_err (s : State) : (clearStatus s).err = .none := rfl
@[simp] theorem clearStatus_fmt (s : State) : (clearStatus s).fmt = s.fmt := rfl
@[simp] theorem clearStatus_is2 (s : State) : (clearStatus s).is2 = s.is2 := rfl
@[simp] theorem clearStatus_src (s : State) : (clearStatus s).src = s.src := rfl
@[simp] theorem clearStatus_len (s : State) : (clearStatus s).len = s.len := rfl
@[simp] theorem clearStatus_dst (s : State) : (clearStatus s).dst = s.dst := rfl
@[simp] theorem clearStatus_width (s : State) : (clearStatus s).width = s.width := rfl
@[simp] theorem clearStatus_height (s : State) : (clearStatus s).height = s.height := rfl
@[simp] theorem clearStatus_pc (s : State) : (clearStatus s).pc = s.pc := rfl
@[simp] theorem clearStatus_tile (s : State) : (clearStatus s).tile = s.tile := rfl
@[simp] theorem clearStatus_colPal (s : State) : (clearStatus s).colPal = s.colPal := rfl
@[simp] theorem clearStatus_alphaPal (s : State) : (clearStatus s).alphaPal = s.alphaPal := rfl
@[simp] theorem clearStatus_etcBase (s : State) : (clearStatus s).etcBase = s.etcBase := rfl
@[simp] theorem clearStatus_etcPaint (s : State) : (clearStatus s).etcPaint = s.etcPaint := rfl
@[simp] theorem clearStatus_tex (s : State) : (clearStatus s).tex = s.tex := rfl
@[simp] theorem clearStatus_mem (s : State) : (clearStatus s).mem = s.mem := rfl
@[simp] theorem clearStatus_hostQ (s : State) : (clearStatus s).hostQ = s.hostQ := rfl
@[simp] theorem clearStatus_rdata (s : State) : (clearStatus s).rdata = s.rdata := rfl
@[simp] theorem clearStatus_hostStores (s : State) : (clearStatus s).hostStores = s.hostStores := rfl
@[simp] theorem clearStatus_atStart (s : State) : (clearStatus s).atStart = s.atStart := rfl
@[simp] theorem clearStatus_choices (s : State) : (clearStatus s).choices = s.choices := rfl

/-! ### acceptEmpty -/

@[simp] theorem acceptEmpty_cfg (s : State) : (acceptEmpty s).cfg = s.cfg := rfl
@[simp] theorem acceptEmpty_st (s : State) : (acceptEmpty s).st = .done := rfl
@[simp] theorem acceptEmpty_err (s : State) : (acceptEmpty s).err = .none := rfl
@[simp] theorem acceptEmpty_fmt (s : State) : (acceptEmpty s).fmt = s.fmt := rfl
@[simp] theorem acceptEmpty_is2 (s : State) : (acceptEmpty s).is2 = s.is2 := rfl
@[simp] theorem acceptEmpty_src (s : State) : (acceptEmpty s).src = s.src := rfl
@[simp] theorem acceptEmpty_len (s : State) : (acceptEmpty s).len = s.len := rfl
@[simp] theorem acceptEmpty_dst (s : State) : (acceptEmpty s).dst = s.dst := rfl
@[simp] theorem acceptEmpty_width (s : State) : (acceptEmpty s).width = s.width := rfl
@[simp] theorem acceptEmpty_height (s : State) : (acceptEmpty s).height = s.height := rfl
@[simp] theorem acceptEmpty_pc (s : State) : (acceptEmpty s).pc = s.pc := rfl
@[simp] theorem acceptEmpty_tile (s : State) : (acceptEmpty s).tile = s.tile := rfl
@[simp] theorem acceptEmpty_colPal (s : State) : (acceptEmpty s).colPal = s.colPal := rfl
@[simp] theorem acceptEmpty_alphaPal (s : State) : (acceptEmpty s).alphaPal = s.alphaPal := rfl
@[simp] theorem acceptEmpty_etcBase (s : State) : (acceptEmpty s).etcBase = s.etcBase := rfl
@[simp] theorem acceptEmpty_etcPaint (s : State) : (acceptEmpty s).etcPaint = s.etcPaint := rfl
@[simp] theorem acceptEmpty_tex (s : State) : (acceptEmpty s).tex = s.tex := rfl
@[simp] theorem acceptEmpty_mem (s : State) : (acceptEmpty s).mem = s.mem := rfl
@[simp] theorem acceptEmpty_hostQ (s : State) : (acceptEmpty s).hostQ = s.hostQ := rfl
@[simp] theorem acceptEmpty_rdata (s : State) : (acceptEmpty s).rdata = s.rdata := rfl
@[simp] theorem acceptEmpty_hostStores (s : State) : (acceptEmpty s).hostStores = s.hostStores := rfl
@[simp] theorem acceptEmpty_atStart (s : State) : (acceptEmpty s).atStart = s.atStart := rfl
@[simp] theorem acceptEmpty_choices (s : State) : (acceptEmpty s).choices = s.choices := rfl

/-! ### acceptBusy -/

@[simp] theorem acceptBusy_cfg (p : Phase) (s : State) : (acceptBusy p s).cfg = s.cfg := rfl
@[simp] theorem acceptBusy_st (p : Phase) (s : State) : (acceptBusy p s).st = .busy := rfl
@[simp] theorem acceptBusy_err (p : Phase) (s : State) : (acceptBusy p s).err = .none := rfl
@[simp] theorem acceptBusy_fmt (p : Phase) (s : State) : (acceptBusy p s).fmt = s.fmt := rfl
@[simp] theorem acceptBusy_is2 (p : Phase) (s : State) : (acceptBusy p s).is2 = s.is2 := rfl
@[simp] theorem acceptBusy_src (p : Phase) (s : State) : (acceptBusy p s).src = s.src := rfl
@[simp] theorem acceptBusy_len (p : Phase) (s : State) : (acceptBusy p s).len = s.len := rfl
@[simp] theorem acceptBusy_dst (p : Phase) (s : State) : (acceptBusy p s).dst = s.dst := rfl
@[simp] theorem acceptBusy_width (p : Phase) (s : State) : (acceptBusy p s).width = s.width := rfl
@[simp] theorem acceptBusy_height (p : Phase) (s : State) : (acceptBusy p s).height = s.height := rfl
@[simp] theorem acceptBusy_pc (p : Phase) (s : State) : (acceptBusy p s).pc = { phase := p, s := 0, t := 0, k := 0 } := rfl
@[simp] theorem acceptBusy_tile (p : Phase) (s : State) : (acceptBusy p s).tile = s.tile := rfl
@[simp] theorem acceptBusy_colPal (p : Phase) (s : State) : (acceptBusy p s).colPal = s.colPal := rfl
@[simp] theorem acceptBusy_alphaPal (p : Phase) (s : State) : (acceptBusy p s).alphaPal = s.alphaPal := rfl
@[simp] theorem acceptBusy_etcBase (p : Phase) (s : State) : (acceptBusy p s).etcBase = s.etcBase := rfl
@[simp] theorem acceptBusy_etcPaint (p : Phase) (s : State) : (acceptBusy p s).etcPaint = s.etcPaint := rfl
@[simp] theorem acceptBusy_tex (p : Phase) (s : State) : (acceptBusy p s).tex = s.tex := rfl
@[simp] theorem acceptBusy_mem (p : Phase) (s : State) : (acceptBusy p s).mem = s.mem := rfl
@[simp] theorem acceptBusy_hostQ (p : Phase) (s : State) : (acceptBusy p s).hostQ = s.hostQ := rfl
@[simp] theorem acceptBusy_rdata (p : Phase) (s : State) : (acceptBusy p s).rdata = s.rdata := rfl
@[simp] theorem acceptBusy_hostStores (p : Phase) (s : State) : (acceptBusy p s).hostStores = [] := rfl
@[simp] theorem acceptBusy_atStart (p : Phase) (s : State) : (acceptBusy p s).atStart = s.mem := rfl
@[simp] theorem acceptBusy_choices (p : Phase) (s : State) : (acceptBusy p s).choices = s.choices := rfl

/-! ### setTile16 -/

@[simp] theorem setTile16_cfg (f : Nat → Pixel) (s : State) : (setTile16 f s).cfg = s.cfg := by simp only [setTile16]
@[simp] theorem setTile16_st (f : Nat → Pixel) (s : State) : (setTile16 f s).st = s.st := by simp only [setTile16]
@[simp] theorem setTile16_err (f : Nat → Pixel) (s : State) : (setTile16 f s).err = s.err := by simp only [setTile16]
@[simp] theorem setTile16_fmt (f : Nat → Pixel) (s : State) : (setTile16 f s).fmt = s.fmt := by simp only [setTile16]
@[simp] theorem setTile16_is2 (f : Nat → Pixel) (s : State) : (setTile16 f s).is2 = s.is2 := by simp only [setTile16]
@[simp] theorem setTile16_src (f : Nat → Pixel) (s : State) : (setTile16 f s).src = s.src := by simp only [setTile16]
@[simp] theorem setTile16_len (f : Nat → Pixel) (s : State) : (setTile16 f s).len = s.len := by simp only [setTile16]
@[simp] theorem setTile16_dst (f : Nat → Pixel) (s : State) : (setTile16 f s).dst = s.dst := by simp only [setTile16]
@[simp] theorem setTile16_width (f : Nat → Pixel) (s : State) : (setTile16 f s).width = s.width := by simp only [setTile16]
@[simp] theorem setTile16_height (f : Nat → Pixel) (s : State) : (setTile16 f s).height = s.height := by simp only [setTile16]
@[simp] theorem setTile16_pc (f : Nat → Pixel) (s : State) : (setTile16 f s).pc = s.pc := by simp only [setTile16]
@[simp] theorem setTile16_colPal (f : Nat → Pixel) (s : State) : (setTile16 f s).colPal = s.colPal := by simp only [setTile16]
@[simp] theorem setTile16_alphaPal (f : Nat → Pixel) (s : State) : (setTile16 f s).alphaPal = s.alphaPal :=
  by simp only [setTile16]
@[simp] theorem setTile16_etcBase (f : Nat → Pixel) (s : State) : (setTile16 f s).etcBase = s.etcBase :=
  by simp only [setTile16]
@[simp] theorem setTile16_etcPaint (f : Nat → Pixel) (s : State) : (setTile16 f s).etcPaint = s.etcPaint :=
  by simp only [setTile16]
@[simp] theorem setTile16_tex (f : Nat → Pixel) (s : State) : (setTile16 f s).tex = s.tex := by simp only [setTile16]
@[simp] theorem setTile16_mem (f : Nat → Pixel) (s : State) : (setTile16 f s).mem = s.mem := by simp only [setTile16]
@[simp] theorem setTile16_hostQ (f : Nat → Pixel) (s : State) : (setTile16 f s).hostQ = s.hostQ := by simp only [setTile16]
@[simp] theorem setTile16_rdata (f : Nat → Pixel) (s : State) : (setTile16 f s).rdata = s.rdata := by simp only [setTile16]
@[simp] theorem setTile16_hostStores (f : Nat → Pixel) (s : State) : (setTile16 f s).hostStores = s.hostStores :=
  by simp only [setTile16]
@[simp] theorem setTile16_atStart (f : Nat → Pixel) (s : State) : (setTile16 f s).atStart = s.atStart :=
  by simp only [setTile16]
@[simp] theorem setTile16_choices (f : Nat → Pixel) (s : State) : (setTile16 f s).choices = s.choices :=
  by simp only [setTile16]

/-! ### setTileRgb16 -/

@[simp] theorem setTileRgb16_cfg (f : Nat → Rgb) (s : State) : (setTileRgb16 f s).cfg = s.cfg :=
  by simp only [setTileRgb16, setTile16]
@[simp] theorem setTileRgb16_st (f : Nat → Rgb) (s : State) : (setTileRgb16 f s).st = s.st :=
  by simp only [setTileRgb16, setTile16]
@[simp] theorem setTileRgb16_err (f : Nat → Rgb) (s : State) : (setTileRgb16 f s).err = s.err :=
  by simp only [setTileRgb16, setTile16]
@[simp] theorem setTileRgb16_fmt (f : Nat → Rgb) (s : State) : (setTileRgb16 f s).fmt = s.fmt :=
  by simp only [setTileRgb16, setTile16]
@[simp] theorem setTileRgb16_is2 (f : Nat → Rgb) (s : State) : (setTileRgb16 f s).is2 = s.is2 :=
  by simp only [setTileRgb16, setTile16]
@[simp] theorem setTileRgb16_src (f : Nat → Rgb) (s : State) : (setTileRgb16 f s).src = s.src :=
  by simp only [setTileRgb16, setTile16]
@[simp] theorem setTileRgb16_len (f : Nat → Rgb) (s : State) : (setTileRgb16 f s).len = s.len :=
  by simp only [setTileRgb16, setTile16]
@[simp] theorem setTileRgb16_dst (f : Nat → Rgb) (s : State) : (setTileRgb16 f s).dst = s.dst :=
  by simp only [setTileRgb16, setTile16]
@[simp] theorem setTileRgb16_width (f : Nat → Rgb) (s : State) : (setTileRgb16 f s).width = s.width :=
  by simp only [setTileRgb16, setTile16]
@[simp] theorem setTileRgb16_height (f : Nat → Rgb) (s : State) : (setTileRgb16 f s).height = s.height :=
  by simp only [setTileRgb16, setTile16]
@[simp] theorem setTileRgb16_pc (f : Nat → Rgb) (s : State) : (setTileRgb16 f s).pc = s.pc :=
  by simp only [setTileRgb16, setTile16]
@[simp] theorem setTileRgb16_colPal (f : Nat → Rgb) (s : State) : (setTileRgb16 f s).colPal = s.colPal :=
  by simp only [setTileRgb16, setTile16]
@[simp] theorem setTileRgb16_alphaPal (f : Nat → Rgb) (s : State) : (setTileRgb16 f s).alphaPal = s.alphaPal :=
  by simp only [setTileRgb16, setTile16]
@[simp] theorem setTileRgb16_etcBase (f : Nat → Rgb) (s : State) : (setTileRgb16 f s).etcBase = s.etcBase :=
  by simp only [setTileRgb16, setTile16]
@[simp] theorem setTileRgb16_etcPaint (f : Nat → Rgb) (s : State) : (setTileRgb16 f s).etcPaint = s.etcPaint :=
  by simp only [setTileRgb16, setTile16]
@[simp] theorem setTileRgb16_tex (f : Nat → Rgb) (s : State) : (setTileRgb16 f s).tex = s.tex :=
  by simp only [setTileRgb16, setTile16]
@[simp] theorem setTileRgb16_mem (f : Nat → Rgb) (s : State) : (setTileRgb16 f s).mem = s.mem :=
  by simp only [setTileRgb16, setTile16]
@[simp] theorem setTileRgb16_hostQ (f : Nat → Rgb) (s : State) : (setTileRgb16 f s).hostQ = s.hostQ :=
  by simp only [setTileRgb16, setTile16]
@[simp] theorem setTileRgb16_rdata (f : Nat → Rgb) (s : State) : (setTileRgb16 f s).rdata = s.rdata :=
  by simp only [setTileRgb16, setTile16]
@[simp] theorem setTileRgb16_hostStores (f : Nat → Rgb) (s : State) : (setTileRgb16 f s).hostStores = s.hostStores :=
  by simp only [setTileRgb16, setTile16]
@[simp] theorem setTileRgb16_atStart (f : Nat → Rgb) (s : State) : (setTileRgb16 f s).atStart = s.atStart :=
  by simp only [setTileRgb16, setTile16]
@[simp] theorem setTileRgb16_choices (f : Nat → Rgb) (s : State) : (setTileRgb16 f s).choices = s.choices :=
  by simp only [setTileRgb16, setTile16]

/-! ### setTileAlpha16 -/

@[simp] theorem setTileAlpha16_cfg (f : Nat → Byte) (s : State) : (setTileAlpha16 f s).cfg = s.cfg :=
  by simp only [setTileAlpha16, setTile16]
@[simp] theorem setTileAlpha16_st (f : Nat → Byte) (s : State) : (setTileAlpha16 f s).st = s.st :=
  by simp only [setTileAlpha16, setTile16]
@[simp] theorem setTileAlpha16_err (f : Nat → Byte) (s : State) : (setTileAlpha16 f s).err = s.err :=
  by simp only [setTileAlpha16, setTile16]
@[simp] theorem setTileAlpha16_fmt (f : Nat → Byte) (s : State) : (setTileAlpha16 f s).fmt = s.fmt :=
  by simp only [setTileAlpha16, setTile16]
@[simp] theorem setTileAlpha16_is2 (f : Nat → Byte) (s : State) : (setTileAlpha16 f s).is2 = s.is2 :=
  by simp only [setTileAlpha16, setTile16]
@[simp] theorem setTileAlpha16_src (f : Nat → Byte) (s : State) : (setTileAlpha16 f s).src = s.src :=
  by simp only [setTileAlpha16, setTile16]
@[simp] theorem setTileAlpha16_len (f : Nat → Byte) (s : State) : (setTileAlpha16 f s).len = s.len :=
  by simp only [setTileAlpha16, setTile16]
@[simp] theorem setTileAlpha16_dst (f : Nat → Byte) (s : State) : (setTileAlpha16 f s).dst = s.dst :=
  by simp only [setTileAlpha16, setTile16]
@[simp] theorem setTileAlpha16_width (f : Nat → Byte) (s : State) : (setTileAlpha16 f s).width = s.width :=
  by simp only [setTileAlpha16, setTile16]
@[simp] theorem setTileAlpha16_height (f : Nat → Byte) (s : State) : (setTileAlpha16 f s).height = s.height :=
  by simp only [setTileAlpha16, setTile16]
@[simp] theorem setTileAlpha16_pc (f : Nat → Byte) (s : State) : (setTileAlpha16 f s).pc = s.pc :=
  by simp only [setTileAlpha16, setTile16]
@[simp] theorem setTileAlpha16_colPal (f : Nat → Byte) (s : State) : (setTileAlpha16 f s).colPal = s.colPal :=
  by simp only [setTileAlpha16, setTile16]
@[simp] theorem setTileAlpha16_alphaPal (f : Nat → Byte) (s : State) : (setTileAlpha16 f s).alphaPal = s.alphaPal :=
  by simp only [setTileAlpha16, setTile16]
@[simp] theorem setTileAlpha16_etcBase (f : Nat → Byte) (s : State) : (setTileAlpha16 f s).etcBase = s.etcBase :=
  by simp only [setTileAlpha16, setTile16]
@[simp] theorem setTileAlpha16_etcPaint (f : Nat → Byte) (s : State) : (setTileAlpha16 f s).etcPaint = s.etcPaint :=
  by simp only [setTileAlpha16, setTile16]
@[simp] theorem setTileAlpha16_tex (f : Nat → Byte) (s : State) : (setTileAlpha16 f s).tex = s.tex :=
  by simp only [setTileAlpha16, setTile16]
@[simp] theorem setTileAlpha16_mem (f : Nat → Byte) (s : State) : (setTileAlpha16 f s).mem = s.mem :=
  by simp only [setTileAlpha16, setTile16]
@[simp] theorem setTileAlpha16_hostQ (f : Nat → Byte) (s : State) : (setTileAlpha16 f s).hostQ = s.hostQ :=
  by simp only [setTileAlpha16, setTile16]
@[simp] theorem setTileAlpha16_rdata (f : Nat → Byte) (s : State) : (setTileAlpha16 f s).rdata = s.rdata :=
  by simp only [setTileAlpha16, setTile16]
@[simp] theorem setTileAlpha16_hostStores (f : Nat → Byte) (s : State) : (setTileAlpha16 f s).hostStores = s.hostStores :=
  by simp only [setTileAlpha16, setTile16]
@[simp] theorem setTileAlpha16_atStart (f : Nat → Byte) (s : State) : (setTileAlpha16 f s).atStart = s.atStart :=
  by simp only [setTileAlpha16, setTile16]
@[simp] theorem setTileAlpha16_choices (f : Nat → Byte) (s : State) : (setTileAlpha16 f s).choices = s.choices :=
  by simp only [setTileAlpha16, setTile16]

/-! ### setTile32 -/

@[simp] theorem setTile32_cfg (f : Nat → Pixel) (s : State) : (setTile32 f s).cfg = s.cfg := by simp only [setTile32]
@[simp] theorem setTile32_st (f : Nat → Pixel) (s : State) : (setTile32 f s).st = s.st := by simp only [setTile32]
@[simp] theorem setTile32_err (f : Nat → Pixel) (s : State) : (setTile32 f s).err = s.err := by simp only [setTile32]
@[simp] theorem setTile32_fmt (f : Nat → Pixel) (s : State) : (setTile32 f s).fmt = s.fmt := by simp only [setTile32]
@[simp] theorem setTile32_is2 (f : Nat → Pixel) (s : State) : (setTile32 f s).is2 = s.is2 := by simp only [setTile32]
@[simp] theorem setTile32_src (f : Nat → Pixel) (s : State) : (setTile32 f s).src = s.src := by simp only [setTile32]
@[simp] theorem setTile32_len (f : Nat → Pixel) (s : State) : (setTile32 f s).len = s.len := by simp only [setTile32]
@[simp] theorem setTile32_dst (f : Nat → Pixel) (s : State) : (setTile32 f s).dst = s.dst := by simp only [setTile32]
@[simp] theorem setTile32_width (f : Nat → Pixel) (s : State) : (setTile32 f s).width = s.width := by simp only [setTile32]
@[simp] theorem setTile32_height (f : Nat → Pixel) (s : State) : (setTile32 f s).height = s.height := by simp only [setTile32]
@[simp] theorem setTile32_pc (f : Nat → Pixel) (s : State) : (setTile32 f s).pc = s.pc := by simp only [setTile32]
@[simp] theorem setTile32_colPal (f : Nat → Pixel) (s : State) : (setTile32 f s).colPal = s.colPal := by simp only [setTile32]
@[simp] theorem setTile32_alphaPal (f : Nat → Pixel) (s : State) : (setTile32 f s).alphaPal = s.alphaPal :=
  by simp only [setTile32]
@[simp] theorem setTile32_etcBase (f : Nat → Pixel) (s : State) : (setTile32 f s).etcBase = s.etcBase :=
  by simp only [setTile32]
@[simp] theorem setTile32_etcPaint (f : Nat → Pixel) (s : State) : (setTile32 f s).etcPaint = s.etcPaint :=
  by simp only [setTile32]
@[simp] theorem setTile32_tex (f : Nat → Pixel) (s : State) : (setTile32 f s).tex = s.tex := by simp only [setTile32]
@[simp] theorem setTile32_mem (f : Nat → Pixel) (s : State) : (setTile32 f s).mem = s.mem := by simp only [setTile32]
@[simp] theorem setTile32_hostQ (f : Nat → Pixel) (s : State) : (setTile32 f s).hostQ = s.hostQ := by simp only [setTile32]
@[simp] theorem setTile32_rdata (f : Nat → Pixel) (s : State) : (setTile32 f s).rdata = s.rdata := by simp only [setTile32]
@[simp] theorem setTile32_hostStores (f : Nat → Pixel) (s : State) : (setTile32 f s).hostStores = s.hostStores :=
  by simp only [setTile32]
@[simp] theorem setTile32_atStart (f : Nat → Pixel) (s : State) : (setTile32 f s).atStart = s.atStart :=
  by simp only [setTile32]
@[simp] theorem setTile32_choices (f : Nat → Pixel) (s : State) : (setTile32 f s).choices = s.choices :=
  by simp only [setTile32]

/-! ### updateTex -/

@[simp] theorem updateTex_cfg (f : TexelInfo → TexelInfo) (s : State) : (updateTex f s).cfg = s.cfg := rfl
@[simp] theorem updateTex_st (f : TexelInfo → TexelInfo) (s : State) : (updateTex f s).st = s.st := rfl
@[simp] theorem updateTex_err (f : TexelInfo → TexelInfo) (s : State) : (updateTex f s).err = s.err := rfl
@[simp] theorem updateTex_fmt (f : TexelInfo → TexelInfo) (s : State) : (updateTex f s).fmt = s.fmt := rfl
@[simp] theorem updateTex_is2 (f : TexelInfo → TexelInfo) (s : State) : (updateTex f s).is2 = s.is2 := rfl
@[simp] theorem updateTex_src (f : TexelInfo → TexelInfo) (s : State) : (updateTex f s).src = s.src := rfl
@[simp] theorem updateTex_len (f : TexelInfo → TexelInfo) (s : State) : (updateTex f s).len = s.len := rfl
@[simp] theorem updateTex_dst (f : TexelInfo → TexelInfo) (s : State) : (updateTex f s).dst = s.dst := rfl
@[simp] theorem updateTex_width (f : TexelInfo → TexelInfo) (s : State) : (updateTex f s).width = s.width := rfl
@[simp] theorem updateTex_height (f : TexelInfo → TexelInfo) (s : State) : (updateTex f s).height = s.height := rfl
@[simp] theorem updateTex_pc (f : TexelInfo → TexelInfo) (s : State) : (updateTex f s).pc = s.pc := rfl
@[simp] theorem updateTex_tile (f : TexelInfo → TexelInfo) (s : State) : (updateTex f s).tile = s.tile := rfl
@[simp] theorem updateTex_colPal (f : TexelInfo → TexelInfo) (s : State) : (updateTex f s).colPal = s.colPal := rfl
@[simp] theorem updateTex_alphaPal (f : TexelInfo → TexelInfo) (s : State) : (updateTex f s).alphaPal = s.alphaPal := rfl
@[simp] theorem updateTex_etcBase (f : TexelInfo → TexelInfo) (s : State) : (updateTex f s).etcBase = s.etcBase := rfl
@[simp] theorem updateTex_etcPaint (f : TexelInfo → TexelInfo) (s : State) : (updateTex f s).etcPaint = s.etcPaint := rfl
@[simp] theorem updateTex_tex (f : TexelInfo → TexelInfo) (s : State) :
    (updateTex f s).tex = texWrite s.tex s.pc.k (f (texRead s.tex s.pc.k)) :=
  rfl
@[simp] theorem updateTex_mem (f : TexelInfo → TexelInfo) (s : State) : (updateTex f s).mem = s.mem := rfl
@[simp] theorem updateTex_hostQ (f : TexelInfo → TexelInfo) (s : State) : (updateTex f s).hostQ = s.hostQ := rfl
@[simp] theorem updateTex_rdata (f : TexelInfo → TexelInfo) (s : State) : (updateTex f s).rdata = s.rdata := rfl
@[simp] theorem updateTex_hostStores (f : TexelInfo → TexelInfo) (s : State) : (updateTex f s).hostStores = s.hostStores := rfl
@[simp] theorem updateTex_atStart (f : TexelInfo → TexelInfo) (s : State) : (updateTex f s).atStart = s.atStart := rfl
@[simp] theorem updateTex_choices (f : TexelInfo → TexelInfo) (s : State) : (updateTex f s).choices = s.choices := rfl

/-! ### finishWalk -/

@[simp] theorem finishWalk_cfg (g : Grid) (s : State) : (finishWalk g s).cfg = s.cfg := rfl
@[simp] theorem finishWalk_st (g : Grid) (s : State) :
    (finishWalk g s).st = if (advance g s.pc).t = g.nby then .done else s.st :=
  rfl
@[simp] theorem finishWalk_err (g : Grid) (s : State) : (finishWalk g s).err = s.err := rfl
@[simp] theorem finishWalk_fmt (g : Grid) (s : State) : (finishWalk g s).fmt = s.fmt := rfl
@[simp] theorem finishWalk_is2 (g : Grid) (s : State) : (finishWalk g s).is2 = s.is2 := rfl
@[simp] theorem finishWalk_src (g : Grid) (s : State) : (finishWalk g s).src = s.src := rfl
@[simp] theorem finishWalk_len (g : Grid) (s : State) : (finishWalk g s).len = s.len := rfl
@[simp] theorem finishWalk_dst (g : Grid) (s : State) : (finishWalk g s).dst = s.dst := rfl
@[simp] theorem finishWalk_width (g : Grid) (s : State) : (finishWalk g s).width = s.width := rfl
@[simp] theorem finishWalk_height (g : Grid) (s : State) : (finishWalk g s).height = s.height := rfl
@[simp] theorem finishWalk_pc (g : Grid) (s : State) : (finishWalk g s).pc = advance g s.pc := rfl
@[simp] theorem finishWalk_tile (g : Grid) (s : State) : (finishWalk g s).tile = s.tile := rfl
@[simp] theorem finishWalk_colPal (g : Grid) (s : State) : (finishWalk g s).colPal = s.colPal := rfl
@[simp] theorem finishWalk_alphaPal (g : Grid) (s : State) : (finishWalk g s).alphaPal = s.alphaPal := rfl
@[simp] theorem finishWalk_etcBase (g : Grid) (s : State) : (finishWalk g s).etcBase = s.etcBase := rfl
@[simp] theorem finishWalk_etcPaint (g : Grid) (s : State) : (finishWalk g s).etcPaint = s.etcPaint := rfl
@[simp] theorem finishWalk_tex (g : Grid) (s : State) : (finishWalk g s).tex = s.tex := rfl
@[simp] theorem finishWalk_mem (g : Grid) (s : State) : (finishWalk g s).mem = storeTile g s := rfl
@[simp] theorem finishWalk_hostQ (g : Grid) (s : State) : (finishWalk g s).hostQ = s.hostQ := rfl
@[simp] theorem finishWalk_rdata (g : Grid) (s : State) : (finishWalk g s).rdata = s.rdata := rfl
@[simp] theorem finishWalk_hostStores (g : Grid) (s : State) :
    (finishWalk g s).hostStores = if (advance g s.pc).t = g.nby then [] else s.hostStores :=
  rfl
@[simp] theorem finishWalk_atStart (g : Grid) (s : State) : (finishWalk g s).atStart = s.atStart := rfl
@[simp] theorem finishWalk_choices (g : Grid) (s : State) : (finishWalk g s).choices = s.choices + g.bb + s.hostStores.length :=
  rfl

/-! ### finishExpand -/

@[simp] theorem finishExpand_cfg (g : Grid) (s : State) : (finishExpand g s).cfg = s.cfg := rfl
@[simp] theorem finishExpand_st (g : Grid) (s : State) : (finishExpand g s).st = s.st := rfl
@[simp] theorem finishExpand_err (g : Grid) (s : State) : (finishExpand g s).err = s.err := rfl
@[simp] theorem finishExpand_fmt (g : Grid) (s : State) : (finishExpand g s).fmt = s.fmt := rfl
@[simp] theorem finishExpand_is2 (g : Grid) (s : State) : (finishExpand g s).is2 = s.is2 := rfl
@[simp] theorem finishExpand_src (g : Grid) (s : State) : (finishExpand g s).src = s.src := rfl
@[simp] theorem finishExpand_len (g : Grid) (s : State) : (finishExpand g s).len = s.len := rfl
@[simp] theorem finishExpand_dst (g : Grid) (s : State) : (finishExpand g s).dst = s.dst := rfl
@[simp] theorem finishExpand_width (g : Grid) (s : State) : (finishExpand g s).width = s.width := rfl
@[simp] theorem finishExpand_height (g : Grid) (s : State) : (finishExpand g s).height = s.height := rfl
@[simp] theorem finishExpand_pc (g : Grid) (s : State) : (finishExpand g s).pc = advanceExpand g s.pc := rfl
@[simp] theorem finishExpand_tile (g : Grid) (s : State) : (finishExpand g s).tile = s.tile := rfl
@[simp] theorem finishExpand_colPal (g : Grid) (s : State) : (finishExpand g s).colPal = s.colPal := rfl
@[simp] theorem finishExpand_alphaPal (g : Grid) (s : State) : (finishExpand g s).alphaPal = s.alphaPal := rfl
@[simp] theorem finishExpand_etcBase (g : Grid) (s : State) : (finishExpand g s).etcBase = s.etcBase := rfl
@[simp] theorem finishExpand_etcPaint (g : Grid) (s : State) : (finishExpand g s).etcPaint = s.etcPaint := rfl
@[simp] theorem finishExpand_tex (g : Grid) (s : State) : (finishExpand g s).tex = s.tex := rfl
@[simp] theorem finishExpand_mem (g : Grid) (s : State) : (finishExpand g s).mem = s.mem := rfl
@[simp] theorem finishExpand_hostQ (g : Grid) (s : State) : (finishExpand g s).hostQ = s.hostQ := rfl
@[simp] theorem finishExpand_rdata (g : Grid) (s : State) : (finishExpand g s).rdata = s.rdata := rfl
@[simp] theorem finishExpand_hostStores (g : Grid) (s : State) : (finishExpand g s).hostStores = s.hostStores := rfl
@[simp] theorem finishExpand_atStart (g : Grid) (s : State) : (finishExpand g s).atStart = s.atStart := rfl
@[simp] theorem finishExpand_choices (g : Grid) (s : State) : (finishExpand g s).choices = s.choices + g.bb := rfl

/-! ### hostRead -/

@[simp] theorem hostRead_cfg (i : Fin 8) (s : State) : (hostRead i s).cfg = s.cfg := rfl
@[simp] theorem hostRead_st (i : Fin 8) (s : State) : (hostRead i s).st = s.st := rfl
@[simp] theorem hostRead_err (i : Fin 8) (s : State) : (hostRead i s).err = s.err := rfl
@[simp] theorem hostRead_fmt (i : Fin 8) (s : State) : (hostRead i s).fmt = s.fmt := rfl
@[simp] theorem hostRead_is2 (i : Fin 8) (s : State) : (hostRead i s).is2 = s.is2 := rfl
@[simp] theorem hostRead_src (i : Fin 8) (s : State) : (hostRead i s).src = s.src := rfl
@[simp] theorem hostRead_len (i : Fin 8) (s : State) : (hostRead i s).len = s.len := rfl
@[simp] theorem hostRead_dst (i : Fin 8) (s : State) : (hostRead i s).dst = s.dst := rfl
@[simp] theorem hostRead_width (i : Fin 8) (s : State) : (hostRead i s).width = s.width := rfl
@[simp] theorem hostRead_height (i : Fin 8) (s : State) : (hostRead i s).height = s.height := rfl
@[simp] theorem hostRead_pc (i : Fin 8) (s : State) : (hostRead i s).pc = s.pc := rfl
@[simp] theorem hostRead_tile (i : Fin 8) (s : State) : (hostRead i s).tile = s.tile := rfl
@[simp] theorem hostRead_colPal (i : Fin 8) (s : State) : (hostRead i s).colPal = s.colPal := rfl
@[simp] theorem hostRead_alphaPal (i : Fin 8) (s : State) : (hostRead i s).alphaPal = s.alphaPal := rfl
@[simp] theorem hostRead_etcBase (i : Fin 8) (s : State) : (hostRead i s).etcBase = s.etcBase := rfl
@[simp] theorem hostRead_etcPaint (i : Fin 8) (s : State) : (hostRead i s).etcPaint = s.etcPaint := rfl
@[simp] theorem hostRead_tex (i : Fin 8) (s : State) : (hostRead i s).tex = s.tex := rfl
@[simp] theorem hostRead_mem (i : Fin 8) (s : State) : (hostRead i s).mem = s.mem := rfl
@[simp] theorem hostRead_hostQ (i : Fin 8) (s : State) : (hostRead i s).hostQ = s.hostQ := rfl
@[simp] theorem hostRead_rdata (i : Fin 8) (s : State) : (hostRead i s).rdata = readReg s i := rfl
@[simp] theorem hostRead_hostStores (i : Fin 8) (s : State) : (hostRead i s).hostStores = s.hostStores := rfl
@[simp] theorem hostRead_atStart (i : Fin 8) (s : State) : (hostRead i s).atStart = s.atStart := rfl
@[simp] theorem hostRead_choices (i : Fin 8) (s : State) : (hostRead i s).choices = s.choices := rfl

/-! ### storeState -/

@[simp] theorem storeState_cfg (a : Nat) (b : Byte) (s : State) : (storeState a b s).cfg = s.cfg := by
  unfold storeState; split <;> [rfl; (split <;> rfl)]
@[simp] theorem storeState_st (a : Nat) (b : Byte) (s : State) : (storeState a b s).st = s.st := by
  unfold storeState; split <;> [rfl; (split <;> rfl)]
@[simp] theorem storeState_err (a : Nat) (b : Byte) (s : State) : (storeState a b s).err = s.err := by
  unfold storeState; split <;> [rfl; (split <;> rfl)]
@[simp] theorem storeState_fmt (a : Nat) (b : Byte) (s : State) : (storeState a b s).fmt = s.fmt := by
  unfold storeState; split <;> [rfl; (split <;> rfl)]
@[simp] theorem storeState_is2 (a : Nat) (b : Byte) (s : State) : (storeState a b s).is2 = s.is2 := by
  unfold storeState; split <;> [rfl; (split <;> rfl)]
@[simp] theorem storeState_src (a : Nat) (b : Byte) (s : State) : (storeState a b s).src = s.src := by
  unfold storeState; split <;> [rfl; (split <;> rfl)]
@[simp] theorem storeState_len (a : Nat) (b : Byte) (s : State) : (storeState a b s).len = s.len := by
  unfold storeState; split <;> [rfl; (split <;> rfl)]
@[simp] theorem storeState_dst (a : Nat) (b : Byte) (s : State) : (storeState a b s).dst = s.dst := by
  unfold storeState; split <;> [rfl; (split <;> rfl)]
@[simp] theorem storeState_width (a : Nat) (b : Byte) (s : State) : (storeState a b s).width = s.width := by
  unfold storeState; split <;> [rfl; (split <;> rfl)]
@[simp] theorem storeState_height (a : Nat) (b : Byte) (s : State) : (storeState a b s).height = s.height := by
  unfold storeState; split <;> [rfl; (split <;> rfl)]
@[simp] theorem storeState_pc (a : Nat) (b : Byte) (s : State) : (storeState a b s).pc = s.pc := by
  unfold storeState; split <;> [rfl; (split <;> rfl)]
@[simp] theorem storeState_tile (a : Nat) (b : Byte) (s : State) : (storeState a b s).tile = s.tile := by
  unfold storeState; split <;> [rfl; (split <;> rfl)]
@[simp] theorem storeState_colPal (a : Nat) (b : Byte) (s : State) : (storeState a b s).colPal = s.colPal := by
  unfold storeState; split <;> [rfl; (split <;> rfl)]
@[simp] theorem storeState_alphaPal (a : Nat) (b : Byte) (s : State) : (storeState a b s).alphaPal = s.alphaPal := by
  unfold storeState; split <;> [rfl; (split <;> rfl)]
@[simp] theorem storeState_etcBase (a : Nat) (b : Byte) (s : State) : (storeState a b s).etcBase = s.etcBase := by
  unfold storeState; split <;> [rfl; (split <;> rfl)]
@[simp] theorem storeState_etcPaint (a : Nat) (b : Byte) (s : State) : (storeState a b s).etcPaint = s.etcPaint := by
  unfold storeState; split <;> [rfl; (split <;> rfl)]
@[simp] theorem storeState_tex (a : Nat) (b : Byte) (s : State) : (storeState a b s).tex = s.tex := by
  unfold storeState; split <;> [rfl; (split <;> rfl)]
@[simp] theorem storeState_hostQ (a : Nat) (b : Byte) (s : State) : (storeState a b s).hostQ = s.hostQ := by
  unfold storeState; split <;> [rfl; (split <;> rfl)]
@[simp] theorem storeState_rdata (a : Nat) (b : Byte) (s : State) : (storeState a b s).rdata = s.rdata := by
  unfold storeState; split <;> [rfl; (split <;> rfl)]
@[simp] theorem storeState_atStart (a : Nat) (b : Byte) (s : State) : (storeState a b s).atStart = s.atStart := by
  unfold storeState; split <;> [rfl; (split <;> rfl)]

/-! ### loadState -/

@[simp] theorem loadState_cfg (a : Nat) (s : State) : (loadState a s).cfg = s.cfg := by
  unfold loadState; split <;> rfl
@[simp] theorem loadState_st (a : Nat) (s : State) : (loadState a s).st = s.st := by
  unfold loadState; split <;> rfl
@[simp] theorem loadState_err (a : Nat) (s : State) : (loadState a s).err = s.err := by
  unfold loadState; split <;> rfl
@[simp] theorem loadState_fmt (a : Nat) (s : State) : (loadState a s).fmt = s.fmt := by
  unfold loadState; split <;> rfl
@[simp] theorem loadState_is2 (a : Nat) (s : State) : (loadState a s).is2 = s.is2 := by
  unfold loadState; split <;> rfl
@[simp] theorem loadState_src (a : Nat) (s : State) : (loadState a s).src = s.src := by
  unfold loadState; split <;> rfl
@[simp] theorem loadState_len (a : Nat) (s : State) : (loadState a s).len = s.len := by
  unfold loadState; split <;> rfl
@[simp] theorem loadState_dst (a : Nat) (s : State) : (loadState a s).dst = s.dst := by
  unfold loadState; split <;> rfl
@[simp] theorem loadState_width (a : Nat) (s : State) : (loadState a s).width = s.width := by
  unfold loadState; split <;> rfl
@[simp] theorem loadState_height (a : Nat) (s : State) : (loadState a s).height = s.height := by
  unfold loadState; split <;> rfl
@[simp] theorem loadState_pc (a : Nat) (s : State) : (loadState a s).pc = s.pc := by
  unfold loadState; split <;> rfl
@[simp] theorem loadState_tile (a : Nat) (s : State) : (loadState a s).tile = s.tile := by
  unfold loadState; split <;> rfl
@[simp] theorem loadState_colPal (a : Nat) (s : State) : (loadState a s).colPal = s.colPal := by
  unfold loadState; split <;> rfl
@[simp] theorem loadState_alphaPal (a : Nat) (s : State) : (loadState a s).alphaPal = s.alphaPal := by
  unfold loadState; split <;> rfl
@[simp] theorem loadState_etcBase (a : Nat) (s : State) : (loadState a s).etcBase = s.etcBase := by
  unfold loadState; split <;> rfl
@[simp] theorem loadState_etcPaint (a : Nat) (s : State) : (loadState a s).etcPaint = s.etcPaint := by
  unfold loadState; split <;> rfl
@[simp] theorem loadState_tex (a : Nat) (s : State) : (loadState a s).tex = s.tex := by
  unfold loadState; split <;> rfl
@[simp] theorem loadState_mem (a : Nat) (s : State) : (loadState a s).mem = s.mem := by
  unfold loadState; split <;> rfl
@[simp] theorem loadState_hostQ (a : Nat) (s : State) : (loadState a s).hostQ = s.hostQ := by
  unfold loadState; split <;> rfl
@[simp] theorem loadState_hostStores (a : Nat) (s : State) : (loadState a s).hostStores = s.hostStores := by
  unfold loadState; split <;> rfl
@[simp] theorem loadState_atStart (a : Nat) (s : State) : (loadState a s).atStart = s.atStart := by
  unfold loadState; split <;> rfl

/-! ### abandonOutput -/

@[simp] theorem abandonOutput_cfg (s : State) : (abandonOutput s).cfg = s.cfg := by
  unfold abandonOutput; split <;> rfl
@[simp] theorem abandonOutput_st (s : State) : (abandonOutput s).st = s.st := by
  unfold abandonOutput; split <;> rfl
@[simp] theorem abandonOutput_err (s : State) : (abandonOutput s).err = s.err := by
  unfold abandonOutput; split <;> rfl
@[simp] theorem abandonOutput_fmt (s : State) : (abandonOutput s).fmt = s.fmt := by
  unfold abandonOutput; split <;> rfl
@[simp] theorem abandonOutput_is2 (s : State) : (abandonOutput s).is2 = s.is2 := by
  unfold abandonOutput; split <;> rfl
@[simp] theorem abandonOutput_src (s : State) : (abandonOutput s).src = s.src := by
  unfold abandonOutput; split <;> rfl
@[simp] theorem abandonOutput_len (s : State) : (abandonOutput s).len = s.len := by
  unfold abandonOutput; split <;> rfl
@[simp] theorem abandonOutput_dst (s : State) : (abandonOutput s).dst = s.dst := by
  unfold abandonOutput; split <;> rfl
@[simp] theorem abandonOutput_width (s : State) : (abandonOutput s).width = s.width := by
  unfold abandonOutput; split <;> rfl
@[simp] theorem abandonOutput_height (s : State) : (abandonOutput s).height = s.height := by
  unfold abandonOutput; split <;> rfl
@[simp] theorem abandonOutput_pc (s : State) : (abandonOutput s).pc = s.pc := by
  unfold abandonOutput; split <;> rfl
@[simp] theorem abandonOutput_tile (s : State) : (abandonOutput s).tile = s.tile := by
  unfold abandonOutput; split <;> rfl
@[simp] theorem abandonOutput_colPal (s : State) : (abandonOutput s).colPal = s.colPal := by
  unfold abandonOutput; split <;> rfl
@[simp] theorem abandonOutput_alphaPal (s : State) : (abandonOutput s).alphaPal = s.alphaPal := by
  unfold abandonOutput; split <;> rfl
@[simp] theorem abandonOutput_etcBase (s : State) : (abandonOutput s).etcBase = s.etcBase := by
  unfold abandonOutput; split <;> rfl
@[simp] theorem abandonOutput_etcPaint (s : State) : (abandonOutput s).etcPaint = s.etcPaint := by
  unfold abandonOutput; split <;> rfl
@[simp] theorem abandonOutput_tex (s : State) : (abandonOutput s).tex = s.tex := by
  unfold abandonOutput; split <;> rfl
@[simp] theorem abandonOutput_hostQ (s : State) : (abandonOutput s).hostQ = s.hostQ := by
  unfold abandonOutput; split <;> rfl
@[simp] theorem abandonOutput_rdata (s : State) : (abandonOutput s).rdata = s.rdata := by
  unfold abandonOutput; split <;> rfl
@[simp] theorem abandonOutput_hostStores (s : State) : (abandonOutput s).hostStores = s.hostStores := by
  unfold abandonOutput; split <;> rfl
@[simp] theorem abandonOutput_atStart (s : State) : (abandonOutput s).atStart = s.atStart := by
  unfold abandonOutput; split <;> rfl

/-! ### clearUnit -/

@[simp] theorem clearUnit_cfg (s : State) : (clearUnit s).cfg = s.cfg := rfl
@[simp] theorem clearUnit_st (s : State) : (clearUnit s).st = State.reset.st := rfl
@[simp] theorem clearUnit_err (s : State) : (clearUnit s).err = State.reset.err := rfl
@[simp] theorem clearUnit_fmt (s : State) : (clearUnit s).fmt = State.reset.fmt := rfl
@[simp] theorem clearUnit_is2 (s : State) : (clearUnit s).is2 = State.reset.is2 := rfl
@[simp] theorem clearUnit_src (s : State) : (clearUnit s).src = State.reset.src := rfl
@[simp] theorem clearUnit_len (s : State) : (clearUnit s).len = State.reset.len := rfl
@[simp] theorem clearUnit_dst (s : State) : (clearUnit s).dst = State.reset.dst := rfl
@[simp] theorem clearUnit_width (s : State) : (clearUnit s).width = State.reset.width := rfl
@[simp] theorem clearUnit_height (s : State) : (clearUnit s).height = State.reset.height := rfl
@[simp] theorem clearUnit_pc (s : State) : (clearUnit s).pc = State.reset.pc := rfl
@[simp] theorem clearUnit_tile (s : State) : (clearUnit s).tile = State.reset.tile := rfl
@[simp] theorem clearUnit_colPal (s : State) : (clearUnit s).colPal = State.reset.colPal := rfl
@[simp] theorem clearUnit_alphaPal (s : State) : (clearUnit s).alphaPal = State.reset.alphaPal := rfl
@[simp] theorem clearUnit_etcBase (s : State) : (clearUnit s).etcBase = State.reset.etcBase := rfl
@[simp] theorem clearUnit_etcPaint (s : State) : (clearUnit s).etcPaint = State.reset.etcPaint := rfl
@[simp] theorem clearUnit_tex (s : State) : (clearUnit s).tex = State.reset.tex := rfl
@[simp] theorem clearUnit_mem (s : State) : (clearUnit s).mem = s.mem := rfl
@[simp] theorem clearUnit_hostQ (s : State) : (clearUnit s).hostQ = s.hostQ := rfl
@[simp] theorem clearUnit_rdata (s : State) : (clearUnit s).rdata = s.rdata := rfl
@[simp] theorem clearUnit_hostStores (s : State) : (clearUnit s).hostStores = State.reset.hostStores := rfl
@[simp] theorem clearUnit_atStart (s : State) : (clearUnit s).atStart = State.reset.atStart := rfl
@[simp] theorem clearUnit_choices (s : State) : (clearUnit s).choices = s.choices := rfl

/-! ### resetUnit -/

@[simp] theorem resetUnit_cfg (s : State) : (resetUnit s).cfg = s.cfg := by
  simp [resetUnit]
@[simp] theorem resetUnit_st (s : State) : (resetUnit s).st = State.reset.st := by
  simp [resetUnit]
@[simp] theorem resetUnit_err (s : State) : (resetUnit s).err = State.reset.err := by
  simp [resetUnit]
@[simp] theorem resetUnit_fmt (s : State) : (resetUnit s).fmt = State.reset.fmt := by
  simp [resetUnit]
@[simp] theorem resetUnit_is2 (s : State) : (resetUnit s).is2 = State.reset.is2 := by
  simp [resetUnit]
@[simp] theorem resetUnit_src (s : State) : (resetUnit s).src = State.reset.src := by
  simp [resetUnit]
@[simp] theorem resetUnit_len (s : State) : (resetUnit s).len = State.reset.len := by
  simp [resetUnit]
@[simp] theorem resetUnit_dst (s : State) : (resetUnit s).dst = State.reset.dst := by
  simp [resetUnit]
@[simp] theorem resetUnit_width (s : State) : (resetUnit s).width = State.reset.width := by
  simp [resetUnit]
@[simp] theorem resetUnit_height (s : State) : (resetUnit s).height = State.reset.height := by
  simp [resetUnit]
@[simp] theorem resetUnit_pc (s : State) : (resetUnit s).pc = State.reset.pc := by
  simp [resetUnit]
@[simp] theorem resetUnit_tile (s : State) : (resetUnit s).tile = State.reset.tile := by
  simp [resetUnit]
@[simp] theorem resetUnit_colPal (s : State) : (resetUnit s).colPal = State.reset.colPal := by
  simp [resetUnit]
@[simp] theorem resetUnit_alphaPal (s : State) : (resetUnit s).alphaPal = State.reset.alphaPal := by
  simp [resetUnit]
@[simp] theorem resetUnit_etcBase (s : State) : (resetUnit s).etcBase = State.reset.etcBase := by
  simp [resetUnit]
@[simp] theorem resetUnit_etcPaint (s : State) : (resetUnit s).etcPaint = State.reset.etcPaint := by
  simp [resetUnit]
@[simp] theorem resetUnit_tex (s : State) : (resetUnit s).tex = State.reset.tex := by
  simp [resetUnit]
@[simp] theorem resetUnit_mem (s : State) : (resetUnit s).mem = (abandonOutput s).mem := by
  simp [resetUnit]
@[simp] theorem resetUnit_hostQ (s : State) : (resetUnit s).hostQ = s.hostQ := by
  simp [resetUnit]
@[simp] theorem resetUnit_rdata (s : State) : (resetUnit s).rdata = s.rdata := by
  simp [resetUnit]
@[simp] theorem resetUnit_hostStores (s : State) : (resetUnit s).hostStores = State.reset.hostStores := by
  simp [resetUnit]
@[simp] theorem resetUnit_atStart (s : State) : (resetUnit s).atStart = State.reset.atStart := by
  simp [resetUnit]
@[simp] theorem resetUnit_choices (s : State) : (resetUnit s).choices = (abandonOutput s).choices := by
  simp [resetUnit]

end Sys2Proof.Machine
end

