-- ==== Sys2Proof/Laws/Memory.lean ====
section
/-! SUPPORT. The laws of memory: read after write, and that every memory operation keeps the canonical form. -/

namespace Sys2Proof.Machine

open Sys2Proof

/-- An address below every entry reads as unlisted. -/
theorem Memory.read_of_lt {m : Memory} {a : Nat} (h : ∀ c ∈ m, a < c.1) : m.read a = Memory.unlisted := by
  induction m with
  | nil => rfl
  | cons c m ih =>
    obtain ⟨k, v⟩ := c
    have hk := h (k, v) (by simp)
    have : ¬ k = a := by simp at hk; omega
    simp only [Memory.read, if_neg this]
    exact ih fun c hc => h c (List.mem_cons_of_mem _ hc)

/-- Every entry of a written memory is the new one or an old one. -/
theorem Memory.mem_write {m : Memory} {a : Nat} {b : Byte} {c : Host.Cell} (h : c ∈ m.write a b) :
    c ∈ m ∨ (c = (a, b) ∧ b ≠ Memory.unlisted) := by
  induction m with
  | nil =>
    simp only [Memory.write] at h
    split at h
    · simp at h
    · simp at h; exact .inr ⟨h, by assumption⟩
  | cons d m ih =>
    obtain ⟨k, v⟩ := d
    simp only [Memory.write] at h
    split at h
    · split at h
      · exact .inl h
      · rcases List.mem_cons.1 h with h | h
        · exact .inr ⟨h, by assumption⟩
        · exact .inl h
    · split at h
      · split at h
        · exact .inl (List.mem_cons_of_mem _ h)
        · rcases List.mem_cons.1 h with h | h
          · exact .inr ⟨h, by assumption⟩
          · exact .inl (List.mem_cons_of_mem _ h)
      · rcases List.mem_cons.1 h with h | h
        · exact .inl (by rw [h]; exact List.mem_cons_self)
        · rcases ih h with h | h
          · exact .inl (List.mem_cons_of_mem _ h)
          · exact .inr h

theorem Memory.pairwise_write {m : Memory} (h : m.Pairwise (fun c d => c.1 < d.1)) (a : Nat) (b : Byte) :
    (m.write a b).Pairwise (fun c d => c.1 < d.1) := by
  induction m with
  | nil => simp only [Memory.write]; split <;> simp
  | cons d m ih =>
    obtain ⟨k, v⟩ := d
    rw [List.pairwise_cons] at h
    simp only [Memory.write]
    split
    · rename_i hlt
      split
      · exact List.pairwise_cons.2 h
      · refine List.pairwise_cons.2 ⟨fun c hc => ?_, List.pairwise_cons.2 h⟩
        rcases List.mem_cons.1 hc with rfl | hc
        · exact hlt
        · exact Nat.lt_trans hlt (h.1 c hc)
    · rename_i hlt
      split
      · rename_i heq
        subst heq
        split
        · exact h.2
        · exact List.pairwise_cons.2 ⟨h.1, h.2⟩
      · rename_i hne
        refine List.pairwise_cons.2 ⟨fun c hc => ?_, ih h.2⟩
        rcases Memory.mem_write hc with hc | ⟨rfl, _⟩
        · exact h.1 c hc
        · show k < a
          omega

/-- A write inside the address space keeps the canonical form. -/
theorem Memory.wf_write {m : Memory} (h : m.wf) {a : Nat} (ha : a < 2 ^ 32) (b : Byte) : (m.write a b).wf := by
  refine ⟨Memory.pairwise_write h.1 a b, fun c hc => ?_⟩
  rcases Memory.mem_write hc with hc | ⟨rfl, hb⟩
  · exact h.2 c hc
  · exact ⟨hb, ha⟩

/-- A run of writes inside the address space keeps the canonical form. -/
theorem Memory.wf_writeBytes {m : Memory} (h : m.wf) {a : Nat} {bs : List Byte} (ha : a + bs.length ≤ 2 ^ 32) :
    (m.writeBytes a bs).wf := by
  induction bs generalizing m a with
  | nil => exact h
  | cons b bs ih =>
    simp only [List.length_cons] at ha
    exact ih (Memory.wf_write h (by omega) b) (by omega)

/-- Read after write. -/
theorem Memory.read_write {m : Memory} (h : m.Pairwise (fun c d => c.1 < d.1)) (a a' : Nat) (b : Byte) :
    (m.write a b).read a' = if a' = a then b else m.read a' := by
  induction m with
  | nil =>
    simp only [Memory.write]
    split
    · rename_i hb
      simp only [Memory.read]
      split
      · exact hb.symm
      · rfl
    · simp only [Memory.read]
      by_cases haa : a = a' <;> simp [haa, eq_comm]
  | cons d m ih =>
    obtain ⟨k, v⟩ := d
    rw [List.pairwise_cons] at h
    simp only [Memory.write]
    split
    · rename_i hlt
      split
      · rename_i hb
        split
        · rename_i haa
          rw [haa, hb]
          refine Memory.read_of_lt fun c hc => ?_
          rcases List.mem_cons.1 hc with rfl | hc
          · exact hlt
          · exact Nat.lt_trans hlt (h.1 c hc)
        · rfl
      · simp only [Memory.read]
        by_cases haa : a = a' <;> simp [haa, eq_comm]
    · rename_i hlt
      split
      · rename_i heq
        subst heq
        split
        · rename_i hb
          by_cases hkk : a' = a
          · rw [if_pos hkk, hkk, hb]
            exact Memory.read_of_lt h.1
          · simp only [if_neg hkk, Memory.read, if_neg (Ne.symm hkk)]
        · simp only [Memory.read]
          by_cases hkk : a = a' <;> simp [hkk, eq_comm]
      · rename_i hne
        simp only [Memory.read, ih h.2]
        by_cases hkk : k = a'
        · subst hkk
          simp [Ne.symm hne]
        · simp [hkk]

theorem Memory.read_write_same {m : Memory} (h : m.wf) (a : Nat) (b : Byte) : (m.write a b).read a = b := by
  simp [Memory.read_write h.1]

theorem Memory.read_write_other {m : Memory} (h : m.wf) {a a' : Nat} (ha : a' ≠ a) (b : Byte) :
    (m.write a b).read a' = m.read a' := by
  simp [Memory.read_write h.1, ha]

theorem Memory.pairwise_writeBytes {m : Memory} (h : m.Pairwise (fun c d => c.1 < d.1)) (a : Nat) (bs : List Byte) :
    (m.writeBytes a bs).Pairwise (fun c d => c.1 < d.1) := by
  induction bs generalizing m a with
  | nil => exact h
  | cons b bs ih => exact ih (Memory.pairwise_write h a b) (a + 1)

/-- Read after a run of writes: inside the run the stored byte, outside it the byte before. -/
theorem Memory.read_writeBytes {m : Memory} (h : m.Pairwise (fun c d => c.1 < d.1)) (a a' : Nat) (bs : List Byte) :
    (m.writeBytes a bs).read a' = if a ≤ a' ∧ a' < a + bs.length then bs.getD (a' - a) 0 else m.read a' := by
  induction bs generalizing m a with
  | nil =>
    have : ¬ (a ≤ a' ∧ a' < a) := by omega
    simp [Memory.writeBytes, this]
  | cons b bs ih =>
    rw [Memory.writeBytes, ih (Memory.pairwise_write h a b), Memory.read_write h]
    simp only [List.length_cons]
    by_cases h0 : a' = a
    · subst h0
      have h1 : ¬ (a' + 1 ≤ a' ∧ a' < a' + 1 + bs.length) := by omega
      have h2 : a' ≤ a' ∧ a' < a' + (bs.length + 1) := by omega
      rw [if_neg h1, if_pos h2]
      simp
    · rw [if_neg h0]
      by_cases h1 : a ≤ a' ∧ a' < a + (bs.length + 1)
      · have h2 : a + 1 ≤ a' ∧ a' < a + 1 + bs.length := by omega
        rw [if_pos h1, if_pos h2]
        obtain ⟨d, hd⟩ : ∃ d, a' - a = d + 1 := ⟨a' - a - 1, by omega⟩
        rw [hd, List.getD_cons_succ]
        congr 1
        omega
      · have h2 : ¬ (a + 1 ≤ a' ∧ a' < a + 1 + bs.length) := by omega
        rw [if_neg h1, if_neg h2]

/-- A store to other addresses changes nothing here, whatever the form of the memory. -/
theorem Memory.read_write_ne (m : Memory) {a a' : Nat} (h : a' ≠ a) (b : Byte) : (m.write a b).read a' = m.read a' := by
  induction m with
  | nil =>
    simp only [Memory.write]
    split <;> simp [Memory.read, h.symm]
  | cons c m ih =>
    obtain ⟨k, v⟩ := c
    simp only [Memory.write]
    split
    · split <;> simp [Memory.read, h.symm]
    · split
      · rename_i hk
        subst hk
        split <;> simp [Memory.read, h.symm]
      · simp [Memory.read, ih]

theorem Memory.read_writeBytes_other (m : Memory) {a a' : Nat} {bs : List Byte} (h : a' < a ∨ a + bs.length ≤ a') :
    (m.writeBytes a bs).read a' = m.read a' := by
  induction bs generalizing m a with
  | nil => rfl
  | cons b bs ih =>
    simp only [List.length_cons] at h
    rw [Memory.writeBytes, ih _ (by omega), Memory.read_write_ne _ (by omega)]

@[simp] theorem Memory.length_readBytes (m : Memory) (a n : Nat) : (m.readBytes a n).length = n := by
  simp [Memory.readBytes]

/-- MemRead answers byte `j` at offset `j`. -/
theorem Memory.getElem_readBytes (m : Memory) (a n j : Nat) (h : j < (m.readBytes a n).length) :
    (m.readBytes a n)[j] = m.read (a + j) := by
  simp [Memory.readBytes]

/-- Two memories that agree on a range answer MemRead on it alike. -/
theorem Memory.readBytes_congr {m m' : Memory} {a n : Nat} (h : ∀ j, j < n → m.read (a + j) = m'.read (a + j)) :
    m.readBytes a n = m'.readBytes a n := by
  unfold Memory.readBytes
  exact List.map_congr_left fun j hj => h j (List.mem_range.1 hj)

/-- Memory after reset is in canonical form. -/
theorem Memory.wf_reset : State.reset.mem.wf := by simp [State.reset, Memory.wf]

end Sys2Proof.Machine
end

