-- ==== Sys2Proof/Laws/Ops.lean ====
section
/-! SUPPORT. The laws of outcomes, of ranges and of the platform's answers. -/

namespace Sys2Proof.Machine

open Sys2Proof

@[simp] theorem andThen_next (s : State) (f : State → Result) : andThen (.next s) f = f s := rfl

@[simp] theorem andThen_fault (r : Fault) (f : State → Result) : andThen (.fault r) f = .fault r := rfl

@[simp] theorem andThen_refused (r : Refusal) (f : State → Result) : andThen (.refused r) f = .refused r := rfl

/-- A sequence answers a next state exactly when both parts do. -/
theorem andThen_eq_next {o : Result} {f : State → Result} {t : State} :
    andThen o f = .next t ↔ ∃ s, o = .next s ∧ f s = .next t := by
  cases o <;> simp [andThen]

theorem overlaps_eq_false {a n b k : Nat} :
    overlaps a n b k = false ↔ n = 0 ∨ k = 0 ∨ b + k ≤ a ∨ a + n ≤ b := by
  rw [← Bool.not_eq_true]
  simp only [overlaps, Bool.and_eq_true, decide_eq_true_eq]
  omega

theorem overlaps_eq_true {a n b k : Nat} :
    overlaps a n b k = true ↔ ∃ x, (a ≤ x ∧ x < a + n) ∧ (b ≤ x ∧ x < b + k) := by
  simp only [overlaps, Bool.and_eq_true, decide_eq_true_eq]
  constructor
  · rintro ⟨⟨⟨h1, h2⟩, h3⟩, h4⟩
    exact ⟨max a b, by omega, by omega⟩
  · rintro ⟨x, h1, h2⟩
    omega

/-- A range inside another overlaps no more than it does. -/
theorem overlaps_mono {a n a' n' b k : Nat} (h1 : a' ≤ a) (h2 : a + n ≤ a' + n') (h : overlaps a' n' b k = false) :
    overlaps a n b k = false := by
  rw [overlaps_eq_false] at *
  omega

theorem meetsRegion_eq_false {cfg : Config} {kind : RegionKind} {accs : List (Nat × Nat)} :
    meetsRegion cfg kind accs = false ↔
      ∀ p ∈ accs, ∀ r ∈ cfg.memMap, r.kind = kind → overlaps p.1 p.2 r.base r.size = false := by
  simp [meetsRegion]

/-- Accesses inside given ranges meet no region that the ranges do not meet. -/
theorem meetsRegion_mono {cfg : Config} {kind : RegionKind} {accs accs' : List (Nat × Nat)}
    (h : meetsRegion cfg kind accs' = false)
    (hin : ∀ p ∈ accs, ∃ q ∈ accs', q.1 ≤ p.1 ∧ p.1 + p.2 ≤ q.1 + q.2) : meetsRegion cfg kind accs = false := by
  rw [meetsRegion_eq_false] at *
  intro p hp r hr hk
  obtain ⟨q, hq, h1, h2⟩ := hin p hp
  exact overlaps_mono h1 h2 (h q hq r hr hk)

/-- The platform answers when every access is in the space and meets no region. -/
theorem memAnswer_ok {cfg : Config} {accs : List (Nat × Nat)} :
    memAnswer cfg accs = .ok ↔
      (∀ p ∈ accs, p.1 + p.2 ≤ 2 ^ 32) ∧ meetsRegion cfg .device accs = false ∧ meetsRegion cfg .absent accs = false := by
  unfold memAnswer
  split
  · rename_i h
    obtain ⟨p, hp, hlt⟩ := List.any_eq_true.1 h
    simp only [reduceCtorEq, false_iff]
    intro hall
    have h1 := hall.1 p hp
    have h2 : 2 ^ 32 < p.1 + p.2 := of_decide_eq_true hlt
    omega
  · rename_i h
    have h0 : ∀ p ∈ accs, p.1 + p.2 ≤ 2 ^ 32 := by
      intro p hp
      by_contra hlt
      exact h (List.any_eq_true.2 ⟨p, hp, decide_eq_true (by omega)⟩)
    split
    · rename_i h1
      simp [h1]
    · split
      · rename_i h1 h2
        simp [h2]
      · rename_i h1 h2
        rw [Bool.not_eq_true] at h1 h2
        simp only [true_iff]
        exact ⟨h0, h1, h2⟩

/-- A guarded block-step ends in its body's outcome, stays where it is, or stops. -/
theorem guarded_eq_next {s t : State} {accs : List (Nat × Nat)} {body : Result} (h : guarded s accs body = .next t) :
    (memAnswer s.cfg accs = .ok ∧ body = .next t) ∨ (memAnswer s.cfg accs = .absent ∧ t = s) := by
  unfold guarded at h
  split at h <;> simp_all

theorem guarded_ok {s : State} {accs : List (Nat × Nat)} {body : Result} (h : memAnswer s.cfg accs = .ok) :
    guarded s accs body = body := by simp [guarded, h]

@[simp] theorem Pixel.length_bytes (p : Pixel) : p.bytes.length = 4 := rfl

@[simp] theorem length_tileRow (tile : Vector Pixel 32) (g : Grid) (i clen : Nat) :
    (tileRow tile g i clen).length = 4 * clen := by
  simp [tileRow, List.length_flatMap, Nat.mul_comm]

/-- The tile rows that are copied. -/
theorem Grid.mem_rows {g : Grid} {h t i : Nat} : i ∈ g.rows h t ↔ i < g.bh ∧ g.bh * t + i < h := by
  simp [Grid.rows]

end Sys2Proof.Machine
end

