-- ==== Sys2Proof/Laws/Commands.lean ====
section
/-! SUPPORT. Everything that the acceptance of a command can do. -/

namespace Sys2Proof.Machine

open Sys2Proof

/-- The checks of START pass exactly when the ranges and the grid fit, the source is long enough and the scratch is large enough
(R103 to R107). -/
theorem startCheck_eq_none {f : Format} {s : State} (h : 0 < (s.grid f).count) :
    startCheck f s = none ↔ s.rangesFit f ∧ s.gridFits f ∧ (s.grid f).need ≤ s.len.toNat ∧ s.scratchFits f := by
  unfold startCheck State.rangesFit State.gridFits State.scratchFits
  split
  · simp only [reduceCtorEq, false_iff]
    omega
  · split
    · rename_i _ h2
      simp only [reduceCtorEq, false_iff]
      exact fun hc => h2.2.2 (hc.2.1 h2.1)
    · split
      · simp only [reduceCtorEq, false_iff]
        omega
      · split
        · rename_i h4
          simp only [reduceCtorEq, false_iff]
          exact fun hc => Nat.not_lt.2 (hc.2.2.2 h4.1) h4.2
        · rename_i h1 h2 h3 h4
          simp only [true_iff]
          refine ⟨by omega, fun hp => ?_, by omega, fun hp => ?_⟩
          · by_contra hc
            exact h2 ⟨hp, h, hc⟩
          · exact Nat.not_lt.1 fun hc => h4 ⟨hp, hc⟩

/-- An error START raises is none of "no error" and InvalidContainer (R274). -/
theorem startCheck_some {f : Format} {s : State} {e : ErrCode} (h : startCheck f s = some e) :
    e ≠ .none ∧ e ≠ .invalidContainer := by
  unfold startCheck at h
  split at h
  · cases h; simp
  · split at h
    · cases h; simp
    · split at h
      · cases h; simp
      · split at h
        · cases h; simp
        · cases h

/-- START of a launchable command (R100). -/
theorem accept_launchable {f : Format} {s : State} (h : s.Launchable f) :
    accept (some f) s = .next (acceptBusy (if isPvrtc f then .expand else .walk) s) := by
  have hc := (startCheck_eq_none h.nonempty).2 ⟨h.ranges, h.grid, h.long, h.scratch⟩
  have hn : (s.grid f).count ≠ 0 := Nat.pos_iff_ne_zero.1 h.nonempty
  simp [accept, h.idle, hc, launch, hn, h.apart.1, h.apart.2]

/-- The four ways an acceptance ends in a next state (R100, R101, R108, R275). -/
theorem accept_cases {o : Option Format} {s t : State} (h : accept o s = .next t) :
    (s.st = .busy ∧ t = s) ∨
    (s.st ≠ .busy ∧ ∃ e, e ≠ .none ∧ e ≠ .invalidContainer ∧ t = raiseError e s) ∨
    (s.st ≠ .busy ∧ t = acceptEmpty s) ∨
    (∃ f, o = some f ∧ s.Launchable f ∧ t = acceptBusy (if isPvrtc f then .expand else .walk) s) := by
  unfold accept at h
  split at h
  · cases h
    exact .inl ⟨by assumption, rfl⟩
  · rename_i hb
    split at h
    · cases h
      exact .inr (.inl ⟨hb, .unknownFormat, by simp, by simp, rfl⟩)
    · rename_i f
      split at h
      · rename_i e he
        cases h
        exact .inr (.inl ⟨hb, e, (startCheck_some he).1, (startCheck_some he).2, rfl⟩)
      · rename_i hc
        unfold launch at h
        split at h
        · cases h
          exact .inr (.inr (.inl ⟨hb, rfl⟩))
        · rename_i hn
          split at h
          · cases h
          · rename_i hd
            split at h
            · cases h
            · rename_i ho
              cases h
              rw [Bool.not_eq_true] at hd ho
              have hpos := Nat.pos_of_ne_zero hn
              obtain ⟨h1, h2, h3, h4⟩ := (startCheck_eq_none hpos).1 hc
              exact .inr (.inr (.inr ⟨f, rfl, ⟨hb, hpos, h1, h2, h3, h4, ho, hd⟩, rfl⟩))

/-- START stops only on a launch the spec tells a model to refuse (R57, R63). -/
theorem accept_stop {o : Option Format} {s : State} :
    (∀ r, accept o s ≠ .fault r) ∧ ∀ r, accept o s = .refused r → r = .deviceRegion ∨ r = .bufferOverlap := by
  unfold accept launch
  constructor <;> intro r h <;> revert h
  · repeat' split
    all_goals simp
  · repeat' split
    all_goals first | (intro h; cases h; simp) | simp

/-- A nonempty grid has a nonempty side each way. -/
theorem Grid.count_pos {g : Grid} : 0 < g.count ↔ 0 < g.nbx ∧ 0 < g.nby := by
  unfold Grid.count
  exact ⟨fun h => ⟨Nat.pos_of_mul_pos_right h, Nat.pos_of_mul_pos_left h⟩, fun h => Nat.mul_pos h.1 h.2⟩

end Sys2Proof.Machine
end

