-- ==== Sys2Proof/Laws/Tile.lean ====
section
/-! SUPPORT. The laws of the tile buffer and of the PVRTC scratch: read after write. -/

namespace Sys2Proof.Machine

open Sys2Proof

theorem tileAt_ofFn (f : Fin 32 → Pixel) {n : Nat} (h : n < 32) : tileAt (Vector.ofFn f) n = f ⟨n, h⟩ := by
  simp [tileAt, h]

theorem tileAt_eq_get (t : Vector Pixel 32) {n : Nat} (h : n < 32) : tileAt t n = t.get ⟨n, h⟩ := by
  simp only [tileAt, Vector.get_eq_getElem, Vector.getElem?_eq_getElem h, Option.getD_some]

/-- Entries 0 to 15 hold what was written. -/
theorem tileAt_setTile16 (f : Nat → Pixel) (s : State) {n : Nat} (h : n < 16) :
    tileAt (setTile16 f s).tile n = f n := by
  unfold setTile16
  rw [tileAt_ofFn _ (show n < 32 by omega)]
  simp [h]

/-- Entries 16 to 31 keep what they hold. -/
theorem tileAt_setTile16_ge (f : Nat → Pixel) (s : State) {n : Nat} (h : 16 ≤ n) :
    tileAt (setTile16 f s).tile n = tileAt s.tile n := by
  by_cases h2 : n < 32
  · unfold setTile16
    rw [tileAt_ofFn _ h2, tileAt_eq_get _ h2]
    simp [Nat.not_lt.2 h]
  · simp [tileAt, h2]

theorem tileAt_setTileRgb16 (f : Nat → Rgb) (s : State) {n : Nat} (h : n < 16) :
    tileAt (setTileRgb16 f s).tile n =
      { r := (f n).r, g := (f n).g, b := (f n).b, a := (tileAt s.tile n).a } := by
  unfold setTileRgb16
  rw [tileAt_setTile16 _ _ h]

theorem tileAt_setTileRgb16_ge (f : Nat → Rgb) (s : State) {n : Nat} (h : 16 ≤ n) :
    tileAt (setTileRgb16 f s).tile n = tileAt s.tile n := tileAt_setTile16_ge _ _ h

theorem tileAt_setTileAlpha16 (f : Nat → Byte) (s : State) {n : Nat} (h : n < 16) :
    tileAt (setTileAlpha16 f s).tile n = { tileAt s.tile n with a := f n } := by
  unfold setTileAlpha16
  rw [tileAt_setTile16 _ _ h]

theorem tileAt_setTileAlpha16_ge (f : Nat → Byte) (s : State) {n : Nat} (h : 16 ≤ n) :
    tileAt (setTileAlpha16 f s).tile n = tileAt s.tile n := tileAt_setTile16_ge _ _ h

theorem tileAt_setTile32 (f : Nat → Pixel) (s : State) {n : Nat} (h : n < 32) :
    tileAt (setTile32 f s).tile n = f n := by
  unfold setTile32
  rw [tileAt_ofFn _ h]

/-- The record just written. -/
theorem texRead_texWrite_same (tex : List TexelInfo) (k : Nat) (r : TexelInfo) :
    texRead (texWrite tex k r) k = r := by
  unfold texWrite texRead
  split
  · rename_i h
    simp [h]
  · rename_i h
    have : tex.length + (k - tex.length) = k := by omega
    rw [List.getElem?_append_right (by simp; omega)]
    simp [this]

/-- Every other record is as before. -/
theorem texRead_texWrite_other (tex : List TexelInfo) {k j : Nat} (h : j ≠ k) (r : TexelInfo) :
    texRead (texWrite tex k r) j = texRead tex j := by
  unfold texWrite texRead
  split
  · simp [Ne.symm h]
  · rename_i hk
    by_cases h1 : j < tex.length
    · rw [List.append_assoc, List.getElem?_append_left h1]
    · by_cases h2 : j < k
      · rw [List.getElem?_append_left (by simp; omega), List.getElem?_append_right (by omega),
          List.getElem?_replicate, if_pos (by omega), List.getElem?_eq_none (by omega)]
        rfl
      · rw [List.getElem?_eq_none (by simp; omega), List.getElem?_eq_none (by omega)]

theorem length_texWrite (tex : List TexelInfo) (k : Nat) (r : TexelInfo) :
    (texWrite tex k r).length = max tex.length (k + 1) := by
  unfold texWrite
  split
  · simp; omega
  · simp; omega

/-- The record at the cursor after an update. -/
theorem texRead_updateTex (f : TexelInfo → TexelInfo) (s : State) :
    texRead (updateTex f s).tex s.pc.k = f (texRead s.tex s.pc.k) := texRead_texWrite_same ..

theorem texRead_updateTex_other (f : TexelInfo → TexelInfo) (s : State) {j : Nat} (h : j ≠ s.pc.k) :
    texRead (updateTex f s).tex j = texRead s.tex j := texRead_texWrite_other _ h _

end Sys2Proof.Machine
end

