-- ==== Sys2Proof/Laws/Exec.lean ====
section
/-! SUPPORT. What the rows of a block can write, and that every block of the right length decodes. -/

namespace Sys2Proof.Machine

open Sys2Proof

/-- `t` is `s` but for the tile buffer, the palette registers and the PVRTC scratch. -/
def EngineOnly (s t : State) : Prop :=
  t = { s with tile := t.tile, colPal := t.colPal, alphaPal := t.alphaPal, etcBase := t.etcBase, etcPaint := t.etcPaint,
               tex := t.tex }

theorem EngineOnly.refl (s : State) : EngineOnly s s := rfl

theorem EngineOnly.trans {s t u : State} (h : EngineOnly s t) (h' : EngineOnly t u) : EngineOnly s u := by
  unfold EngineOnly at *
  rw [h'] at *
  rw [h]

theorem engineOnly_setTile16 (f : Nat → Pixel) (s : State) : EngineOnly s (setTile16 f s) := by
  simp only [EngineOnly, setTile16]

theorem engineOnly_setTileRgb16 (f : Nat → Rgb) (s : State) : EngineOnly s (setTileRgb16 f s) :=
  engineOnly_setTile16 _ s

theorem engineOnly_setTileAlpha16 (f : Nat → Byte) (s : State) : EngineOnly s (setTileAlpha16 f s) :=
  engineOnly_setTile16 _ s

theorem engineOnly_setTile32 (f : Nat → Pixel) (s : State) : EngineOnly s (setTile32 f s) := by
  simp only [EngineOnly, setTile32]

theorem engineOnly_updateTex (f : TexelInfo → TexelInfo) (s : State) : EngineOnly s (updateTex f s) := rfl

/-! The rows' state functions. -/

theorem engineOnly_dxt1State (pal : Vector Pixel 4) (b : DxtColour) (s : State) : EngineOnly s (dxt1State pal b s) := by
  simp only [EngineOnly, dxt1State, setTile16]

theorem engineOnly_dxt5AlphaState (pal : Vector Byte 8) (a : DxtAlpha) (s : State) :
    EngineOnly s (dxt5AlphaState pal a s) := by
  simp only [EngineOnly, dxt5AlphaState, setTileAlpha16, setTile16]

theorem engineOnly_dxt5ColourState (pal : Vector Pixel 4) (b : DxtColour) (s : State) :
    EngineOnly s (dxt5ColourState pal b s) := by
  simp only [EngineOnly, dxt5ColourState, setTileRgb16, setTile16]

theorem engineOnly_etcIndividualState (b : EtcIndividual) (s : State) : EngineOnly s (etcIndividualState b s) := by
  simp only [EngineOnly, etcIndividualState, setTile16]

theorem engineOnly_etcDifferentialState (b : EtcDifferential) (s : State) : EngineOnly s (etcDifferentialState b s) := by
  simp only [EngineOnly, etcDifferentialState, setTile16]

theorem engineOnly_etcTState (b : EtcT) (s : State) : EngineOnly s (etcTState b s) := by
  simp only [EngineOnly, etcTState, setTile16]

theorem engineOnly_etcHState (b : EtcH) (s : State) : EngineOnly s (etcHState b s) := by
  simp only [EngineOnly, etcHState, setTile16]

theorem engineOnly_etcPlanarState (b : EtcPlanar) (s : State) : EngineOnly s (etcPlanarState b s) :=
  engineOnly_setTile16 _ s

theorem engineOnly_eacAlphaState (b : EacAlpha) (s : State) : EngineOnly s (eacAlphaState b s) :=
  engineOnly_setTileAlpha16 _ s

/-- The PVRTC tile of a WALK step writes the tile buffer alone. -/
theorem engineOnly_pvrtcTileState (is2 : Bool) (g : Grid) (s : State) : EngineOnly s (pvrtcTileState is2 g s) := by
  unfold pvrtcTileState
  split
  · exact engineOnly_setTile32 _ s
  · exact engineOnly_setTile16 _ s

/-- Colour blocks of ETC write the tile buffer and their own palette. -/
theorem engineOnly_etcColourState (etc2 : Bool) (w : BitVec 64) (s : State) :
    EngineOnly s (etcColourState etc2 w s) := by
  unfold etcColourState
  split
  · exact engineOnly_etcIndividualState _ s
  · exact engineOnly_etcDifferentialState _ s
  · exact engineOnly_etcTState _ s
  · exact engineOnly_etcHState _ s
  · exact engineOnly_etcPlanarState _ s

/-- The modulation of a PVRTC block writes the record at the cursor. -/
theorem engineOnly_modulationState (is2 mflag : Bool) (m : BitVec 32) (s : State) :
    EngineOnly s (modulationState is2 mflag m s) := by
  cases is2 <;> cases mflag <;> rfl

theorem engineOnly_setColourA (c : Texel) (s : State) : EngineOnly s (setColourA c s) := rfl

theorem engineOnly_setColourB (c : Texel) (s : State) : EngineOnly s (setColourB c s) := rfl

/-- A word that is not a CTRL value and has its right length decodes (R84). -/
theorem decode_total {k : WordKind} {bs : List Byte} (hk : k ≠ .ctrl) (h : bs.length = k.bytes) :
    ∃ i, decode k bs = .ok i := by
  simp only [decode, h, if_true]
  cases k <;> first | exact absurd rfl hk | exact ⟨_, rfl⟩

/-- Every block of its format's length decodes into rows (R84). -/
theorem decodeBlock_total {f : Format} {bs : List Byte} (h : bs.length = blockBytes f) :
    ∃ is, decodeBlock f bs = .ok is := by
  have key : ∀ ws : List (WordKind × Nat), (∀ w ∈ ws, w.1 ≠ .ctrl ∧ w.2 + w.1.bytes ≤ bs.length) →
      ∃ is, decodeRows ws bs = .ok is := by
    intro ws
    induction ws with
    | nil => exact fun _ => ⟨[], rfl⟩
    | cons w ws ih =>
      intro hw
      obtain ⟨hc, hl⟩ := hw w List.mem_cons_self
      obtain ⟨i, hi⟩ := decode_total (bs := (bs.drop w.2).take w.1.bytes) hc
        (by rw [List.length_take, List.length_drop]; omega)
      obtain ⟨is, his⟩ := ih fun x hx => hw x (List.mem_cons_of_mem _ hx)
      exact ⟨i :: is, by simp [decodeRows, hi, his]⟩
  refine key _ fun w hw => ?_
  rw [h]
  cases f <;> simp [rowWords] at hw <;> (first | subst hw | (rcases hw with rfl | rfl)) <;>
    simp [blockBytes, WordKind.bytes]

/-- Every row of a block completes, and writes at most the tile buffer, the palettes and the scratch. -/
theorem exec_row (i : Instr) (s : State) (h : i.kind ≠ .ctrl) (h2 : i.kind ≠ .command) :
    ∃ t, exec i s = .next t ∧ EngineOnly s t := by
  cases i <;> first | exact absurd rfl h | exact absurd rfl h2 | skip
  case dxt1Four b => exact ⟨_, rfl, engineOnly_dxt1State _ _ s⟩
  case dxt1Three b => exact ⟨_, rfl, engineOnly_dxt1State _ _ s⟩
  case dxt5Alpha7 b => exact ⟨_, rfl, engineOnly_dxt5AlphaState _ _ s⟩
  case dxt5Alpha5 b => exact ⟨_, rfl, engineOnly_dxt5AlphaState _ _ s⟩
  case dxt5Color b => exact ⟨_, rfl, engineOnly_dxt5ColourState _ _ s⟩
  case etcIndividual b => exact ⟨_, rfl, engineOnly_etcIndividualState _ s⟩
  case etcDifferential b => exact ⟨_, rfl, engineOnly_etcDifferentialState _ s⟩
  case etcT b => exact ⟨_, rfl, engineOnly_etcTState _ s⟩
  case etcH b => exact ⟨_, rfl, engineOnly_etcHState _ s⟩
  case etcPlanar b => exact ⟨_, rfl, engineOnly_etcPlanarState _ s⟩
  case eacAlpha b => exact ⟨_, rfl, engineOnly_eacAlphaState _ s⟩
  case etc2a1Block => exact ⟨_, rfl, (engineOnly_etcColourState _ _ s).trans (engineOnly_setTileAlpha16 _ _)⟩
  case etc2a8Block => exact ⟨_, rfl, (engineOnly_etcColourState _ _ s).trans (engineOnly_eacAlphaState _ _)⟩
  case pvrtcBlock =>
    exact ⟨_, rfl, .trans (.trans (engineOnly_setColourA _ s) (engineOnly_setColourB _ _)) (engineOnly_modulationState _ _ _ _)⟩
  all_goals exact ⟨_, rfl, engineOnly_updateTex _ s⟩

/-- So does a sequence of rows. -/
theorem runAll_rows {is : List Instr} (h : ∀ i ∈ is, i.kind ≠ .ctrl ∧ i.kind ≠ .command) (s : State) :
    ∃ t, runAll is s = .next t ∧ EngineOnly s t := by
  induction is generalizing s with
  | nil => exact ⟨s, rfl, .refl s⟩
  | cons i is ih =>
    obtain ⟨u, hu, eu⟩ := exec_row i s (h i List.mem_cons_self).1 (h i List.mem_cons_self).2
    obtain ⟨t, ht, et⟩ := ih (fun j hj => h j (List.mem_cons_of_mem _ hj)) u
    exact ⟨t, by simp [runAll, hu, ht], eu.trans et⟩

/-- A word of a block decodes to a row of a block. -/
theorem decode_kind {k : WordKind} {bs : List Byte} {i : Instr} (h : decode k bs = .ok i) (hk : k ≠ .ctrl)
    (hk2 : k ≠ .command) : i.kind ≠ .ctrl ∧ i.kind ≠ .command := by
  unfold decode at h
  by_cases hl : bs.length = k.bytes
  case neg => simp [hl] at h
  rw [if_pos hl] at h
  clear hl
  cases k <;> simp [decodeWord] at h hk hk2
  all_goals first | (subst h; simp [Instr.kind]; done) | skip
  · unfold decodeDxt1Word at h; split at h <;> subst h <;> simp [Instr.kind]
  · unfold decodeDxt5AlphaWord at h; split at h <;> subst h <;> simp [Instr.kind]
  · unfold decodeEtcColourWord at h; split at h <;> subst h <;> simp [Instr.kind]
  · unfold decodeColourAWord at h; split at h <;> subst h <;> simp [Instr.kind]
  · unfold decodeColourBWord at h; split at h <;> subst h <;> simp [Instr.kind]
  · rename_i a b; cases a <;> cases b <;> simp [decodeModulationWord] at h <;> subst h <;> simp [Instr.kind]

/-- The rows of a block. -/
theorem decodeBlock_rows {f : Format} {bs : List Byte} {is : List Instr} (h : decodeBlock f bs = .ok is) :
    ∀ i ∈ is, i.kind ≠ .ctrl ∧ i.kind ≠ .command := by
  have key : ∀ ws : List (WordKind × Nat), (∀ w ∈ ws, w.1 ≠ .ctrl ∧ w.1 ≠ .command) →
      ∀ is, decodeRows ws bs = .ok is → ∀ i ∈ is, i.kind ≠ .ctrl ∧ i.kind ≠ .command := by
    intro ws
    induction ws with
    | nil => intro _ is h; cases h; simp
    | cons w ws ih =>
      intro hw is h
      simp only [decodeRows] at h
      split at h <;> [cases h; skip]
      split at h <;> [cases h; skip]
      rename_i i hi _ is' his
      cases h
      intro j hj
      rcases List.mem_cons.1 hj with rfl | hj
      · exact decode_kind hi (hw w List.mem_cons_self).1 (hw w List.mem_cons_self).2
      · exact ih (fun x hx => hw x (List.mem_cons_of_mem _ hx)) _ his j hj
  refine key _ (fun w hw => ?_) is h
  cases f <;> simp [rowWords] at hw <;> (first | subst hw | (rcases hw with rfl | rfl)) <;> simp

end Sys2Proof.Machine
end

