-- ==== Sys2Proof/Laws/Race.lean ====
section
/-! SUPPORT. The races of the host with a running command: which values a raced byte can have, and that without a host store
there is none. And what a reset leaves in memory. -/

namespace Sys2Proof.Machine

open Sys2Proof

/-- A free pick is one of the values. -/
theorem freePick_mem (n : Nat) {vs : List Byte} (h : vs ≠ []) : freePick n vs ∈ vs := by
  have hl : Config.freeChoice n % vs.length < vs.length := Nat.mod_lt _ (List.length_pos_iff.2 h)
  rw [freePick, List.getD_eq_getElem _ _ hl]
  exact List.getElem_mem hl

theorem State.seen_ne_nil (s : State) (a : Nat) : s.seen a ≠ [] := by simp [State.seen]

/-- The values a byte can be seen to have (R62): memory's, one the host stored there during the command, the one at START. -/
theorem State.mem_seen {s : State} {a : Nat} {b : Byte} :
    b ∈ s.seen a ↔ b = s.mem.read a ∨ (a, b) ∈ s.hostStores ∨ b = s.atStart.read a := by
  simp [State.seen]

theorem State.raced_eq_false {s : State} {a : Nat} : s.raced a = false ↔ ∀ c ∈ s.hostStores, c.1 ≠ a := by
  simp [State.raced]

/-- What the unit reads of a byte: memory's value where the host stored nothing, else one of the values seen there. -/
theorem fetchByte_cases (s : State) (n a : Nat) :
    (s.raced a = false ∧ s.fetchByte n a = s.mem.read a) ∨ (s.raced a = true ∧ s.fetchByte n a ∈ s.seen a) := by
  unfold State.fetchByte
  cases h : s.raced a
  · exact .inl ⟨rfl, by simp⟩
  · exact .inr ⟨rfl, by simpa using freePick_mem n (s.seen_ne_nil a)⟩

@[simp] theorem length_fetchBytes (s : State) (a n : Nat) : (s.fetchBytes a n).length = n := by simp [State.fetchBytes]

/-- Where the host stored nothing the unit reads memory (R51). -/
theorem fetchBytes_eq_readBytes {s : State} {a n : Nat} (h : ∀ j, j < n → s.raced (a + j) = false) :
    s.fetchBytes a n = s.mem.readBytes a n := by
  unfold State.fetchBytes Memory.readBytes
  refine List.map_congr_left fun j hj => ?_
  simp [State.fetchByte, h j (List.mem_range.1 hj)]

theorem fetchBytes_no_stores {s : State} (h : s.hostStores = []) (a n : Nat) : s.fetchBytes a n = s.mem.readBytes a n :=
  fetchBytes_eq_readBytes fun _ _ => by simp [State.raced, h]

/-- A raced store leaves the byte of the host or the byte before, and every other byte. -/
theorem read_raceWrite {m : Memory} (hm : m.Pairwise (fun c d => c.1 < d.1)) (n a : Nat) (b : Byte) (x : Nat) :
    (m.raceWrite n a b).read x = m.read x ∨ (x = a ∧ (m.raceWrite n a b).read x = b) := by
  unfold Memory.raceWrite
  split
  · by_cases h : x = a
    · exact .inr ⟨h, by simp [Memory.read_write hm, h]⟩
    · exact .inl (by simp [Memory.read_write hm, h])
  · exact .inl rfl

theorem pairwise_raceWrite {m : Memory} (hm : m.Pairwise (fun c d => c.1 < d.1)) (n a : Nat) (b : Byte) :
    (m.raceWrite n a b).Pairwise (fun c d => c.1 < d.1) := by
  unfold Memory.raceWrite
  split
  · exact Memory.pairwise_write hm a b
  · exact hm

theorem wf_raceWrite {m : Memory} (hm : m.wf) (n : Nat) {a : Nat} (ha : a < 2 ^ 32) (b : Byte) : (m.raceWrite n a b).wf := by
  unfold Memory.raceWrite
  split
  · exact Memory.wf_write hm ha b
  · exact hm

theorem settle_nil (accs : List (Nat × Nat)) (n : Nat) (m : Memory) : settle accs n [] m = m := rfl

theorem settle_cons (accs : List (Nat × Nat)) (n : Nat) (c : Host.Cell) (st : List Host.Cell) (m : Memory) :
    settle accs n (c :: st) m =
      if accs.any (fun p => decide (p.1 ≤ c.1) && decide (c.1 < p.1 + p.2)) then
        (settle accs (n + 1) st m).raceWrite n c.1 c.2
      else settle accs (n + 1) st m := rfl

theorem pairwise_settle {m : Memory} (hm : m.Pairwise (fun c d => c.1 < d.1)) (accs : List (Nat × Nat)) (n : Nat)
    (st : List Host.Cell) : (settle accs n st m).Pairwise (fun c d => c.1 < d.1) := by
  induction st generalizing n with
  | nil => exact hm
  | cons c st ih =>
    rw [settle_cons]
    split
    · exact pairwise_raceWrite (ih _) _ _ _
    · exact ih _

theorem wf_settle {m : Memory} (hm : m.wf) {accs : List (Nat × Nat)} (ha : ∀ p ∈ accs, p.1 + p.2 ≤ 2 ^ 32) (n : Nat)
    (st : List Host.Cell) : (settle accs n st m).wf := by
  induction st generalizing n with
  | nil => exact hm
  | cons c st ih =>
    rw [settle_cons]
    split
    · rename_i h
      obtain ⟨p, hp, hc⟩ := List.any_eq_true.1 h
      simp only [Bool.and_eq_true, decide_eq_true_eq] at hc
      exact wf_raceWrite (ih _) _ (lt_of_lt_of_le hc.2 (ha p hp)) _
    · exact ih _

/-- After the settling a byte is the one before, or one the host stored there, and then the unit's stores cover it. -/
theorem read_settle {m : Memory} (hm : m.Pairwise (fun c d => c.1 < d.1)) (accs : List (Nat × Nat)) (n : Nat)
    (st : List Host.Cell) (x : Nat) :
    (settle accs n st m).read x = m.read x ∨
      ((x, (settle accs n st m).read x) ∈ st ∧ ∃ p ∈ accs, p.1 ≤ x ∧ x < p.1 + p.2) := by
  induction st generalizing n with
  | nil => exact .inl rfl
  | cons c st ih =>
    have key : (settle accs n (c :: st) m).read x = (settle accs (n + 1) st m).read x ∨
        (x = c.1 ∧ (settle accs n (c :: st) m).read x = c.2 ∧ ∃ p ∈ accs, p.1 ≤ x ∧ x < p.1 + p.2) := by
      rw [settle_cons]
      split
      · rename_i h
        obtain ⟨p, hp, hc⟩ := List.any_eq_true.1 h
        simp only [Bool.and_eq_true, decide_eq_true_eq] at hc
        rcases read_raceWrite (pairwise_settle hm accs (n + 1) st) n c.1 c.2 x with h | ⟨h1, h2⟩
        · exact .inl h
        · exact .inr ⟨h1, h2, p, hp, by omega, by omega⟩
      · exact .inl rfl
    rcases key with h | ⟨h1, h2, h3⟩
    · rw [h]
      rcases ih (n + 1) with h' | ⟨h4, h5⟩
      · exact .inl h'
      · exact .inr ⟨List.mem_cons_of_mem _ h4, h5⟩
    · exact .inr ⟨by rw [h2]; exact List.mem_cons.2 (.inl (by rw [h1])), h3⟩

/-- Without host stores during the command a WALK step leaves the copy-out of its tile. -/
theorem storeTile_no_stores {g : Grid} {s : State} (h : s.hostStores = []) :
    storeTile g s = copyOut g s.dstBase s.width.toNat s.height.toNat s.pc.s s.pc.t s.tile s.mem := by
  rw [storeTile, h, settle_nil]

@[simp] theorem length_freeBytes (s : State) (n : Nat) : (s.freeBytes n).length = n := by simp [State.freeBytes]

/-- Every byte that no running command would have written is as before the reset. -/
theorem read_abandonOutput {s : State} {a : Nat} (h : s.st ≠ .busy ∨ s.inOutput a = false) :
    (abandonOutput s).mem.read a = s.mem.read a := by
  unfold abandonOutput
  split
  · rename_i hb
    refine Memory.read_writeBytes_other _ ?_
    have := h.resolve_left (fun hn => hn hb)
    simp only [State.inOutput, Bool.and_eq_false_iff, decide_eq_false_iff_not] at this
    simp only [length_freeBytes]
    omega
  · rfl

/-- Every byte of the output range of a running command is a free byte after the reset. -/
theorem read_abandonOutput_output {s : State} (hm : s.mem.wf) (hb : s.st = .busy) {j : Nat} (hj : j < s.dstLen) :
    (abandonOutput s).mem.read (s.dstBase + j) = Config.freeByte (s.choices + j) := by
  rw [abandonOutput, if_pos hb]
  show (s.mem.writeBytes s.dstBase (s.freeBytes s.dstLen)).read (s.dstBase + j) = _
  rw [Memory.read_writeBytes hm.1, length_freeBytes, if_pos ⟨by omega, by omega⟩, Nat.add_sub_cancel_left]
  simp [State.freeBytes, hj]

/-- A reset keeps the canonical form when the output range of a running command lies in the address space (R104). -/
theorem wf_abandonOutput {s : State} (hm : s.mem.wf) (h : s.st = .busy → s.dstBase + s.dstLen ≤ 2 ^ 32) :
    (abandonOutput s).mem.wf := by
  unfold abandonOutput
  split
  · rename_i hb
    exact Memory.wf_writeBytes hm (by simpa using h hb)
  · exact hm

end Sys2Proof.Machine
end

