-- ==== Sys2Proof/Laws/Walker.lean ====
section
/-! SUPPORT. The laws of the walker: where blocks and tile rows lie, and what a copy-out stores. -/

namespace Sys2Proof.Machine

open Sys2Proof

theorem blockWidth_pos (f : Format) : 0 < blockWidth f := by cases f <;> decide

theorem blockBytes_pos (f : Format) : 0 < blockBytes f := by cases f <;> decide

/-- The clipped copy stays inside the row (R126). -/
theorem clen_le {f : Format} {w h s : Nat} (hs : s < (gridOf f w h).nbx) :
    (gridOf f w h).bw * s + (gridOf f w h).clen s ≤ w ∧ (gridOf f w h).clen s ≤ (gridOf f w h).bw ∧
      0 < (gridOf f w h).clen s := by
  have hb := blockWidth_pos f
  have hlast : blockWidth f * s < w := mul_lt_of_lt_ceilDiv hb hs
  have hm := Nat.mod_lt (w + blockWidth f - 1) hb
  have hd := Nat.div_add_mod (w + blockWidth f - 1) (blockWidth f)
  have hn : (gridOf f w h).nbx = (w + blockWidth f - 1) / blockWidth f := rfl
  have hbw : (gridOf f w h).bw = blockWidth f := rfl
  rw [← hn] at hd
  by_cases h1 : s + 1 < (gridOf f w h).nbx
  · have hc : (gridOf f w h).clen s = blockWidth f := if_pos h1
    have h5 := Nat.mul_le_mul_left (blockWidth f) (show s + 2 ≤ (gridOf f w h).nbx from h1)
    have h6 : blockWidth f * (s + 2) = blockWidth f * s + 2 * blockWidth f := by ring
    rw [hc, hbw]
    omega
  · have hc : (gridOf f w h).clen s = (w + blockWidth f - 1) % blockWidth f + 1 := if_neg h1
    have h2 : (gridOf f w h).nbx = s + 1 := by omega
    rw [h2] at hd
    have h3 : blockWidth f * (s + 1) = blockWidth f * s + blockWidth f := Nat.mul_succ ..
    rw [hc, hbw]
    omega

/-- The block at the cursor lies in the source range (R51, R124). -/
theorem blockAddr_in {f : Format} {s : State} (hs : s.pc.s < (s.grid f).nbx) (ht : s.pc.t < (s.grid f).nby) :
    s.srcBase ≤ blockAddr (s.grid f) s ∧
      blockAddr (s.grid f) s + (s.grid f).bb ≤ s.srcBase + (s.grid f).need := by
  generalize s.grid f = g at *
  have h1 : s.pc.t * g.nbx + s.pc.s + 1 ≤ g.nbx * g.nby := by
    have : (s.pc.t + 1) * g.nbx ≤ g.nby * g.nbx := Nat.mul_le_mul_right _ ht
    rw [Nat.add_mul, Nat.mul_comm g.nby] at this
    omega
  have h2 : (s.pc.t * g.nbx + s.pc.s + 1) * g.bb ≤ g.nbx * g.nby * g.bb := Nat.mul_le_mul_right _ h1
  rw [Nat.add_mul] at h2
  simp only [blockAddr, Grid.need]
  omega

/-- The block at storage index `k` lies in the source range (R222). -/
theorem expandAddr_in {f : Format} {s : State} (hp : isPvrtc f = true) (hk : s.pc.k < (s.grid f).count) :
    s.srcBase ≤ expandAddr s ∧ expandAddr s + 8 ≤ s.srcBase + (s.grid f).need := by
  have hbb : (s.grid f).bb = 8 := by cases f <;> first | rfl | simp [isPvrtc] at hp
  simp only [expandAddr, Grid.need, hbb]
  unfold Grid.count at hk
  omega

/-- A tile row is stored inside the output range (R52, R127). -/
theorem rowAddr_in {f : Format} {s : State} {i : Nat} (hs : s.pc.s < (s.grid f).nbx)
    (hi : i ∈ (s.grid f).rows s.height.toNat s.pc.t) :
    s.dstBase ≤ (s.grid f).rowAddr s.dstBase s.width.toNat s.height.toNat s.pc.s s.pc.t i ∧
      (s.grid f).rowAddr s.dstBase s.width.toNat s.height.toNat s.pc.s s.pc.t i + 4 * (s.grid f).clen s.pc.s ≤
        s.dstBase + s.dstLen := by
  have hc := (clen_le (f := f) (w := s.width.toNat) (h := s.height.toNat) hs).1
  rw [Grid.mem_rows] at hi
  have hy : (s.grid f).outRow s.height.toNat s.pc.t i + 1 ≤ s.height.toNat := by
    unfold Grid.outRow
    omega
  have h1 := Nat.mul_le_mul_right s.width.toNat hy
  rw [Nat.add_mul] at h1
  have h2 : 4 * s.width.toNat * s.height.toNat = 4 * (s.height.toNat * s.width.toNat) := by ring
  simp only [Grid.rowAddr, State.dstLen, h2]
  have h3 : (s.grid f).bw * s.pc.s + (s.grid f).clen s.pc.s ≤ s.width.toNat := hc
  omega

theorem walkStores_in {f : Format} {s : State} (hs : s.pc.s < (s.grid f).nbx) {p : Nat × Nat}
    (hp : p ∈ walkStores (s.grid f) s) : s.dstBase ≤ p.1 ∧ p.1 + p.2 ≤ s.dstBase + s.dstLen := by
  simp only [walkStores, storeAccesses, List.mem_map] at hp
  obtain ⟨i, hi, rfl⟩ := hp
  exact rowAddr_in hs hi

/-- A run of rows written to memory: inside the row of `i` the row's bytes, outside all rows the byte before. -/
theorem read_foldl_rows {rows : List Nat} {addr : Nat → Nat} {bytes : Nat → List Byte} {m : Memory}
    (hm : m.Pairwise (fun c d => c.1 < d.1)) (a : Nat) :
    (∀ i ∈ rows, a < addr i ∨ addr i + (bytes i).length ≤ a) →
      (rows.foldl (fun m i => m.writeBytes (addr i) (bytes i)) m).read a = m.read a := by
  induction rows generalizing m with
  | nil => intro _; rfl
  | cons r rows ih =>
    intro h
    rw [List.foldl_cons, ih (Memory.pairwise_writeBytes hm _ _) fun i hi => h i (List.mem_cons_of_mem _ hi),
      Memory.read_writeBytes hm, if_neg]
    have := h r List.mem_cons_self
    omega

theorem read_foldl_row {rows : List Nat} {addr : Nat → Nat} {bytes : Nat → List Byte} {m : Memory}
    (hm : m.Pairwise (fun c d => c.1 < d.1)) {i : Nat} (hi : i ∈ rows) {d : Nat} (hd : d < (bytes i).length)
    (hdis : ∀ j ∈ rows, j ≠ i → addr i + d < addr j ∨ addr j + (bytes j).length ≤ addr i + d) :
    (rows.foldl (fun m i => m.writeBytes (addr i) (bytes i)) m).read (addr i + d) = (bytes i).getD d 0 := by
  induction rows generalizing m with
  | nil => cases hi
  | cons r rows ih =>
    rw [List.foldl_cons]
    by_cases hin : i ∈ rows
    · exact ih (Memory.pairwise_writeBytes hm _ _) hin fun j hj => hdis j (List.mem_cons_of_mem _ hj)
    · have hr : i = r := by
        rcases List.mem_cons.1 hi with h | h
        · exact h
        · exact absurd h hin
      subst hr
      rw [read_foldl_rows (Memory.pairwise_writeBytes hm _ _) _ fun j hj =>
          hdis j (List.mem_cons_of_mem _ hj) fun he => hin (he ▸ hj),
        Memory.read_writeBytes hm, if_pos ⟨by omega, by omega⟩]
      congr 1
      omega

/-- A copy-out inside the address space keeps memory in canonical form. -/
theorem wf_copyOut {g : Grid} {dst w h s t : Nat} {tile : Vector Pixel 32} {m : Memory} (hm : m.wf)
    (h32 : ∀ i ∈ g.rows h t, g.rowAddr dst w h s t i + 4 * g.clen s ≤ 2 ^ 32) :
    (copyOut g dst w h s t tile m).wf := by
  unfold copyOut
  generalize g.rows h t = rows at h32
  induction rows generalizing m with
  | nil => exact hm
  | cons r rows ih =>
    rw [List.foldl_cons]
    exact ih (Memory.wf_writeBytes hm (by rw [length_tileRow]; exact h32 r List.mem_cons_self))
      fun i hi => h32 i (List.mem_cons_of_mem _ hi)

/-- Two tile rows of one block go to places apart. -/
theorem rowAddr_apart {f : Format} {w h dst s t i j : Nat} (hs : s < (gridOf f w h).nbx) (hi : i ∈ (gridOf f w h).rows h t)
    (hj : j ∈ (gridOf f w h).rows h t) (hne : j ≠ i) :
    (gridOf f w h).rowAddr dst w h s t i + 4 * (gridOf f w h).clen s ≤ (gridOf f w h).rowAddr dst w h s t j ∨
      (gridOf f w h).rowAddr dst w h s t j + 4 * (gridOf f w h).clen s ≤ (gridOf f w h).rowAddr dst w h s t i := by
  have hc := (clen_le (f := f) (w := w) (h := h) hs).1
  rw [Grid.mem_rows] at hi hj
  have key : ∀ y y' : Nat, y < y' → y * w + w ≤ y' * w := fun y y' hy => by
    have := Nat.mul_le_mul_right w (Nat.succ_le_of_lt hy)
    rwa [Nat.succ_mul] at this
  simp only [Grid.rowAddr, Grid.outRow]
  rcases Nat.lt_or_gt_of_ne hne with hlt | hlt
  · have := key (h - 1 - ((gridOf f w h).bh * t + i)) (h - 1 - ((gridOf f w h).bh * t + j)) (by omega)
    omega
  · have := key (h - 1 - ((gridOf f w h).bh * t + j)) (h - 1 - ((gridOf f w h).bh * t + i)) (by omega)
    omega

/-- The bytes of a tile row, pixel by pixel (R128). -/
theorem getD_tileRow (tile : Vector Pixel 32) (g : Grid) (i clen j c : Nat) (hj : j < clen) (hc : c < 4) :
    (tileRow tile g i clen).getD (4 * j + c) 0 = (tileAt tile (g.bw * i + j)).bytes.getD c 0 := by
  unfold tileRow
  induction clen with
  | zero => omega
  | succ n ih =>
    rw [List.range_succ, List.flatMap_append]
    have hlen : ((List.range n).flatMap fun j => (tileAt tile (g.bw * i + j)).bytes).length = 4 * n := by
      simp [List.length_flatMap, Nat.mul_comm]
    by_cases h : j < n
    · rw [List.getD_append _ _ _ _ (by rw [hlen]; omega)]
      exact ih h
    · have hjn : j = n := by omega
      subst hjn
      rw [List.getD_append_right _ _ _ _ (by rw [hlen]; omega), hlen]
      simp

end Sys2Proof.Machine
end

