-- ==== Sys2Proof/Laws/Step.lean ====
section
/-! SUPPORT. The cases of a step: who moves, what a running unit's block-step is, when memory answers it. -/

namespace Sys2Proof.Machine

open Sys2Proof

theorem step_idle_queue {s : State} (h : s.hostQ = []) : step s = unitStep s := by
  simp [step, nextStep, h]

theorem step_poll_busy {s : State} {q : List HostOp} (h : s.hostQ = .poll :: q) (hb : s.st = .busy) :
    step s = unitStep (hostRead 1 s) := by
  simp [step, nextStep, h, hb, pollBusy]

/-- Every other access is taken off the queue and done. -/
theorem step_access {s : State} {op : HostOp} {q : List HostOp} (h : s.hostQ = op :: q)
    (hp : op ≠ .poll ∨ s.st ≠ .busy) : step s = hostAccess op { s with hostQ := q } := by
  unfold step nextStep
  rw [h]
  cases op <;> simp_all

theorem unitStep_not_busy {s : State} (h : s.st ≠ .busy) : unitStep s = .next s := by
  simp [unitStep, h]

/-- The block-step of a running unit in phase EXPAND. -/
theorem unitStep_expand {s : State} {f : Format} (hb : s.st = .busy) (hf : s.format = some f) (hc : cursorOk f s = true)
    (hp : s.pc.phase = .expand) : unitStep s = expandBlock f s := by
  simp [unitStep, hb, hf, hc, hp]

/-- The block-step of a running unit in phase WALK. -/
theorem unitStep_walk {s : State} {f : Format} (hb : s.st = .busy) (hf : s.format = some f) (hc : cursorOk f s = true)
    (hp : s.pc.phase = .walk) : unitStep s = if isPvrtc f then walkPvrtc f s else walkBlock f s := by
  simp [unitStep, hb, hf, hc, hp]

theorem cursorOk_walk {s : State} {f : Format} (hp : s.pc.phase = .walk) :
    cursorOk f s = true ↔ s.pc.s < (s.grid f).nbx ∧ s.pc.t < (s.grid f).nby := by
  simp [cursorOk, hp]

theorem cursorOk_expand {s : State} {f : Format} (hp : s.pc.phase = .expand) :
    cursorOk f s = true ↔ isPvrtc f = true ∧ s.pc.k < (s.grid f).count := by
  simp [cursorOk, hp]

/-- Accesses inside the buffers of a command whose ranges fit and that is on no device: memory answers them, or a part is
missing. -/
theorem memAnswer_in_buffers {f : Format} {s : State} (hr : s.rangesFit f) (ha : s.buffersApart f)
    {accs : List (Nat × Nat)}
    (hin : ∀ p ∈ accs, ∃ q ∈ buffers f s, q.1 ≤ p.1 ∧ p.1 + p.2 ≤ q.1 + q.2) :
    memAnswer s.cfg accs = .ok ∨ memAnswer s.cfg accs = .absent := by
  have h32 : ∀ p ∈ accs, p.1 + p.2 ≤ 2 ^ 32 := fun p hp => by
    obtain ⟨q, hq, _, h2⟩ := hin p hp
    unfold buffers at hq
    have hr1 := hr.1
    have hr2 := hr.2
    simp only [List.mem_cons, List.not_mem_nil, or_false] at hq
    rcases hq with rfl | rfl <;> simp only at h2 <;> omega
  have hd : meetsRegion s.cfg .device accs = false := meetsRegion_mono ha.2 hin
  by_cases hm : meetsRegion s.cfg .absent accs = true
  · right
    unfold memAnswer
    rw [if_neg, if_neg (by simp [hd]), if_pos hm]
    intro h
    obtain ⟨p, hp, hlt⟩ := List.any_eq_true.1 h
    have := of_decide_eq_true hlt
    have := h32 p hp
    omega
  · exact .inl (memAnswer_ok.2 ⟨h32, hd, by simpa using hm⟩)

/-- With both buffers backed by memory, memory answers. -/
theorem memAnswer_backed {f : Format} {s : State} (hr : s.rangesFit f) (ha : s.buffersApart f) (hb : s.backed f)
    {accs : List (Nat × Nat)}
    (hin : ∀ p ∈ accs, ∃ q ∈ buffers f s, q.1 ≤ p.1 ∧ p.1 + p.2 ≤ q.1 + q.2) : memAnswer s.cfg accs = .ok := by
  rcases memAnswer_in_buffers hr ha hin with h | h
  · exact h
  · exfalso
    have hm : meetsRegion s.cfg .absent accs = false := meetsRegion_mono hb hin
    unfold memAnswer at h
    split at h <;> try cases h
    split at h <;> try cases h
    simp [hm] at h

/-- The accesses of the three block-steps lie in the buffers. -/
theorem walkAccesses_in {f : Format} {s : State} (hs : s.pc.s < (s.grid f).nbx) (ht : s.pc.t < (s.grid f).nby) :
    ∀ p ∈ (blockAddr (s.grid f) s, (s.grid f).bb) :: walkStores (s.grid f) s,
      ∃ q ∈ buffers f s, q.1 ≤ p.1 ∧ p.1 + p.2 ≤ q.1 + q.2 := by
  intro p hp
  rcases List.mem_cons.1 hp with rfl | hp
  · exact ⟨(s.srcBase, (s.grid f).need), by simp [buffers], blockAddr_in hs ht⟩
  · exact ⟨(s.dstBase, s.dstLen), by simp [buffers], walkStores_in hs hp⟩

theorem walkStores_in_buffers {f : Format} {s : State} (hs : s.pc.s < (s.grid f).nbx) :
    ∀ p ∈ walkStores (s.grid f) s, ∃ q ∈ buffers f s, q.1 ≤ p.1 ∧ p.1 + p.2 ≤ q.1 + q.2 := fun _ hp =>
  ⟨(s.dstBase, s.dstLen), by simp [buffers], walkStores_in hs hp⟩

theorem expandAccess_in {f : Format} {s : State} (hp : isPvrtc f = true) (hk : s.pc.k < (s.grid f).count) :
    ∀ p ∈ [(expandAddr s, 8)], ∃ q ∈ buffers f s, q.1 ≤ p.1 ∧ p.1 + p.2 ≤ q.1 + q.2 := by
  intro p h
  rw [List.mem_singleton] at h
  subst h
  exact ⟨(s.srcBase, (s.grid f).need), by simp [buffers], expandAddr_in hp hk⟩

end Sys2Proof.Machine
end

