-- ==== Sys2Proof/Laws/BlockStep.lean ====
section
/-! SUPPORT. Everything that a block-step of a running unit can do, and what its copy-out leaves in memory. -/

namespace Sys2Proof.Machine

open Sys2Proof

theorem EngineOnly.grid {s t : State} (h : EngineOnly s t) (f : Format) : t.grid f = s.grid f := by
  rw [h]
  rfl

/-- The record a modulation word leaves is an expanded one (R228 to R230). -/
theorem expanded_modulation (is2 mflag : Bool) (m : BitVec 32) (s : State) :
    (texRead (modulationState is2 mflag m s).tex s.pc.k).Expanded is2 := by
  cases is2 <;> cases mflag
  · show TexelInfo.Expanded false (texRead (updateTex _ s).tex s.pc.k)
    rw [texRead_updateTex]
    intro i hi
    refine ⟨s.cfg.pvrtcStd.get (modCode m i).toFin, ?_⟩
    simp [TexelInfo.weight, weights4, Nat.mod_eq_of_lt (show i < 32 by omega), hi]
  · show TexelInfo.Expanded false (texRead (updateTex _ s).tex s.pc.k)
    rw [texRead_updateTex]
    intro i hi
    refine ⟨s.cfg.pvrtcPt.get (modCode m i).toFin, ?_⟩
    simp [TexelInfo.weight, weights4, Nat.mod_eq_of_lt (show i < 32 by omega), hi]
  · show TexelInfo.Expanded true (texRead (updateTex _ s).tex s.pc.k)
    rw [texRead_updateTex]
    intro i hi _
    simp [TexelInfo.weight, weights2Direct, Nat.mod_eq_of_lt hi, bitWeight]
    split <;> exact ⟨_, rfl⟩
  · show TexelInfo.Expanded true (texRead (updateTex _ s).tex s.pc.k)
    rw [texRead_updateTex]
    intro i hi hp
    simp [TexelInfo.weight, weights2Interpolated, Nat.mod_eq_of_lt hi, weight2Interpolated, hp, bitWeight]
    split
    · split <;> exact ⟨_, rfl⟩
    · split
      · split <;> exact ⟨_, rfl⟩
      · exact ⟨_, rfl⟩

/-- The effect of PVRTC.BLOCK on the state (R222). -/
theorem pvrtcBlock_effect (ca cb : BitVec 16) (m : BitVec 32) (s : State) :
    ∃ t, exec (.pvrtcBlock ca cb m) s = .next t ∧ EngineOnly s t ∧ t.tile = s.tile ∧
      (texRead t.tex s.pc.k).Expanded s.is2 ∧ ∀ j, j ≠ s.pc.k → texRead t.tex j = texRead s.tex j := by
  obtain ⟨t, ht, he⟩ := exec_row (.pvrtcBlock ca cb m) s (by simp [Instr.kind]) (by simp [Instr.kind])
  refine ⟨t, ht, he, ?_⟩
  cases ht
  refine ⟨?_, expanded_modulation s.is2 (ca.getLsbD 0) m (setColourB (colourB cb) (setColourA (colourA ca) s)),
    fun j hj => ?_⟩
  · cases s.is2 <;> cases (ca.getLsbD 0) <;> rfl
  · have h : ∀ (is2 mflag : Bool) (u : State), u.pc = s.pc →
        texRead (modulationState is2 mflag m u).tex j = texRead u.tex j := by
      intro is2 mflag u hu
      have : j ≠ u.pc.k := by rw [hu]; exact hj
      cases is2 <;> cases mflag <;> exact texRead_updateTex_other _ _ this
    refine (h s.is2 (ca.getLsbD 0) (setColourB (colourB cb) (setColourA (colourA ca) s)) rfl).trans ?_
    exact (texRead_updateTex_other _ (setColourA (colourA ca) s) hj).trans (texRead_updateTex_other _ _ hj)

/-- A PVRTC block decodes to PVRTC.BLOCK (R80). -/
theorem decodeBlock_pvrtc {f : Format} {bs : List Byte} (hp : isPvrtc f = true) (h : bs.length = 8) :
    ∃ ca cb m, decode .pvrtc bs = .ok (.pvrtcBlock ca cb m) ∧ decodeBlock f bs = .ok [.pvrtcBlock ca cb m] := by
  obtain ⟨ca, cb, m, hd⟩ : ∃ ca cb m, decode .pvrtc bs = .ok (.pvrtcBlock ca cb m) :=
    ⟨_, _, _, by simp [decode, WordKind.bytes, decodeWord, h]; exact ⟨rfl, rfl, rfl⟩⟩
  refine ⟨ca, cb, m, hd, ?_⟩
  have hr : rowWords f = [(.pvrtc, 0)] := by cases f <;> first | rfl | simp [isPvrtc] at hp
  rw [decodeBlock, hr]
  simp only [decodeRows, List.drop_zero]
  rw [List.take_of_length_le (by simp [WordKind.bytes, h]), hd]

/-- The EXPAND step of a running unit: memory does not answer and nothing changes, or PVRTC.BLOCK runs on the block at the
cursor and the cursor advances. -/
theorem expand_step {s : State} {f : Format} (h : s.Running f) (hb : s.st = .busy) (hp : s.pc.phase = .expand) :
    (memAnswer s.cfg [(expandAddr s, 8)] = .absent ∧ unitStep s = .next s) ∨
    (memAnswer s.cfg [(expandAddr s, 8)] = .ok ∧ ∃ ca cb m u,
      decode .pvrtc (s.fetchBytes (expandAddr s) 8) = .ok (.pvrtcBlock ca cb m) ∧
      exec (.pvrtcBlock ca cb m) s = .next u ∧ unitStep s = .next (finishExpand (s.grid f) u)) := by
  obtain ⟨hpv, hk⟩ := (cursorOk_expand hp).1 h.cursor
  rw [unitStep_expand hb h.selects h.cursor hp]
  unfold expandBlock
  rcases memAnswer_in_buffers h.ranges h.apart (expandAccess_in hpv hk) with ha | ha
  · refine .inr ⟨ha, ?_⟩
    obtain ⟨ca, cb, m, hd, hb⟩ := decodeBlock_pvrtc (bs := s.fetchBytes (expandAddr s) 8) hpv (by simp)
    obtain ⟨u, hu, _⟩ := pvrtcBlock_effect ca cb m s
    exact ⟨ca, cb, m, u, hd, hu, by simp [guarded_ok ha, hb, runAll, hu]⟩
  · exact .inl ⟨ha, by simp [guarded, ha]⟩

/-- The WALK step of a running DXT or ETC command: memory does not answer and nothing changes, or the rows of the block at the
cursor run, the tile is copied out and the cursor advances. -/
theorem walk_step {s : State} {f : Format} (h : s.Running f) (hb : s.st = .busy) (hp : s.pc.phase = .walk)
    (hf : isPvrtc f = false) :
    let accs := (blockAddr (s.grid f) s, (s.grid f).bb) :: walkStores (s.grid f) s
    (memAnswer s.cfg accs = .absent ∧ unitStep s = .next s) ∨
    (memAnswer s.cfg accs = .ok ∧ ∃ is u,
      decodeBlock f (s.fetchBytes (blockAddr (s.grid f) s) (s.grid f).bb) = .ok is ∧
      runAll is s = .next u ∧ EngineOnly s u ∧ unitStep s = .next (finishWalk (s.grid f) u)) := by
  intro accs
  obtain ⟨hs, ht⟩ := (cursorOk_walk hp).1 h.cursor
  rw [unitStep_walk hb h.selects h.cursor hp]
  simp only [hf, Bool.false_eq_true, if_false]
  unfold walkBlock
  rcases memAnswer_in_buffers h.ranges h.apart (walkAccesses_in hs ht) with ha | ha
  · refine .inr ⟨ha, ?_⟩
    obtain ⟨is, his⟩ := decodeBlock_total (f := f) (bs := s.fetchBytes (blockAddr (s.grid f) s) (s.grid f).bb)
      (by simp [State.grid, gridOf])
    obtain ⟨u, hu, eu⟩ := runAll_rows (decodeBlock_rows his) s
    exact ⟨is, u, his, hu, eu, by simp [guarded_ok ha, his, hu]⟩
  · exact .inl ⟨ha, by simp [guarded, ha]⟩

/-- The WALK step of a running PVRTC command. -/
theorem walk_step_pvrtc {s : State} {f : Format} (h : s.Running f) (hb : s.st = .busy) (hp : s.pc.phase = .walk)
    (hf : isPvrtc f = true) :
    (memAnswer s.cfg (walkStores (s.grid f) s) = .absent ∧ unitStep s = .next s) ∨
    (memAnswer s.cfg (walkStores (s.grid f) s) = .ok ∧
      unitStep s = .next (finishWalk (s.grid f) (pvrtcTileState s.is2 (s.grid f) s))) := by
  obtain ⟨hs, _⟩ := (cursorOk_walk hp).1 h.cursor
  rw [unitStep_walk hb h.selects h.cursor hp]
  simp only [hf, if_true]
  unfold walkPvrtc
  rcases memAnswer_in_buffers h.ranges h.apart (walkStores_in_buffers hs) with ha | ha
  · exact .inr ⟨ha, guarded_ok ha⟩
  · exact .inl ⟨ha, by simp [guarded, ha]⟩

/-- What a copy-out leaves at the address of an in-bounds pixel of the tile (R127, R128). -/
theorem read_copyOut_pixel {f : Format} {dst w h s t : Nat} {tile : Vector Pixel 32} {m : Memory}
    (hm : m.Pairwise (fun c d => c.1 < d.1)) (hs : s < (gridOf f w h).nbx) {i j c : Nat}
    (hi : i ∈ (gridOf f w h).rows h t) (hj : j < (gridOf f w h).clen s) (hc : c < 4) :
    (copyOut (gridOf f w h) dst w h s t tile m).read ((gridOf f w h).rowAddr dst w h s t i + (4 * j + c)) =
      (tileAt tile ((gridOf f w h).bw * i + j)).bytes.getD c 0 := by
  unfold copyOut
  rw [read_foldl_row hm hi (by rw [length_tileRow]; omega), getD_tileRow _ _ _ _ _ _ hj hc]
  intro k hk hne
  rw [length_tileRow]
  have := rowAddr_apart (dst := dst) hs hi hk hne
  omega

/-- What a copy-out leaves elsewhere. -/
theorem read_copyOut_other {g : Grid} {dst w h s t : Nat} {tile : Vector Pixel 32} {m : Memory}
    (hm : m.Pairwise (fun c d => c.1 < d.1)) {a : Nat}
    (ha : ∀ p ∈ storeAccesses g dst w h s t, a < p.1 ∨ p.1 + p.2 ≤ a) :
    (copyOut g dst w h s t tile m).read a = m.read a := by
  unfold copyOut
  refine read_foldl_rows hm a fun i hi => ?_
  rw [length_tileRow]
  exact ha (g.rowAddr dst w h s t i, 4 * g.clen s) (List.mem_map_of_mem hi)

end Sys2Proof.Machine
end

