-- ==== Sys2Proof/Laws/PerInstr.lean ====
section
/-! SUPPORT. Per instruction: the encoder gives as many bytes as the instruction's word has, and they assemble to that word again
(30_encoding R72, R86). -/

namespace Sys2Proof

open Sys2Proof.Machine

/-- The word of every instruction fits its bytes. -/
theorem encodeWord_lt (i : Instr) : encodeWord i < 256 ^ i.kind.bytes := by
  cases i <;> simp only [encodeWord, Instr.kind, WordKind.bytes] <;>
    first
    | decide
    | exact Nat.lt_of_lt_of_le (BitVec.isLt _) (by decide)

end Sys2Proof

namespace Sys2Proof.Laws.EncodeLength

open Sys2Proof Sys2Proof.Machine

/-- The bytes of an instruction are as many as its word has, and make that word. -/
def Statement (i : Instr) : Prop :=
  (encode i).length = i.kind.bytes ∧ i.kind.assemble (encode i) = encodeWord i

/-- The statement from the size of the word. -/
theorem of_lt (i : Instr) (h : encodeWord i < 256 ^ i.kind.bytes) : Statement i := by
  unfold Statement encode WordKind.layout WordKind.assemble
  cases i.kind.bigEndian
  · exact ⟨length_leBytes .., (leNat_leBytes ..).trans (Nat.mod_eq_of_lt h)⟩
  · exact ⟨length_beBytes .., (beNat_beBytes ..).trans (Nat.mod_eq_of_lt h)⟩

theorem start (clear : Bool) : Statement (.start clear) := of_lt _ (encodeWord_lt _)

theorem clear : Statement .clear := of_lt _ (encodeWord_lt _)

theorem decodeDxt1 (is2 : Bool) : Statement (.decodeDxt1 is2) := of_lt _ (encodeWord_lt _)

theorem decodeDxt5 (is2 : Bool) : Statement (.decodeDxt5 is2) := of_lt _ (encodeWord_lt _)

theorem decodeEtc1 (is2 : Bool) : Statement (.decodeEtc1 is2) := of_lt _ (encodeWord_lt _)

theorem decodeEtc2 (is2 : Bool) : Statement (.decodeEtc2 is2) := of_lt _ (encodeWord_lt _)

theorem decodeEtc2a1 (is2 : Bool) : Statement (.decodeEtc2a1 is2) := of_lt _ (encodeWord_lt _)

theorem decodeEtc2a8 (is2 : Bool) : Statement (.decodeEtc2a8 is2) := of_lt _ (encodeWord_lt _)

theorem decodePvrtc4 : Statement .decodePvrtc4 := of_lt _ (encodeWord_lt _)

theorem decodePvrtc2 : Statement .decodePvrtc2 := of_lt _ (encodeWord_lt _)

theorem reservedFmt (fmt : BitVec 8) (is2 : Bool) : Statement (.reservedFmt fmt is2) := of_lt _ (encodeWord_lt _)

theorem dxt1Four (b : DxtColour) : Statement (.dxt1Four b) := of_lt _ (encodeWord_lt _)

theorem dxt1Three (b : DxtColour) : Statement (.dxt1Three b) := of_lt _ (encodeWord_lt _)

theorem dxt5Alpha7 (a : DxtAlpha) : Statement (.dxt5Alpha7 a) := of_lt _ (encodeWord_lt _)

theorem dxt5Alpha5 (a : DxtAlpha) : Statement (.dxt5Alpha5 a) := of_lt _ (encodeWord_lt _)

theorem dxt5Color (b : DxtColour) : Statement (.dxt5Color b) := of_lt _ (encodeWord_lt _)

theorem etcIndividual (b : EtcIndividual) : Statement (.etcIndividual b) := of_lt _ (encodeWord_lt _)

theorem etcT (b : EtcT) : Statement (.etcT b) := of_lt _ (encodeWord_lt _)

theorem etcH (b : EtcH) : Statement (.etcH b) := of_lt _ (encodeWord_lt _)

theorem etcPlanar (b : EtcPlanar) : Statement (.etcPlanar b) := of_lt _ (encodeWord_lt _)

theorem etcDifferential (b : EtcDifferential) : Statement (.etcDifferential b) := of_lt _ (encodeWord_lt _)

theorem eacAlpha (b : EacAlpha) : Statement (.eacAlpha b) := of_lt _ (encodeWord_lt _)

theorem etc2a1Block (alpha : Byte) (colour : BitVec 64) : Statement (.etc2a1Block alpha colour) := of_lt _ (encodeWord_lt _)

theorem etc2a8Block (alpha : BitVec 64) (colour : BitVec 64) : Statement (.etc2a8Block alpha colour) := of_lt _ (encodeWord_lt _)

theorem pvrtcBlock (ca : BitVec 16) (cb : BitVec 16) (m : BitVec 32) : Statement (.pvrtcBlock ca cb m) := of_lt _ (encodeWord_lt _)

theorem pvrtcColaOpaque (r : BitVec 5) (g : BitVec 5) (b : BitVec 4) (mflag : BitVec 1) :
    Statement (.pvrtcColaOpaque r g b mflag) := of_lt _ (encodeWord_lt _)

theorem pvrtcColaTranslucent (a : BitVec 3) (r : BitVec 4) (g : BitVec 4) (b : BitVec 3) (mflag : BitVec 1) :
    Statement (.pvrtcColaTranslucent a r g b mflag) :=
  of_lt _ (encodeWord_lt _)

theorem pvrtcColbOpaque (r : BitVec 5) (g : BitVec 5) (b : BitVec 5) :
    Statement (.pvrtcColbOpaque r g b) := of_lt _ (encodeWord_lt _)

theorem pvrtcColbTranslucent (a : BitVec 3) (r : BitVec 4) (g : BitVec 4) (b : BitVec 4) :
    Statement (.pvrtcColbTranslucent a r g b) := of_lt _ (encodeWord_lt _)

theorem pvrtcMod4Standard (m : BitVec 32) : Statement (.pvrtcMod4Standard m) := of_lt _ (encodeWord_lt _)

theorem pvrtcMod4Punchthrough (m : BitVec 32) : Statement (.pvrtcMod4Punchthrough m) := of_lt _ (encodeWord_lt _)

theorem pvrtcMod2Direct (m : BitVec 32) : Statement (.pvrtcMod2Direct m) := of_lt _ (encodeWord_lt _)

theorem pvrtcMod2Interpolated (m : BitVec 32) : Statement (.pvrtcMod2Interpolated m) := of_lt _ (encodeWord_lt _)

end Sys2Proof.Laws.EncodeLength
end

