-- ==== Sys2Proof/Laws/Progress.lean ====
section
/-! SUPPORT. How a command goes on: the step that starts it, and each block-step of a running one. -/

namespace Sys2Proof.Machine

open Sys2Proof

/-- A block-step of a running command over memory that answers goes on: either it was the last and the unit is DONE, or the
command still runs with one block-step less to take. -/
theorem unitStep_progress {s : State} {f : Format} (h : s.Running f) (hb : s.st = .busy) (hk : s.backed f) :
    ∃ t, unitStep s = .next t ∧ t.hostQ = s.hostQ ∧ t.err = s.err ∧ t.backed f ∧ t.grid f = s.grid f ∧
      ((blockStepsLeft (s.grid f) s.pc = 1 ∧ t.st = .done) ∨
        (t.Running f ∧ t.st = .busy ∧ blockStepsLeft (s.grid f) t.pc + 1 = blockStepsLeft (s.grid f) s.pc)) := by
  cases hp : s.pc.phase with
  | expand =>
    obtain ⟨hpv, hkc⟩ := (cursorOk_expand hp).1 h.cursor
    rcases expand_step h hb hp with ⟨ha, _⟩ | ⟨_, ca, cb, m, u, hd, hu, hst⟩
    · have := memAnswer_backed h.ranges h.apart hk (expandAccess_in hpv hkc)
      rw [this] at ha; cases ha
    obtain ⟨u', hu', eu, e2, e3, e4⟩ := pvrtcBlock_effect ca cb m s
    rw [hu] at hu'; cases hu'
    refine ⟨_, hst, ?_⟩
    have hrec := h.records hpv
    simp only [recordsWritten, hp] at hrec
    rw [eu]
    refine ⟨rfl, rfl, hk, rfl, .inr ⟨⟨h.selects, h.ranges, h.grid, h.long, h.scratch, h.apart, ?_, ?_⟩, hb, ?_⟩⟩
    · show cursorOk f { s with pc := advanceExpand (s.grid f) s.pc } = true
      unfold advanceExpand
      split
      · rw [cursorOk_expand rfl]; exact ⟨hpv, by assumption⟩
      · rw [cursorOk_walk rfl]; exact Grid.count_pos.1 (Nat.lt_of_le_of_lt (Nat.zero_le _) hkc)
    · intro _ k hk'
      show (texRead u.tex k).Expanded s.is2
      by_cases hkk : k = s.pc.k
      · subst hkk; exact e3
      · rw [e4 k hkk]
        apply hrec
        change k < recordsWritten (s.grid f) (advanceExpand (s.grid f) s.pc) at hk'
        unfold advanceExpand at hk'
        split at hk' <;> simp only [recordsWritten] at hk' <;> omega
    · show blockStepsLeft (s.grid f) (advanceExpand (s.grid f) s.pc) + 1 = _
      unfold advanceExpand
      split <;> simp [blockStepsLeft, hp] <;> omega
  | walk =>
    obtain ⟨hsx, htx⟩ := (cursorOk_walk hp).1 h.cursor
    have hu : ∃ u, EngineOnly s u ∧ (isPvrtc f = true → u.tex = s.tex) ∧
        unitStep s = .next (finishWalk (s.grid f) u) := by
      by_cases hpv : isPvrtc f = true
      · rcases walk_step_pvrtc h hb hp hpv with ⟨ha, _⟩ | ⟨_, hst⟩
        · have := memAnswer_backed h.ranges h.apart hk (walkStores_in_buffers hsx)
          rw [this] at ha; cases ha
        · refine ⟨_, engineOnly_pvrtcTileState _ _ s, fun _ => ?_, hst⟩
          unfold pvrtcTileState; split <;> simp
      · rcases walk_step h hb hp (by simpa using hpv) with ⟨ha, _⟩ | ⟨_, is, u, _, _, eu, hst⟩
        · have := memAnswer_backed h.ranges h.apart hk (walkAccesses_in hsx htx)
          rw [this] at ha; cases ha
        · exact ⟨u, eu, fun h => absurd h hpv, hst⟩
    obtain ⟨u, eu, e2, hst⟩ := hu
    refine ⟨_, hst, ?_⟩
    rw [eu]
    refine ⟨rfl, rfl, hk, rfl, ?_⟩
    have hmul : (s.pc.t + 1) * (s.grid f).nbx ≤ (s.grid f).nby * (s.grid f).nbx := Nat.mul_le_mul_right _ htx
    rw [Nat.add_mul, Nat.one_mul, Nat.mul_comm (s.grid f).nby] at hmul
    by_cases h1 : s.pc.s + 1 < (s.grid f).nbx
    · right
      have ha : advance (s.grid f) s.pc = { s.pc with phase := .walk, s := s.pc.s + 1 } := if_pos h1
      have hst : (if (advance (s.grid f) s.pc).t = (s.grid f).nby then UnitState.done else s.st) = .busy := by
        rw [ha, if_neg]; exact hb
        simp; omega
      refine ⟨⟨h.selects, h.ranges, h.grid, h.long, h.scratch, h.apart, ?_, ?_⟩, hst, ?_⟩
      · show cursorOk f { s with pc := advance (s.grid f) s.pc } = true
        rw [ha, cursorOk_walk rfl]; exact ⟨h1, htx⟩
      · intro hpv k hk
        show (texRead u.tex k).Expanded s.is2
        rw [e2 hpv]
        apply h.records hpv
        simp only [recordsWritten, hp]
        change k < recordsWritten (s.grid f) (advance (s.grid f) s.pc) at hk
        rwa [ha] at hk
      · show blockStepsLeft (s.grid f) (advance (s.grid f) s.pc) + 1 = _
        rw [ha]; simp [blockStepsLeft, hp, Grid.count]; omega
    · have ha : advance (s.grid f) s.pc = { s.pc with phase := .walk, s := 0, t := s.pc.t + 1 } := if_neg h1
      by_cases h2 : s.pc.t + 1 = (s.grid f).nby
      · left
        refine ⟨?_, ?_⟩
        · simp [blockStepsLeft, hp, Grid.count]
          rw [← h2, Nat.mul_add, Nat.mul_comm]; omega
        · show (if (advance (s.grid f) s.pc).t = (s.grid f).nby then UnitState.done else s.st) = .done
          rw [ha, if_pos h2]
      · right
        have hst : (if (advance (s.grid f) s.pc).t = (s.grid f).nby then UnitState.done else s.st) = .busy := by
          rw [ha, if_neg h2]; exact hb
        have hmul2 : (s.pc.t + 2) * (s.grid f).nbx ≤ (s.grid f).nby * (s.grid f).nbx := Nat.mul_le_mul_right _ (by omega)
        rw [Nat.add_mul, Nat.mul_comm (s.grid f).nby] at hmul2
        refine ⟨⟨h.selects, h.ranges, h.grid, h.long, h.scratch, h.apart, ?_, ?_⟩, hst, ?_⟩
        · show cursorOk f { s with pc := advance (s.grid f) s.pc } = true
          rw [ha, cursorOk_walk rfl]; refine ⟨?_, ?_⟩
          · show 0 < (s.grid f).nbx
            omega
          · show s.pc.t + 1 < (s.grid f).nby
            omega
        · intro hpv k hk
          show (texRead u.tex k).Expanded s.is2
          rw [e2 hpv]
          apply h.records hpv
          simp only [recordsWritten, hp]
          change k < recordsWritten (s.grid f) (advance (s.grid f) s.pc) at hk
          rwa [ha] at hk
        · show blockStepsLeft (s.grid f) (advance (s.grid f) s.pc) + 1 = _
          rw [ha]; simp [blockStepsLeft, hp, Grid.count, Nat.add_mul]; omega

/-- The step that takes START, for a command that passes the checks: the command runs, with all its block-steps to take. -/
theorem step_start {s : State} {f : Format} {q : List HostOp} (hl : s.Launchable f) (hf : s.format = some f)
    (hq : s.hostQ = .wr 0 1 :: q) :
    ∃ t, step s = .next t ∧ t = acceptBusy (if isPvrtc f then .expand else .walk) { s with hostQ := q } ∧
      t.Running f ∧ blockStepsLeft (t.grid f) t.pc = blockSteps f s := by
  have hl' : State.Launchable f { s with hostQ := q } :=
    ⟨hl.idle, hl.nonempty, hl.ranges, hl.grid, hl.long, hl.scratch, hl.apart⟩
  refine ⟨_, ?_, rfl, ⟨hf, hl.ranges, hl.grid, hl.long, hl.scratch, hl.apart, ?_, ?_⟩, ?_⟩
  · rw [step_access hq (by simp)]
    exact (congrArg (fun o => accept o { s with hostQ := q })
      (show State.format { s with hostQ := q } = some f from hf)).trans (accept_launchable hl')
  · by_cases hpv : isPvrtc f = true
    · rw [if_pos hpv]; rw [cursorOk_expand rfl]; exact ⟨hpv, hl.nonempty⟩
    · rw [if_neg hpv]; rw [cursorOk_walk rfl]; exact Grid.count_pos.1 hl.nonempty
  · intro hpv k hk
    simp [hpv, acceptBusy, recordsWritten] at hk
  · show blockStepsLeft (s.grid f) _ = _
    by_cases hpv : isPvrtc f = true
    · simp [hpv, acceptBusy, blockStepsLeft, blockSteps]; omega
    · simp [hpv, acceptBusy, blockStepsLeft, blockSteps]

end Sys2Proof.Machine
end

