-- ==== Sys2Proof/Tests/Slice0.lean ====
section
/-! SUPPORT. Tests of the model: ill-formed terms, words written out from the spec's encodings, the spec's own vectors
(95_test_vectors), and for every statement with hypotheses a state and operands that meet them. -/

namespace Sys2Proof.Tests

open Sys2Proof Sys2Proof.Machine Sys2Proof.Claim

/-! ### Helpers -/

/-- The state after the instruction in a word of a block. -/
def after (k : WordKind) (bs : List Byte) (s : State) : Option State :=
  match decode k bs with
  | .ok i =>
    match exec i s with
    | .next t => some t
    | .fault _ => none
    | .refused _ => none
  | .error _ => none

/-- A pixel as numbers. -/
def nums (p : Pixel) : Nat × Nat × Nat × Nat := (p.r.toNat, p.g.toNat, p.b.toNat, p.a.toNat)

/-- Row `r` of a 4x4 tile. -/
def row (r : Nat) (t : State) : List (Nat × Nat × Nat × Nat) := (List.range 4).map fun c => nums (tileAt t.tile (4 * r + c))

/-- The alphas of row `r`. -/
def alphas (r : Nat) (t : State) : List Nat := (List.range 4).map fun c => (tileAt t.tile (4 * r + c)).a.toNat

/-- The record at storage index 0. -/
def record (t : State) : TexelInfo := texRead t.tex 0

/-- `n` weights of the record from entry `lo` on. -/
def weights (lo n : Nat) (t : State) : List Weight := (List.range n).map fun i => (record t).weight (lo + i)

/-- A colour of a record as numbers. -/
def texel (c : Texel) : Nat × Nat × Nat × Nat := (c.r.toNat, c.g.toNat, c.b.toNat, c.a.toNat)

/-- The state after reset with DXT5_COLOR_MODE = as_dxt1. -/
def asDxt1 : State := { State.reset with cfg := { defaultConfig with dxt5ColorMode := .asDxt1 } }

/-- The state after reset with is2 set. -/
def twoBpp : State := { State.reset with is2 := true }

/-- An outcome is this next state. -/
def Gives (o : Result) (t : State) : Prop := o = .next t

/-- STATUS after an outcome. -/
def status (o : Result) : Option Nat :=
  match o with
  | .next t => some (readReg t 1).toNat
  | .fault _ => none
  | .refused _ => none

/-- Registers of a command: selector, source, length, DST_BASE / 4, width, height; a scratch of 65536 blocks, as
95_test_vectors has it. -/
def command (fmt : BitVec 8) (is2 : Bool) (src len : Word) (dst : BitVec 30) (w h : BitVec 16) : State :=
  { State.reset with
    cfg := { defaultConfig with scratchBlocks := 65536 }, fmt := fmt, is2 := is2, src := src, len := len, dst := dst,
    width := w, height := h }

/-! ### Ill-formed terms are refused -/

theorem test_wf_dxt1Four_equal : Instr.wf (.dxt1Four { q0 := 5, q1 := 5, idx := 0 }) = false := by decide

theorem test_wf_dxt1Three_greater : Instr.wf (.dxt1Three { q0 := 6, q1 := 5, idx := 0 }) = false := by decide

theorem test_wf_alpha7_equal : Instr.wf (.dxt5Alpha7 { a0 := 9, a1 := 9, idx := 0 }) = false := by decide

theorem test_wf_alpha5_greater : Instr.wf (.dxt5Alpha5 { a0 := 10, a1 := 9, idx := 0 }) = false := by decide

theorem test_wf_reserved_one : Instr.wf (.reservedFmt 1 false) = false := by decide

theorem test_wf_reserved_seven : Instr.wf (.reservedFmt 7 true) = false := by decide

theorem test_wf_reserved_bounds : Instr.wf (.reservedFmt 0 false) = true ∧ Instr.wf (.reservedFmt 8 false) = true ∧
    Instr.wf (.reservedFmt 255 true) = true := by decide

/-! ### Words written out from the spec's encodings -/

/-- R21: bit 0. -/
theorem test_decode_start :
    decode .ctrl [0x01, 0x00, 0x00, 0x00] =
      .ok (.start false) := by
  decide

/-- R21: START wins when both bits are set. -/
theorem test_decode_start_both :
    decode .ctrl [0x03, 0x00, 0x00, 0x00] =
      .ok (.start true) := by
  decide

/-- R21: bit 1. -/
theorem test_decode_clear :
    decode .ctrl [0x02, 0x00, 0x00, 0x00] =
      .ok (.clear) := by
  decide

/-- R71. -/
theorem test_decode_decodeDxt1 :
    decode .command [0x01, 0x00, 0x00, 0x00] =
      .ok (.decodeDxt1 false) := by
  decide

/-- R71: bit 8 is the ignored is2. -/
theorem test_decode_decodeDxt5 :
    decode .command [0x02, 0x01, 0x00, 0x00] =
      .ok (.decodeDxt5 true) := by
  decide

/-- R71. -/
theorem test_decode_decodeEtc1 :
    decode .command [0x03, 0x00, 0x00, 0x00] =
      .ok (.decodeEtc1 false) := by
  decide

/-- R71. -/
theorem test_decode_decodeEtc2 :
    decode .command [0x04, 0x00, 0x00, 0x00] =
      .ok (.decodeEtc2 false) := by
  decide

/-- R71. -/
theorem test_decode_decodeEtc2a1 :
    decode .command [0x05, 0x00, 0x00, 0x00] =
      .ok (.decodeEtc2a1 false) := by
  decide

/-- R71. -/
theorem test_decode_decodeEtc2a8 :
    decode .command [0x06, 0x00, 0x00, 0x00] =
      .ok (.decodeEtc2a8 false) := by
  decide

/-- R71. -/
theorem test_decode_decodePvrtc4 :
    decode .command [0x07, 0x00, 0x00, 0x00] =
      .ok (.decodePvrtc4) := by
  decide

/-- R71. -/
theorem test_decode_decodePvrtc2 :
    decode .command [0x07, 0x01, 0x00, 0x00] =
      .ok (.decodePvrtc2) := by
  decide

/-- R73. -/
theorem test_decode_reservedFmt :
    decode .command [0x08, 0x00, 0x00, 0x00] =
      .ok (.reservedFmt 8 false) := by
  decide

/-- R73. -/
theorem test_decode_reservedFmt_zero :
    decode .command [0x00, 0x01, 0x00, 0x00] =
      .ok (.reservedFmt 0 true) := by
  decide

/-- V-DXT1-02. -/
theorem test_decode_dxt1Four :
    decode .dxt1 [0x00, 0xF8, 0x1F, 0x00, 0x1B, 0x1B, 0x1B, 0x1B] =
      .ok (.dxt1Four { q0 := 0xF800, q1 := 0x001F, idx := 0x1B1B1B1B }) := by
  decide

/-- V-DXT1-07: equal endpoints. -/
theorem test_decode_dxt1Three :
    decode .dxt1 [0x34, 0x12, 0x34, 0x12, 0xE4, 0x00, 0x55, 0xAA] =
      .ok (.dxt1Three { q0 := 0x1234, q1 := 0x1234, idx := 0xAA5500E4 }) := by
  decide

/-- R75. -/
theorem test_decode_dxt5Alpha7 :
    decode .dxt5Alpha [0xC8, 0x32, 0xFF, 0xFF, 0xFF, 0xFF, 0xFF, 0x7F] =
      .ok (.dxt5Alpha7 { a0 := 200, a1 := 50, idx := 0x7FFFFFFFFFFF }) := by
  decide

/-- V-DXT5-03: equal endpoints. -/
theorem test_decode_dxt5Alpha5 :
    decode .dxt5Alpha [0x64, 0x64, 0x88, 0xC6, 0xFA, 0x88, 0xC6, 0xFA] =
      .ok (.dxt5Alpha5 { a0 := 100, a1 := 100, idx := 0xFAC688FAC688 }) := by
  decide

/-- V-DXT5-02. -/
theorem test_decode_dxt5Color :
    decode .dxt5Colour [0x1F, 0x00, 0x00, 0xF8, 0xE4, 0xE4, 0xE4, 0xE4] =
      .ok (.dxt5Color { q0 := 0x001F, q1 := 0xF800, idx := 0xE4E4E4E4 }) := by
  decide

/-- R77. -/
theorem test_decode_etcIndividual :
    decode (.etcColour true) [0x12, 0x34, 0x56, 0xE1, 0xFF, 0x00, 0xF0, 0xF1] =
      .ok (.etcIndividual
        { r1 := 1, r2 := 2, g1 := 3, g2 := 4, b1 := 5, b2 := 6, tw0 := 7, tw1 := 0, flip := 1, m := 0xFF00, l := 0xF0F1 }) := by
  decide

/-- V-ETC-11. -/
theorem test_decode_etcDifferential :
    decode (.etcColour true) [0x43, 0x83, 0xC4, 0x4B, 0xFF, 0x00, 0xF0, 0xF0] =
      .ok (.etcDifferential
        { r := 8, dr := 3, g := 16, dg := 3, b := 24, db := 4, tw0 := 2, tw1 := 2, flip := 1, m := 0xFF00, l := 0xF0F0 }) := by
  decide

/-- V-ETC-12. -/
theorem test_decode_etcDifferential_etc1 :
    decode (.etcColour false) [0xF9, 0x00, 0x00, 0x02, 0xFF, 0x00, 0xF0, 0xF0] =
      .ok (.etcDifferential
        { r := 31, dr := 1, g := 0, dg := 0, b := 0, db := 0, tw0 := 0, tw1 := 0, flip := 0, m := 0xFF00, l := 0xF0F0 }) := by
  decide

/-- V-ETC-22. -/
theorem test_decode_etcT :
    decode (.etcColour true) [0xF2, 0x35, 0xC7, 0x1B, 0xFF, 0x00, 0xF0, 0xF0] =
      .ok (.etcT { r1 := 10, g1 := 3, b1 := 5, r2 := 12, g2 := 7, b2 := 1, di := 5, m := 0xFF00, l := 0xF0F0 }) := by
  decide

/-- V-ETC-25. -/
theorem test_decode_etcH :
    decode (.etcColour true) [0x34, 0xF9, 0x96, 0xA6, 0xFF, 0x00, 0xF0, 0xF0] =
      .ok (.etcH
        { r1 := 6, g1 := 9, b1 := 11, r2 := 2, g2 := 13, b2 := 4, da := 1, db := 0, m := 0xFF00, l := 0xF0F0 }) := by
  decide

/-- V-ETC-32. -/
theorem test_decode_etcPlanar :
    decode (.etcColour true) [0x94, 0x28, 0xFB, 0x66, 0xC8, 0x28, 0x1F, 0xFF] =
      .ok (.etcPlanar
        { ro := 10, go := 20, bo := 30, rh := 50, gh := 100, bh := 5, rv := 0, gv := 127, bv := 63 }) := by
  decide

/-- V-ETC-50. -/
theorem test_decode_eacAlpha :
    decode .eacAlpha [0x80, 0x2D, 0x05, 0x39, 0x77, 0x05, 0x39, 0x77] =
      .ok (.eacAlpha { base := 128, mult := 2, tsel := 13, idx := 0x053977053977 }) := by
  decide

/-- V-ETC-40. -/
theorem test_decode_etc2a1Block :
    decode .etc2a1 [0x80, 0x12, 0x34, 0x56, 0x00, 0xFF, 0x00, 0xF0, 0xF0] =
      .ok (.etc2a1Block 0x80 0x12345600FF00F0F0) := by
  decide

/-- V-ETC-56. -/
theorem test_decode_etc2a8Block :
    decode .etc2a8 [0x80, 0x2D, 0x05, 0x39, 0x77, 0x05, 0x39, 0x77, 0x12, 0x34, 0x56, 0x00, 0xFF, 0x00, 0xF0, 0xF0] =
      .ok (.etc2a8Block 0x802D053977053977 0x12345600FF00F0F0) := by
  decide

/-- R80. -/
theorem test_decode_pvrtcBlock :
    decode .pvrtc [0xE4, 0xE5, 0xE6, 0xE7, 0x01, 0x80, 0xFF, 0xFE] =
      .ok (.pvrtcBlock 0x8001 0xFEFF 0xE7E6E5E4) := by
  decide

/-- R80: 0x821F. -/
theorem test_decode_pvrtcColaOpaque :
    decode .colourA [0x1F, 0x82] =
      .ok (.pvrtcColaOpaque 0 16 15 1) := by
  decide

/-- V-PVR-05. -/
theorem test_decode_pvrtcColaTranslucent :
    decode .colourA [0x34, 0x12] =
      .ok (.pvrtcColaTranslucent 1 2 3 2 0) := by
  decide

/-- R80. -/
theorem test_decode_pvrtcColbOpaque :
    decode .colourB [0x1E, 0x80] =
      .ok (.pvrtcColbOpaque 0 0 30) := by
  decide

/-- V-PVR-05. -/
theorem test_decode_pvrtcColbTranslucent :
    decode .colourB [0x34, 0x12] =
      .ok (.pvrtcColbTranslucent 1 2 3 4) := by
  decide

/-- R80. -/
theorem test_decode_pvrtcMod4Standard :
    decode (.modulation false false) [0x55, 0xAA, 0x0F, 0xF0] =
      .ok (.pvrtcMod4Standard 0xF00FAA55) := by
  decide

/-- V-PVR-12. -/
theorem test_decode_pvrtcMod4Punchthrough :
    decode (.modulation false true) [0x1B, 0x00, 0xFF, 0xAA] =
      .ok (.pvrtcMod4Punchthrough 0xAAFF001B) := by
  decide

/-- V-PVR-13. -/
theorem test_decode_pvrtcMod2Direct :
    decode (.modulation true false) [0x55, 0xAA, 0x0F, 0xF0] =
      .ok (.pvrtcMod2Direct 0xF00FAA55) := by
  decide

/-- V-PVR-16. -/
theorem test_decode_pvrtcMod2Interpolated :
    decode (.modulation true true) [0xE5, 0xE4, 0xF4, 0xE4] =
      .ok (.pvrtcMod2Interpolated 0xE4F4E4E5) := by
  decide

/-- R21: no strobe bit set. -/
theorem test_decode_noStrobe : decode .ctrl [0xFC, 0xFF, 0xFF, 0xFF] = .error .noStrobe := by decide

/-- R72: a block of the wrong length is no block. -/
theorem test_decode_wrongLength : decode .etc2a1 [0, 0, 0, 0, 0, 0, 0, 0] = .error .wrongLength := by decide

/-- Mode selection alone, 95_test_vectors 2.5: diff bit set, ETC2. -/
theorem test_etcMode_vectors :
    [0x8181810200000000#64, 0xF900000200000000#64, 0x00F9000200000000#64, 0x0000F90200000000#64, 0xF9F9F90200000000#64,
      0x00F9F90200000000#64].map (etcMode true) = [.differential, .t, .h, .planar, .t, .h] := by
  decide

/-! ### One instruction on a small state -/

/-- V-DXT1-10. -/
theorem test_dxt1Four_row :
    (after .dxt1 [0xCD, 0xAB, 0x34, 0x12, 0xE4, 0xE4, 0xE4, 0xE4] State.reset).map (row 0) =
      some [(173, 121, 107, 255), (16, 69, 165, 255), (120, 103, 126, 255), (68, 86, 145, 255)] := by
  decide

/-- V-DXT1-04, row 1. -/
theorem test_dxt1Four_order :
    (after .dxt1 [0x00, 0xF8, 0x1F, 0x00, 0xE4, 0x4E, 0x00, 0xFF] State.reset).map (row 1) =
      some [(170, 0, 85, 255), (85, 0, 170, 255), (255, 0, 0, 255), (0, 0, 255, 255)] := by
  decide

/-- V-DXT1-11: index 3 is opaque black. -/
theorem test_dxt1Three_row :
    (after .dxt1 [0x34, 0x12, 0xCD, 0xAB, 0xE4, 0xE4, 0xE4, 0xE4] State.reset).map (row 2) =
      some [(16, 69, 165, 255), (173, 121, 107, 255), (94, 95, 136, 255), (0, 0, 0, 255)] := by
  decide

/-- V-DXT1-06. -/
theorem test_dxt1Three_equal :
    (after .dxt1 [0x00, 0xF8, 0x00, 0xF8, 0x03, 0x00, 0x00, 0x00] State.reset).map (row 0) =
      some [(0, 0, 0, 255), (255, 0, 0, 255), (255, 0, 0, 255), (255, 0, 0, 255)] := by
  decide

/-- V-DXT5-01, row 0. -/
theorem test_dxt5Alpha7_low :
    (after .dxt5Alpha [0xFF, 0x00, 0x88, 0xC6, 0xFA, 0x88, 0xC6, 0xFA] State.reset).map (alphas 0) =
      some [255, 0, 218, 182] := by
  decide

/-- V-DXT5-01, row 1. -/
theorem test_dxt5Alpha7_high :
    (after .dxt5Alpha [0xFF, 0x00, 0x88, 0xC6, 0xFA, 0x88, 0xC6, 0xFA] State.reset).map (alphas 1) =
      some [145, 109, 72, 36] := by
  decide

/-- V-DXT5-02, row 2. -/
theorem test_dxt5Alpha5_low :
    (after .dxt5Alpha [0x00, 0xFF, 0x88, 0xC6, 0xFA, 0x88, 0xC6, 0xFA] State.reset).map (alphas 2) =
      some [0, 255, 51, 102] := by
  decide

/-- V-DXT5-03, row 3. -/
theorem test_dxt5Alpha5_high :
    (after .dxt5Alpha [0x64, 0x64, 0x88, 0xC6, 0xFA, 0x88, 0xC6, 0xFA] State.reset).map (alphas 3) =
      some [100, 100, 0, 255] := by
  decide

/-- V-DXT5-02 over an alpha of 0: always_four. -/
theorem test_dxt5Color_four :
    (after .dxt5Colour [0x1F, 0x00, 0x00, 0xF8, 0xE4, 0xE4, 0xE4, 0xE4] State.reset).map (row 0) =
      some [(0, 0, 255, 0), (255, 0, 0, 0), (85, 0, 170, 0), (170, 0, 85, 0)] := by
  decide

/-- V-DXT5-02 with DXT5_COLOR_MODE = as_dxt1. -/
theorem test_dxt5Color_asDxt1 :
    (after .dxt5Colour [0x1F, 0x00, 0x00, 0xF8, 0xE4, 0xE4, 0xE4, 0xE4] asDxt1).map (row 0) =
      some [(0, 0, 255, 0), (255, 0, 0, 0), (127, 0, 127, 0), (0, 0, 0, 0)] := by
  decide

/-- V-ETC-03, row 1. -/
theorem test_etcIndividual_flip :
    (after (.etcColour false) [0x12, 0x34, 0x56, 0x01, 0xFF, 0x00, 0xF0, 0xF0] State.reset).map (row 1) =
      some [(19, 53, 87, 255), (25, 59, 93, 255), (15, 49, 83, 255), (9, 43, 77, 255)] := by
  decide

/-- V-ETC-05. -/
theorem test_etcIndividual_clamp :
    (after (.etcColour false) [0xF0, 0x0F, 0xF0, 0xFC, 0xFF, 0x00, 0xF0, 0xF0] State.reset).map (row 0) =
      some [(255, 47, 255, 255), (255, 183, 255, 255), (0, 208, 0, 255), (0, 72, 0, 255)] := by
  decide

/-- V-ETC-11, row 2. -/
theorem test_etcDifferential_row :
    (after (.etcColour true) [0x43, 0x83, 0xC4, 0x4B, 0xFF, 0x00, 0xF0, 0xF0] State.reset).map (row 2) =
      some [(99, 165, 174, 255), (119, 185, 194, 255), (81, 147, 156, 255), (61, 127, 136, 255)] := by
  decide

/-- V-ETC-13: 0 - 4 wraps to 28. -/
theorem test_etcDifferential_wrap :
    (after (.etcColour false) [0x04, 0x00, 0x00, 0x02, 0xFF, 0x00, 0xF0, 0xF0] State.reset).map (row 0) =
      some [(2, 2, 2, 255), (8, 8, 8, 255), (229, 0, 0, 255), (223, 0, 0, 255)] := by
  decide

/-- V-ETC-22. -/
theorem test_etcT_row :
    (after (.etcColour true) [0xF2, 0x35, 0xC7, 0x1B, 0xFF, 0x00, 0xF0, 0xF0] State.reset).map (row 0) =
      some [(170, 51, 85, 255), (236, 151, 49, 255), (204, 119, 17, 255), (172, 87, 0, 255)] := by
  decide

/-- V-ETC-21. -/
theorem test_etcT_underflow :
    (after (.etcColour true) [0x04, 0x00, 0x00, 0x02, 0xFF, 0x00, 0xF0, 0xF0] State.reset).map (row 3) =
      some [(0, 0, 0, 255), (3, 3, 3, 255), (0, 0, 0, 255), (0, 0, 0, 255)] := by
  decide

/-- V-ETC-25. -/
theorem test_etcH_row :
    (after (.etcColour true) [0x34, 0xF9, 0x96, 0xA6, 0xFF, 0x00, 0xF0, 0xF0] State.reset).map (row 0) =
      some [(134, 185, 219, 255), (70, 121, 155, 255), (66, 253, 100, 255), (2, 189, 36, 255)] := by
  decide

/-- V-ETC-27: the first colour is the smaller. -/
theorem test_etcH_less :
    (after (.etcColour true) [0x16, 0xF2, 0x34, 0xDE, 0xFF, 0x00, 0xF0, 0xF0] State.reset).map (row 0) =
      some [(57, 244, 91, 255), (11, 198, 45, 255), (125, 176, 210, 255), (79, 130, 164, 255)] := by
  decide

/-- V-ETC-32, row 1. -/
theorem test_etcPlanar_row1 :
    (after (.etcColour true) [0x94, 0x28, 0xFB, 0x66, 0xC8, 0x28, 0x1F, 0xFF] State.reset).map (row 1) =
      some [(30, 94, 155, 255), (71, 134, 129, 255), (112, 174, 104, 255), (152, 215, 79, 255)] := by
  decide

/-- V-ETC-33, row 3. -/
theorem test_etcPlanar_row3 :
    (after (.etcColour true) [0x41, 0x01, 0x04, 0x02, 0x00, 0x07, 0xFF, 0xFF] State.reset).map (row 3) =
      some [(224, 224, 224, 255), (191, 191, 191, 255), (159, 159, 159, 255), (126, 127, 126, 255)] := by
  decide

/-- V-ETC-55, row 1. -/
theorem test_eacAlpha_row :
    (after .eacAlpha [0xC8, 0x4F, 0x05, 0x39, 0x77, 0xFA, 0xC6, 0x88] State.reset).map (alphas 1) =
      some [180, 216, 224, 172] := by
  decide

/-- V-ETC-52, row 0. -/
theorem test_eacAlpha_clamp :
    (after .eacAlpha [0xFF, 0xF0, 0xEF, 0xBE, 0xFB, 0xEF, 0xBE, 0xFB] State.reset).map (alphas 0) =
      some [255, 255, 255, 255] := by
  decide

/-- V-ETC-41. -/
theorem test_etc2a1Block_row :
    (after .etc2a1 [0x00, 0xF2, 0x35, 0xC7, 0x1B, 0xFF, 0x00, 0xF0, 0xF0] State.reset).map (row 0) =
      some [(170, 51, 85, 0), (236, 151, 49, 0), (204, 119, 17, 0), (172, 87, 0, 0)] := by
  decide

/-- V-ETC-56, row 0. -/
theorem test_etc2a8Block_row :
    (after .etc2a8 [0x80, 0x2D, 0x05, 0x39, 0x77, 0x05, 0x39, 0x77, 0x12, 0x34, 0x56, 0x00, 0xFF, 0x00, 0xF0, 0xF0] State.reset).map (row 0) =
      some [(19, 53, 87, 126), (25, 59, 93, 128), (32, 66, 100, 126), (26, 60, 94, 128)] := by
  decide

/-- V-PVR-02. -/
theorem test_pvrtcColaOpaque_zero :
    (after .colourA [0x00, 0x80] State.reset).map (fun t => texel (record t).a) = some (0, 0, 0, 15) := by
  decide

/-- V-PVR-06. -/
theorem test_pvrtcColaOpaque_blue :
    (after .colourA [0x1E, 0x80] State.reset).map (fun t => texel (record t).a) = some (0, 0, 31, 15) := by
  decide

/-- V-PVR-05. -/
theorem test_pvrtcColaTranslucent_mixed :
    (after .colourA [0x34, 0x12] State.reset).map (fun t => texel (record t).a) = some (4, 6, 9, 2) := by
  decide

/-- V-PVR-07. -/
theorem test_pvrtcColaTranslucent_red :
    (after .colourA [0x00, 0x0F] State.reset).map (fun t => texel (record t).a) = some (31, 0, 0, 0) := by
  decide

/-- V-PVR-01. -/
theorem test_pvrtcColbOpaque_white :
    (after .colourB [0xFF, 0xFF] State.reset).map (fun t => texel (record t).b) = some (31, 31, 31, 15) := by
  decide

/-- V-PVR-05. -/
theorem test_pvrtcColbTranslucent_mixed :
    (after .colourB [0x34, 0x12] State.reset).map (fun t => texel (record t).b) = some (4, 6, 8, 2) := by
  decide

/-- V-PVR-03. -/
theorem test_pvrtcColbTranslucent_max :
    (after .colourB [0xFF, 0x7F] State.reset).map (fun t => texel (record t).b) = some (31, 31, 31, 14) := by
  decide

/-- V-PVR-10, row 1. -/
theorem test_pvrtcMod4Standard_row :
    (after (.modulation false false) [0xE4, 0xE4, 0xE4, 0xE4] State.reset).map (weights 4 4) =
      some [.stored 0, .stored 3, .stored 5, .stored 8] := by
  decide

/-- V-PVR-12, rows 0 and 1. -/
theorem test_pvrtcMod4Punchthrough_rows :
    (after (.modulation false true) [0x1B, 0x00, 0xFF, 0xAA] State.reset).map (weights 0 8) =
      some [.stored 8, .stored 4, .stored 4, .stored 0, .stored 0, .stored 0, .stored 0, .stored 0] := by
  decide

/-- V-PVR-12: the mask. -/
theorem test_pvrtcMod4Punchthrough_mask :
    (after (.modulation false true) [0x1B, 0x00, 0xFF, 0xAA] State.reset).map (fun t => (record t).pt) = some 0xF002 := by
  decide

/-- V-PVR-13, row 2. -/
theorem test_pvrtcMod2Direct_row :
    (after (.modulation true false) [0x55, 0xAA, 0x0F, 0xF0] twoBpp).map (weights 16 8) =
      some [.stored 8, .stored 8, .stored 8, .stored 8, .stored 0, .stored 0, .stored 0, .stored 0] := by
  decide

/-- V-PVR-17, row 0. -/
theorem test_pvrtcMod2Interpolated_row0 :
    (after (.modulation true true) [0xE7, 0xE4, 0xD4, 0xE4] twoBpp).map (weights 0 8) =
      some [.stored 8, .fill .v, .stored 3, .fill .v, .stored 5, .fill .v, .stored 8, .fill .v] := by
  decide

/-- V-PVR-15, row 2: entry 20 is 8 because M[21] is 1. -/
theorem test_pvrtcMod2Interpolated_row2 :
    (after (.modulation true true) [0xE5, 0xE4, 0xE4, 0xE4] twoBpp).map (weights 16 8) =
      some [.stored 0, .fill .h, .stored 3, .fill .h, .stored 8, .fill .h, .stored 8, .fill .h] := by
  decide

/-- V-PVR-11: the whole block, punch-through by bit 0 of colour A. -/
theorem test_pvrtcBlock_mask :
    (after .pvrtc [0xE4, 0xE4, 0xE4, 0xE4, 0x01, 0x80, 0xFF, 0xFF] State.reset).map (fun t =>
      ((record t).pt, texel (record t).a, texel (record t).b)) = some (0x4444, (0, 0, 0, 15), (31, 31, 31, 15)) := by
  decide

/-- V-PVR-14, row 1, 2bpp. -/
theorem test_pvrtcBlock_row :
    (after .pvrtc [0xE4, 0xE4, 0xE4, 0xE4, 0x01, 0x80, 0xFF, 0xFF] twoBpp).map (weights 8 8) =
      some [.fill .hv, .stored 0, .fill .hv, .stored 3, .fill .hv, .stored 5, .fill .hv, .stored 8] := by
  decide

/-- The Morton index of a 4 x 4 grid and of a 4 x 2 grid (95_test_vectors 2.7). -/
theorem test_morton_vectors :
    ((List.range 4).map fun t => (List.range 4).map fun s => morton 4 4 s t) =
      [[0, 2, 8, 10], [1, 3, 9, 11], [4, 6, 12, 14], [5, 7, 13, 15]] ∧
    ((List.range 2).map fun t => (List.range 4).map fun s => morton 4 2 s t) = [[0, 2, 4, 6], [1, 3, 5, 7]] := by
  decide

/-- R234 on a 4 x 4 grid: the nine storage indices around block (0, 1), the left column wrapping to s = 3 (indices by 95_test_vectors
2.7). -/
theorem test_neighbour_wraps :
    let tex := (List.range 16).map fun k => ({ TexelInfo.zero with pt := BitVec.ofNat 32 k } : TexelInfo)
    ((List.range 3).map fun ay => (List.range 3).map fun ax => (neighbour tex 4 4 0 1 ay ax).pt.toNat) =
      [[10, 0, 2], [11, 1, 3], [14, 4, 6]] := by
  decide

/-- The scratch of program P6 (95_test_vectors): black, red, green, blue A colours in storage order, the cursor at a block. -/
def p6 (s t : Nat) : State :=
  let colour := fun r g b : BitVec 5 => ({ TexelInfo.zero with a := { r := r, g := g, b := b, a := 15 } } : TexelInfo)
  { command 7 false 0x1000 32 0x800 8 8 with
    tex := [colour 0 0 0, colour 31 0 0, colour 0 31 0, colour 0 0 31], pc := { phase := .walk, s := s, t := t, k := 0 } }

/-- P6: tile row 2 of block (0, 0) is the left half of output row 5, tile row 3 of block (1, 1) the right half of row 0. -/
theorem test_pvrtcTile_p6 :
    row 2 (pvrtcTileState false ((p6 0 0).grid .pvrtc4) (p6 0 0)) =
      [(0, 0x7F, 0, 255), (0, 0x3F, 0, 255), (0, 0, 0, 255), (0, 0x3F, 0, 255)] ∧
    row 3 (pvrtcTileState false ((p6 1 1).grid .pvrtc4) (p6 1 1)) =
      [(0x5F, 0x1F, 0x5F, 255), (0x2F, 0x2F, 0x8F, 255), (0x00, 0x3F, 0xBF, 255), (0x2F, 0x2F, 0x8F, 255)] := by
  decide

/-! ### Commands -/

/-- V-CMD-02: START after reset raises UnknownFormat. -/
theorem test_start_reset : status (exec (.start false) State.reset) = some 0x33 := by decide

/-- V-CMD-19: both strobe bits with a valid command. -/
theorem test_start_both : status (exec (.start true) (command 1 false 0x1000 8 0x800 4 4)) = some 0x01 := by decide

/-- V-CMD-03: CLEAR from the error of V-CMD-02. -/
theorem test_clear_error : status (exec .clear { State.reset with st := .error, err := .unknownFormat }) = some 0 := by
  decide

/-- R101: CLEAR while BUSY is ignored. -/
theorem test_clear_busy : status (exec .clear { State.reset with st := .busy }) = some 1 := by decide

/-- V-CMD-06: one byte short. -/
theorem test_decodeDxt1_short : status (exec (.decodeDxt1 false) (command 1 false 0x1000 31 0x800 8 8)) = some 0x13 := by
  decide

/-- V-CMD-11: a source range that ends at 2^32, and one that passes it. -/
theorem test_decodeDxt1_edge :
    status (exec (.decodeDxt1 false) (command 1 false 0xFFFFFFF8 8 0x800 4 4)) = some 0x01 ∧
    status (exec (.decodeDxt1 false) (command 1 false 0xFFFFFFF9 8 0x800 4 4)) = some 0x53 := by
  decide

/-- R112: 16 bytes a block. -/
theorem test_decodeDxt5_need :
    status (exec (.decodeDxt5 false) (command 2 false 0x1000 15 0x800 4 4)) = some 0x13 ∧
    status (exec (.decodeDxt5 false) (command 2 false 0x1000 16 0x800 4 4)) = some 0x01 := by
  decide

/-- R113: 8 bytes a block. -/
theorem test_decodeEtc1_need :
    status (exec (.decodeEtc1 false) (command 3 false 0x1000 15 0x800 6 2)) = some 0x13 ∧
    status (exec (.decodeEtc1 false) (command 3 false 0x1000 16 0x800 6 2)) = some 0x01 := by
  decide

/-- R114: as R113. -/
theorem test_decodeEtc2_need :
    status (exec (.decodeEtc2 true) (command 4 true 0x1000 7 0x800 4 4)) = some 0x13 ∧
    status (exec (.decodeEtc2 true) (command 4 true 0x1000 8 0x800 4 4)) = some 0x01 := by
  decide

/-- R115, V-GRID-6: 9 bytes a block. -/
theorem test_decodeEtc2a1_need :
    status (exec (.decodeEtc2a1 false) (command 5 false 0x1000 17 0x800 7 3)) = some 0x13 ∧
    status (exec (.decodeEtc2a1 false) (command 5 false 0x1000 18 0x800 7 3)) = some 0x01 := by
  decide

/-- R116: 16 bytes a block. -/
theorem test_decodeEtc2a8_need :
    status (exec (.decodeEtc2a8 false) (command 6 false 0x1000 63 0x800 8 8)) = some 0x13 ∧
    status (exec (.decodeEtc2a8 false) (command 6 false 0x1000 64 0x800 8 8)) = some 0x01 := by
  decide

/-- V-CMD-07: BadGeometry wins over InputTooShort. -/
theorem test_decodePvrtc4_grid : status (exec .decodePvrtc4 (command 7 false 0x1000 0 0x800 12 12)) = some 0x53 := by
  decide

/-- V-CMD-09, V-CMD-10: SCRATCH_BLOCKS = 4. -/
theorem test_decodePvrtc4_scratch :
    status (exec .decodePvrtc4 { command 7 false 0x1000 64 0x800 16 8 with
      cfg := { defaultConfig with scratchBlocks := 4 } }) = some 0x23 ∧
    status (exec .decodePvrtc4 { command 7 false 0x1000 63 0x800 16 8 with
      cfg := { defaultConfig with scratchBlocks := 4 } }) = some 0x13 := by
  decide

/-- V-CMD-08, V-GRID-11: three columns of blocks are refused, two are not. -/
theorem test_decodePvrtc2_grid :
    status (exec .decodePvrtc2 (command 7 true 0x1000 24 0x800 24 4)) = some 0x53 ∧
    status (exec .decodePvrtc2 (command 7 true 0x1000 16 0x800 9 4)) = some 0x01 := by
  decide

/-- V-CMD-14: the format check comes first. -/
theorem test_reservedFmt_empty : status (exec (.reservedFmt 9 false) (command 9 false 0 0 0 0 0)) = some 0x33 := by
  decide

/-- V-CMD-13: a zero dimension is DONE at once. -/
theorem test_start_empty : status (exec (.start false) (command 1 false 7 0 9 0 7)) = some 0x02 := by decide

/-! ### One block-step -/

/-- The state of program P1 just after START, its source block in memory. -/
def p1 : State :=
  { command 1 false 0x1000 8 0x800 4 4 with
    st := .busy, mem := Memory.writeBytes [] 0x1000 [0x00, 0xF8, 0x1F, 0x00, 0xE4, 0x4E, 0x00, 0xFF] }

/-- R300: a reset of the running P1 command goes to IDLE with the registers 0. -/
theorem test_reset_busy :
    (match step { p1 with hostQ := [.reset] } with
     | .next t => some ((readReg t 1).toNat, (readReg t 3).toNat, t.mem.read 0x1001)
     | .fault _ => none
     | .refused _ => none) = some (0, 0, 0xF8) := by
  decide

/-- P1: the block-step of the only block ends the command, and row 1 of the picture is tile row 2 (the flip). -/
theorem test_step_p1 :
    (match step p1 with
     | .next t => some ((readReg t 1).toNat, t.mem.readBytes 0x2014 12)
     | .fault _ => none
     | .refused _ => none) =
      some (2, [0xFF, 0x00, 0x00, 0xFF, 0xFF, 0x00, 0x00, 0xFF, 0xFF, 0x00, 0x00, 0xFF]) := by
  decide

/-- P1: the top row of the picture is tile row 3. -/
theorem test_step_p1_top :
    (match step p1 with
     | .next t => some (t.mem.readBytes 0x2000 8)
     | .fault _ => none
     | .refused _ => none) = some [0x55, 0x00, 0xAA, 0xFF, 0x55, 0x00, 0xAA, 0xFF] := by
  decide

/-- V-PVR-33: one WALK step of a one-block 2bpp picture; the last row of the picture is tile row 0, its second pixel a derived
weight 1. -/
theorem test_step_pvrtc2 :
    (match after .pvrtc [0xE4, 0xE4, 0xE4, 0xE4, 0x01, 0x80, 0xFF, 0xFF] (command 7 true 0x1000 8 0x800 8 4) with
     | none => none
     | some t =>
       match step { t with st := .busy } with
       | .next u => some ((readReg u 1).toNat, u.mem.readBytes 0x2060 12)
       | .fault _ => none
       | .refused _ => none) =
      some (2, [0x00, 0x00, 0x00, 0xFF, 0x1F, 0x1F, 0x1F, 0xFF, 0x5F, 0x5F, 0x5F, 0xFF]) := by
  decide +kernel

/-- V-GRID-24, V-GRID-25: block (0, 1) of a 5 x 5 picture stores tile row 0 alone, four pixels at 0x2000. -/
theorem test_stores_clipped : storeAccesses (gridOf .dxt1 5 5) 0x2000 5 5 0 1 = [(0x2000, 16)] := by decide

/-- V-GRID-20 to V-GRID-23: block (1, 0) of the same picture. -/
theorem test_stores_column :
    storeAccesses (gridOf .dxt1 5 5) 0x2000 5 5 1 0 = [(0x2060, 4), (0x204C, 4), (0x2038, 4), (0x2024, 4)] := by
  decide

/-- V-GRID-13: the largest grid. -/
theorem test_grid_largest :
    (gridOf .dxt1 65535 65535).need = 2147483648 ∧ (gridOf .dxt1 65535 65535).clenLast = 3 := by
  decide

/-! ### Witnesses: the hypotheses of every statement are met -/

/-- A DXT1 command ready to start, START the host's next write. -/
def dxtReady : State := { command 1 false 0x1000 8 0x800 4 4 with hostQ := [.wr 0 1] }

/-- A PVRTC 4bpp command ready to start. -/
def pvrReady : State := { command 7 false 0x1000 8 0x800 4 4 with hostQ := [.wr 0 1] }

/-- A DXT1 command of four blocks (5 x 5) at its last block, which is clipped both ways. -/
def dxtLast : State :=
  { command 1 false 0x1000 32 0x800 5 5 with st := .busy, pc := { phase := .walk, s := 1, t := 1, k := 0 } }

/-- A PVRTC 4bpp command of one block in phase EXPAND. -/
def pvrExpand : State :=
  { command 7 false 0x1000 8 0x800 4 4 with st := .busy, pc := { phase := .expand, s := 0, t := 0, k := 0 } }

/-- A PVRTC 4bpp command of one block in phase WALK. -/
def pvrWalk : State := { command 7 false 0x1000 8 0x800 4 4 with st := .busy }

/-- A record of a 2bpp block with `mflag = 1` and these weights. -/
def mixedRecord (m : BitVec 32) : TexelInfo := { TexelInfo.zero with wt := weights2Interpolated pvrtcStdTable m }

theorem zero_expanded (is2 : Bool) : TexelInfo.zero.Expanded is2 := by
  cases is2 <;> intro i _ <;> (try intro _) <;> exact ⟨0, by simp [TexelInfo.weight, TexelInfo.zero]⟩

theorem dxtReady_launchable : dxtReady.Launchable .dxt1 :=
  ⟨by decide, by decide, by unfold State.rangesFit; decide, by unfold State.gridFits; decide, by decide,
    by unfold State.scratchFits; decide, by unfold State.buffersApart; decide⟩

theorem pvrReady_launchable : pvrReady.Launchable .pvrtc4 :=
  ⟨by decide, by decide, by unfold State.rangesFit; decide, by unfold State.gridFits; decide, by decide,
    by unfold State.scratchFits; decide, by unfold State.buffersApart; decide⟩

theorem dxtLast_running : dxtLast.Running .dxt1 :=
  ⟨by decide, by unfold State.rangesFit; decide, by unfold State.gridFits; decide, by decide,
    by unfold State.scratchFits; decide, by unfold State.buffersApart; decide, by decide, fun h => absurd h (by decide)⟩

theorem p1_running : p1.Running .dxt1 :=
  ⟨by decide, by unfold State.rangesFit; decide, by unfold State.gridFits; decide, by decide,
    by unfold State.scratchFits; decide, by unfold State.buffersApart; decide, by decide, fun h => absurd h (by decide)⟩

theorem pvrExpand_running : pvrExpand.Running .pvrtc4 :=
  ⟨by decide, by unfold State.rangesFit; decide, by unfold State.gridFits; decide, by decide,
    by unfold State.scratchFits; decide, by unfold State.buffersApart; decide, by decide,
    fun _ k hk => absurd hk (by simp [recordsWritten, pvrExpand])⟩

theorem pvrWalk_running : pvrWalk.Running .pvrtc4 :=
  ⟨by decide, by unfold State.rangesFit; decide, by unfold State.gridFits; decide, by decide,
    by unfold State.scratchFits; decide, by unfold State.buffersApart; decide, by decide,
    fun _ k _ => by simpa [texRead, pvrWalk, command, State.reset] using zero_expanded false⟩

theorem p1_inv : p1.Inv := ⟨by decide, by unfold State.statusOk; decide, fun _ => ⟨_, p1_running⟩⟩

theorem reset_outcome : ∃ t, step State.reset = .next t := ⟨_, rfl⟩

theorem witness_DecodeOfEncode : Instr.wf (.reservedFmt 8 true) = true ∧
    Instr.wf (.dxt1Four { q0 := 1, q1 := 0, idx := 7 }) = true ∧
    Instr.wf (.etcDifferential
      { r := 31, dr := 1, g := 0, dg := 4, b := 0, db := 0, tw0 := 0, tw1 := 0, flip := 0, m := 0, l := 0 }) = true := by
  decide

theorem witness_DecoderTotalAndSound :
    decode .dxt1 [0, 0, 0, 0, 0, 0, 0, 0] = .ok (.dxt1Three { q0 := 0, q1 := 0, idx := 0 }) ∧
    ([0] : List Byte).length ≠ WordKind.bytes .etc2a1 ∧
    ([0, 0, 0, 0, 0, 0, 0, 0, 0] : List Byte).length = WordKind.bytes .etc2a1 ∧ WordKind.etc2a1 ≠ .ctrl ∧
    byte [4, 0, 0, 0] 0 % 4 = 0 ∧ byte [2, 0, 0, 0] 0 % 4 ≠ 0 := by
  decide

theorem witness_CommandWordSelects :
    ([1, 2, 3, 4, 5, 6, 7].map fun b => byte [BitVec.ofNat 8 b, 0, 0, 0] 0) = [1, 2, 3, 4, 5, 6, 7] ∧
    byte [7, 1, 0, 0] 1 % 2 = 1 ∧ byte [7, 2, 0, 0] 1 % 2 = 0 ∧ byte [0, 0, 0, 0] 0 = 0 ∧ 8 ≤ byte [8, 0, 0, 0] 0 ∧
    8 ≤ byte [255, 0, 0, 0] 0 := by
  decide

theorem witness_DxtLayout : ([0xFF, 0xFF, 0xFF, 0xFF, 0, 0, 0, 0] : List Byte).length = 8 := by decide

theorem witness_EtcModeSelection :
    byte [0, 0, 0, 0, 0, 0, 0, 0] 3 / 2 % 2 = 0 ∧
    (byte [0xF9, 0xF9, 0, 2, 0, 0, 0, 0] 3 / 2 % 2 = 1 ∧ OutOfRange (byte [0xF9, 0xF9, 0, 2, 0, 0, 0, 0] 0)) ∧
    (¬ OutOfRange (byte [0xF8, 0x04, 0, 2, 0, 0, 0, 0] 0) ∧ OutOfRange (byte [0xF8, 0x04, 0, 2, 0, 0, 0, 0] 1)) ∧
    (¬ OutOfRange (byte [0, 0, 0x1C, 2, 0, 0, 0, 0] 0) ∧ ¬ OutOfRange (byte [0, 0, 0x1C, 2, 0, 0, 0, 0] 1) ∧
      OutOfRange (byte [0, 0, 0x1C, 2, 0, 0, 0, 0] 2)) ∧
    (¬ OutOfRange (byte [0xF0, 0x24, 0xFF, 2, 0, 0, 0, 0] 0) ∧ ¬ OutOfRange (byte [0xF0, 0x24, 0xFF, 2, 0, 0, 0, 0] 1) ∧
      ¬ OutOfRange (byte [0xF0, 0x24, 0xFF, 2, 0, 0, 0, 0] 2)) := by
  unfold OutOfRange
  decide

theorem witness_EtcLayout :
    (∃ b, decode (.etcColour false) [0xFF, 0, 0, 0, 0, 0, 0, 0] = .ok (.etcIndividual b)) ∧
    (∃ b, decode (.etcColour true) [0xF8, 0, 0, 2, 0, 0, 0, 0] = .ok (.etcDifferential b)) :=
  ⟨⟨_, rfl⟩, ⟨_, rfl⟩⟩

theorem witness_EtcLayout_etc2 :
    (∃ b, decode (.etcColour true) [0xF9, 0, 0, 2, 0, 0, 0, 0] = .ok (.etcT b)) ∧
    (∃ b, decode (.etcColour true) [0, 0xF9, 0, 2, 0, 0, 0, 0] = .ok (.etcH b)) ∧
    (∃ b, decode (.etcColour true) [0, 0, 0xF9, 2, 0, 0, 0, 0] = .ok (.etcPlanar b)) :=
  ⟨⟨_, rfl⟩, ⟨_, rfl⟩, ⟨_, rfl⟩⟩

theorem witness_AlphaBlockLayout :
    (leBytes 8 1).length = 8 ∧ (leBytes 9 1).length = 9 ∧ (leBytes 16 1).length = 16 := by
  decide

theorem witness_PvrtcLayout :
    32768 ≤ le [0x00, 0x80] ∧ le [0xFF, 0x7F] < 32768 ∧ (leBytes 8 1).length = 8 ∧ (leBytes 4 1).length = 4 := by
  decide

theorem witness_ResetRegisters : ({ p1 with hostQ := [.reset] } : State).hostQ = .reset :: [] ∧ p1.st = .busy ∧
    p1.inOutput 0x2040 = false ∧ p1.inOutput 0x203F = true ∧ State.reset.st ≠ .busy := by decide

theorem witness_RegisterWrites : ∀ i : Fin 8, i ≠ 0 →
    ({ State.reset with hostQ := [.wr i 0xFFFFFFFF] } : State).hostQ = .wr i 0xFFFFFFFF :: [] ∧
    ({ State.reset with hostQ := [.wr i 0xFFFFFFFF] } : State).st ≠ .busy :=
  fun _ _ => ⟨rfl, fun h => absurd h (by simp [State.reset])⟩

theorem witness_RegisterReads : ({ State.reset with hostQ := [.rd 1] } : State).hostQ = .rd 1 :: [] := rfl

theorem witness_WritesLostWhileBusy :
    ({ p1 with hostQ := [.wr 6 4] } : State).hostQ = .wr 6 4 :: [] ∧ ({ p1 with hostQ := [.wr 6 4] } : State).st = .busy :=
  ⟨rfl, rfl⟩

theorem witness_ArgumentsKept : (∃ t, exec (.start false) dxtReady = .next t) ∧ (∃ t, unitStep State.reset = .next t) ∧
    2 ≤ (2 : Fin 8).val := ⟨⟨_, rfl⟩, ⟨_, rfl⟩, by decide⟩

theorem witness_LaunchCompletes : dxtReady.Launchable .dxt1 ∧ dxtReady.format = some .dxt1 ∧
    CommandOf .dxt1 (.decodeDxt1 true) ∧ pvrReady.Launchable .pvrtc4 ∧ CommandOf .pvrtc4 .decodePvrtc4 :=
  ⟨dxtReady_launchable, rfl, ⟨true, rfl⟩, pvrReady_launchable, rfl⟩

theorem witness_StartRunsSelectedCommand :
    decode .command (leBytes 4 (readReg (command 7 true 0 0 0 0 0) 2).toNat) = .ok .decodePvrtc2 ∧
    decode .command (leBytes 4 (readReg State.reset 2).toNat) = .ok (.reservedFmt 0 false) := by
  decide

theorem witness_StartErrorPriority :
    (State.reset.st ≠ .busy ∧ State.reset.format = none) ∧
    (¬ (command 1 false 0xFFFFFFF9 8 0x800 4 4).rangesFit .dxt1 ∧ (command 1 false 0xFFFFFFF8 8 0x800 4 4).rangesFit .dxt1) ∧
    ((command 7 false 0 0 0x800 12 12).rangesFit .pvrtc4 ∧ 0 < ((command 7 false 0 0 0x800 12 12).grid .pvrtc4).count ∧
      ¬ (command 7 false 0 0 0x800 12 12).gridFits .pvrtc4) ∧
    ((command 1 false 0 31 0x800 8 8).rangesFit .dxt1 ∧ (command 1 false 0 31 0x800 8 8).gridFits .dxt1 ∧
      (command 1 false 0 31 0x800 8 8).len.toNat < ((command 1 false 0 31 0x800 8 8).grid .dxt1).need) ∧
    (let s : State := { command 7 false 0 64 0x800 16 8 with cfg := { defaultConfig with scratchBlocks := 4 } };
      s.rangesFit .pvrtc4 ∧ s.gridFits .pvrtc4 ∧ (s.grid .pvrtc4).need ≤ s.len.toNat ∧ ¬ s.scratchFits .pvrtc4) := by
  unfold State.rangesFit State.gridFits State.scratchFits
  decide

theorem witness_EmptyGridDone : (command 1 false 7 0 9 0 7).format = some .dxt1 ∧ (command 1 false 7 0 9 0 7).width = 0 ∧
    (command 7 true 7 0 9 3 0).format = some .pvrtc2 ∧ (command 7 true 7 0 9 3 0).height = 0 := by decide

theorem witness_ReservedSelectorRaises : State.reset.st ≠ .busy ∧ State.reset.fmt.toNat = 0 ∧
    8 ≤ (command 8 true 0 0 0 0 0).fmt.toNat ∧ (command 255 false 0 0 0 0 0).st ≠ .busy := by decide

theorem witness_ClearEffect : State.reset.st ≠ .busy ∧ p1.st = .busy ∧
    ({ State.reset with hostQ := [.wr 0 0xFFFFFFFE] } : State).hostQ = .wr 0 0xFFFFFFFE :: [] ∧
    (0xFFFFFFFE : Word).toNat % 4 = 2 := by decide

theorem witness_LaunchRefusals :
    (let s : State := { dxtReady with
      cfg := { defaultConfig with memMap := [{ base := 0x203F, size := 1, kind := .device }] } };
      s.st ≠ .busy ∧ s.format = some .dxt1 ∧ 0 < (s.grid .dxt1).count ∧ s.rangesFit .dxt1 ∧ s.gridFits .dxt1 ∧
        (s.grid .dxt1).need ≤ s.len.toNat ∧ s.scratchFits .dxt1 ∧ meetsRegion s.cfg .device (buffers .dxt1 s) = true) ∧
    (let s : State := command 1 false 0x203F 8 0x800 4 4;
      s.st ≠ .busy ∧ s.format = some .dxt1 ∧ 0 < (s.grid .dxt1).count ∧ s.rangesFit .dxt1 ∧ s.gridFits .dxt1 ∧
        (s.grid .dxt1).need ≤ s.len.toNat ∧ s.scratchFits .dxt1 ∧ meetsRegion s.cfg .device (buffers .dxt1 s) = false ∧
        (s.inSource .dxt1 0x203F = true ∧ s.inOutput 0x203F = true)) := by
  unfold State.rangesFit State.gridFits State.scratchFits
  decide

/-- `p1` with a region of the platform at the address. -/
def p1Region (a : Nat) (k : RegionKind) : State :=
  { p1 with cfg := { defaultConfig with memMap := [{ base := a, size := 1, kind := k }] } }

theorem witness_HostAccesses :
    p1.st = .busy ∧ p1.format = some .dxt1 ∧ Ordinary p1 0x1007 ∧
    ({ p1 with hostQ := [.store 0x1007 1] } : State).hostQ = .store 0x1007 1 :: [] ∧
    ({ p1 with hostQ := [.load 0x203F] } : State).hostQ = .load 0x203F :: [] ∧
    (p1.inSource .dxt1 0x1007 = true ∧ p1.inOutput 0x1007 = false) ∧ p1.inOutput 0x203F = true ∧
    ¬ Ordinary (p1Region 0x3000 .device) 0x3000 ∧ ¬ Ordinary (p1Region 0x3000 .absent) 0x3000 ∧
    Ordinary (p1Region 0x3000 .absent) 0x3001 ∧ Ordinary (p1Region 0x3000 .absent) 0x2FFF := by
  unfold Ordinary
  decide

theorem witness_HostAccesses_untouched : Untouched State.reset 0x1007 ∧ Untouched p1 0x1008 ∧ Untouched p1 0x2040 := by
  refine ⟨fun h => absurd h (by decide), fun _ => ⟨by decide, fun f hf => ?_⟩, fun _ => ⟨by decide, fun f hf => ?_⟩⟩ <;>
    · rw [show p1.format = some .dxt1 from rfl] at hf
      cases hf
      decide

theorem witness_HostAccesses_unread : (∀ c ∈ ({ p1 with hostStores := [(0x1007, 1)] } : State).hostStores, c.1 ≠ 0x1000 + 6) ∧
    ({ p1 with hostStores := [(0x1007, 1)] } : State).raced (0x1000 + 7) = true ∧ 6 < 8 := by decide

/-- R62: a store to the source of a running command is in memory and noted; U1. -/
theorem test_host_store_source :
    (match step { p1 with hostQ := [.store 0x1007 1] } with
     | .next t => some (t.mem.read 0x1007, t.hostStores, t.hostQ)
     | .fault _ => none
     | .refused _ => none) = some (1, [(0x1007, 1)], []) := by decide

/-- R61: a store to the output of a running command is noted. -/
theorem test_host_store_output :
    (match step { p1 with hostQ := [.store 0x203F 1] } with
     | .next t => some (t.hostStores, t.choices)
     | .fault _ => none
     | .refused _ => none) = some ([(0x203F, 1)], 1) := by decide

/-- R60 (b): a load outside the output range reads memory. -/
theorem test_host_load :
    (match step { p1 with hostQ := [.load 0x1003], mem := [(0x1003, 7)] } with
     | .next t => some t.rdata
     | .fault _ => none
     | .refused _ => none) = some 7 := by decide

/-- START of an empty PVRTC grid is DONE whatever the open capacity of the scratch is (R108). -/
theorem test_pvrtc_empty_open : status (step (State.reset.withFetchWord 16 0x107)) = some 2 := by decide

theorem witness_RegisterReads_poll : ({ State.reset with hostQ := [.poll] } : State).hostQ = .poll :: [] ∧ State.reset.st ≠ .busy ∧
    ({ p1 with hostQ := [.poll] } : State).st = .busy := by decide

theorem witness_Dxt1Laws :
    ([0x00, 0xF8, 0x00, 0xF8, 3, 0, 0, 0] : List Byte).length = 8 ∧
    byte [0x00, 0xF8, 0x00, 0xF8, 3, 0, 0, 0] 0 = byte [0x00, 0xF8, 0x00, 0xF8, 3, 0, 0, 0] 2 ∧
    byte [0x00, 0xF8, 0x00, 0xF8, 3, 0, 0, 0] 1 = byte [0x00, 0xF8, 0x00, 0xF8, 3, 0, 0, 0] 3 := by
  decide

theorem witness_Dxt5ColorResult : State.reset.cfg.dxt5ColorMode = .alwaysFour ∧ asDxt1.cfg.dxt5ColorMode = .asDxt1 ∧
    (5 : BitVec 16).toNat ≤ (5 : BitVec 16).toNat ∧ (5 : BitVec 16).toNat < (6 : BitVec 16).toNat := by decide

theorem witness_DxtFrame :
    (∃ t, exec (.dxt1Four { q0 := 2, q1 := 1, idx := 0 }) State.reset = .next t) ∧
    (∃ t, exec (.dxt1Three { q0 := 1, q1 := 1, idx := 0 }) State.reset = .next t) ∧
    (∃ t, exec (.dxt5Color { q0 := 1, q1 := 1, idx := 0 }) State.reset = .next t) ∧
    (∃ t, exec (.dxt5Alpha7 { a0 := 2, a1 := 1, idx := 0 }) State.reset = .next t) ∧
    (∃ t, exec (.dxt5Alpha5 { a0 := 1, a1 := 1, idx := 0 }) State.reset = .next t) :=
  ⟨⟨_, rfl⟩, ⟨_, rfl⟩, ⟨_, rfl⟩, ⟨_, rfl⟩, ⟨_, rfl⟩⟩

theorem witness_Etc1Etc2Agree :
    ([0xF9, 0, 0, 2, 0, 0, 0, 0] : List Byte).length = 8 ∧ OutOfRange (byte [0xF9, 0, 0, 2, 0, 0, 0, 0] 0) ∧
    byte [0xF9, 0, 0, 2, 0, 0, 0, 0] 3 / 2 % 2 = 1 ∧ byte [0xF9, 0, 0, 0, 0, 0, 0, 0] 3 / 2 % 2 = 0 := by
  unfold OutOfRange
  decide

theorem witness_EtcFrame :
    (∃ i t, i.kind = .etcColour true ∧ exec i State.reset = .next t) ∧
    (∃ i t, i.kind = .etcColour false ∧ exec i State.reset = .next t) ∧
    (∃ i t, i.kind = .eacAlpha ∧ exec i State.reset = .next t) ∧
    (∃ i t, i.kind = .etc2a1 ∧ exec i State.reset = .next t) ∧
    (∃ i t, i.kind = .etc2a8 ∧ exec i State.reset = .next t) :=
  ⟨⟨.etcT { r1 := 1, g1 := 1, b1 := 1, r2 := 1, g2 := 1, b2 := 1, di := 1, m := 1, l := 1 }, _, rfl, rfl⟩,
    ⟨.etcDifferential { r := 31, dr := 1, g := 0, dg := 0, b := 0, db := 0, tw0 := 0, tw1 := 0, flip := 0, m := 0, l := 0 }, _,
      by decide, rfl⟩,
    ⟨.eacAlpha { base := 1, mult := 1, tsel := 1, idx := 1 }, _, rfl, rfl⟩, ⟨.etc2a1Block 1 1, _, rfl, rfl⟩,
    ⟨.etc2a8Block 1 1, _, rfl, rfl⟩⟩

theorem witness_PvrtcMod2Result :
    storedAt 0 = 0 ∧ storedAt 4 = 9 ∧ storedAt 10 = 20 ∧ storedAt 15 = 31 ∧ digit 2 (1 : BitVec 32).toNat 0 = 1 ∧
    (1 % 8 + 1 / 8) % 2 = 1 ∧ (30 % 8 + 30 / 8) % 2 = 1 := by decide

theorem witness_PvrtcFrame :
    (∃ i t, i.kind = .pvrtc ∧ exec i State.reset = .next t) ∧ (∃ i t, i.kind = .colourA ∧ exec i State.reset = .next t) ∧
    (∃ i t, i.kind = .colourB ∧ exec i State.reset = .next t) ∧
    (∃ i t, i.kind = .modulation true true ∧ exec i State.reset = .next t) ∧ (1 : Nat) ≠ State.reset.pc.k :=
  ⟨⟨.pvrtcBlock 1 1 1, _, rfl, rfl⟩, ⟨.pvrtcColaOpaque 1 1 1 1, _, rfl, rfl⟩, ⟨.pvrtcColbOpaque 1 1 1, _, rfl, rfl⟩,
    ⟨.pvrtcMod2Interpolated 1, _, rfl, rfl⟩, by decide⟩

theorem witness_MortonBijective : 3 < 2 ^ 2 ∧ 1 < 2 ^ 1 ∧ morton (2 ^ 2) (2 ^ 1) 3 1 = 7 ∧ 7 < 2 ^ 2 * 2 ^ 1 := by decide

theorem witness_PvrtcPixelExact :
    pvrtcWeight defaultConfig false (fun _ _ => TexelInfo.zero) 3 3 ≤ 8 ∧
    pvrtcWeight defaultConfig true (fun _ _ => mixedRecord 0xE4E4E4E4) 7 3 ≤ 8 ∧
    pvrtcWeight defaultConfig true (fun _ _ => mixedRecord 0xE4E4E4E4) 1 0 ≤ 8 := by
  decide

theorem mixedRecord_expanded (m : BitVec 32) : (mixedRecord m).Expanded true := by
  intro i hi hp
  simp only [TexelInfo.weight, mixedRecord, weights2Interpolated, Nat.mod_eq_of_lt hi, weight2Interpolated,
    Vector.getElem_ofFn, hp, bitWeight]
  split
  · contradiction
  · split
    · split <;> exact ⟨_, rfl⟩
    · split
      · split <;> exact ⟨_, rfl⟩
      · exact ⟨_, rfl⟩

theorem witness_DerivedWeights : (mixedRecord 0xE4E4E4E4).Expanded true ∧
    (mixedRecord 0xE4E4E4E4).weight (8 * 0 + 2) = .stored 3 ∧ (mixedRecord 0xE4E4E4E4).weight (8 * 0 + 1) = .fill .hv ∧
    (mixedRecord 0xE4E4E4E5).weight (8 * 3 + 0) = .fill .h ∧ (mixedRecord 0xE4F4E4E5).weight (8 * 0 + 7) = .fill .v :=
  ⟨mixedRecord_expanded _, by decide, by decide, by decide, by decide⟩

theorem witness_UniformImage : TexelInfo.zero.Expanded false ∧ (mixedRecord 0xE4E4E4E4).Expanded true :=
  ⟨zero_expanded false, mixedRecord_expanded _⟩

theorem witness_CursorOrder_expand : (2 : Nat) + 1 < (gridOf .pvrtc4 8 8).nbx * (gridOf .pvrtc4 8 8).nby ∧
    (3 : Nat) + 1 = (gridOf .pvrtc4 8 8).nbx * (gridOf .pvrtc4 8 8).nby := by decide

theorem witness_CursorOrder : dxtLast.pc.s < (gridOf .dxt1 5 5).nbx ∧ dxtLast.pc.t < (gridOf .dxt1 5 5).nby ∧
    dxtLast.pc.t * (gridOf .dxt1 5 5).nbx + dxtLast.pc.s + 1 = (gridOf .dxt1 5 5).nbx * (gridOf .dxt1 5 5).nby := by
  decide

theorem witness_OutputPartition : 4 < 5 ∧ 0 < 5 ∧ 1 < (gridOf .dxt1 5 5).nbx ∧ 1 < (gridOf .dxt1 5 5).nby ∧
    0 ∈ (gridOf .dxt1 5 5).rows 5 1 ∧ 0 < (gridOf .dxt1 5 5).clen 1 ∧ (gridOf .dxt1 5 5).outRow 5 1 0 = 0 ∧
    (gridOf .dxt1 5 5).bw * 1 + 0 = 4 := by decide

/-- The same platform without the memory of the source and the output. -/
def unbacked (s : State) : State :=
  { s with cfg := { s.cfg with memMap := [{ base := 0x1000, size := 0x2000, kind := .absent }] } }

theorem witness_UnitMoves : UnitMoves dxtLast dxtLast ∧ UnitMoves { dxtLast with hostQ := [.wait] } dxtLast ∧
    UnitMoves { dxtLast with hostQ := [.poll] } { dxtLast with hostQ := [.poll], rdata := readReg dxtLast 1 } ∧
    UnitMoves State.reset State.reset ∧ State.reset.st ≠ .busy :=
  ⟨.inl ⟨rfl, rfl⟩, .inr (.inl ⟨[], rfl, rfl⟩), .inr (.inr ⟨[], rfl, rfl, rfl⟩), .inl ⟨rfl, rfl⟩, by decide⟩

theorem witness_StepRunsDecodedInstruction :
    (dxtReady.hostQ = .wr 0 1 :: [] ∧ decode .ctrl (leBytes 4 (1 : Word).toNat) = .ok (.start false)) ∧
    (dxtLast.st = .busy ∧ dxtLast.format = some .dxt1 ∧ isPvrtc .dxt1 = false ∧
      dxtLast.pc.phase = .walk ∧ dxtLast.pc.s < (dxtLast.grid .dxt1).nbx ∧ dxtLast.pc.t < (dxtLast.grid .dxt1).nby ∧
      memAnswer dxtLast.cfg
        ((blockAddr (dxtLast.grid .dxt1) dxtLast, (dxtLast.grid .dxt1).bb) :: walkStores (dxtLast.grid .dxt1) dxtLast) = .ok ∧
      decodeBlock .dxt1 (dxtLast.fetchBytes (blockAddr (dxtLast.grid .dxt1) dxtLast) (dxtLast.grid .dxt1).bb) =
        .ok [.dxt1Three { q0 := 0, q1 := 0, idx := 0 }]) ∧
    (pvrExpand.hostQ = [] ∧ pvrExpand.st = .busy ∧ pvrExpand.format = some .pvrtc4 ∧ isPvrtc .pvrtc4 = true ∧
      pvrExpand.pc.phase = .expand ∧ pvrExpand.pc.k < (pvrExpand.grid .pvrtc4).count ∧
      memAnswer pvrExpand.cfg [(pvrExpand.srcBase + 8 * pvrExpand.pc.k, 8)] = .ok ∧
      decode .pvrtc (pvrExpand.fetchBytes (pvrExpand.srcBase + 8 * pvrExpand.pc.k) 8) = .ok (.pvrtcBlock 0 0 0)) ∧
    (pvrWalk.hostQ = [] ∧ pvrWalk.st = .busy ∧ pvrWalk.format = some .pvrtc4 ∧ pvrWalk.pc.phase = .walk ∧
      pvrWalk.pc.s < (pvrWalk.grid .pvrtc4).nbx ∧ pvrWalk.pc.t < (pvrWalk.grid .pvrtc4).nby ∧
      memAnswer pvrWalk.cfg (walkStores (pvrWalk.grid .pvrtc4) pvrWalk) = .ok) ∧
    ({ State.reset with hostQ := [.wr 0 4] } : State).hostQ = .wr 0 4 :: [] ∧ (4 : Word).toNat % 4 = 0 := by
  decide

theorem witness_StepRunsDecodedInstruction_absent :
    memAnswer (unbacked dxtLast).cfg ((blockAddr (dxtLast.grid .dxt1) dxtLast, (dxtLast.grid .dxt1).bb) ::
      walkStores (dxtLast.grid .dxt1) dxtLast) = .absent ∧
    memAnswer (unbacked pvrExpand).cfg [(pvrExpand.srcBase + 8 * pvrExpand.pc.k, 8)] = .absent ∧
    memAnswer (unbacked pvrWalk).cfg (walkStores (pvrWalk.grid .pvrtc4) pvrWalk) = .absent := by
  decide

theorem witness_RowsComputeBlock : isPvrtc .dxt5 = false ∧ (leBytes 16 5).length = blockBytes .dxt5 ∧
    isPvrtc .etc2a1 = false ∧ (leBytes 9 5).length = blockBytes .etc2a1 := by decide

theorem witness_WalkStores : p1.Running .dxt1 ∧ p1.st = .busy ∧ p1.pc.phase = .walk ∧ p1.mem.wf ∧ p1.backed .dxt1 ∧
    3 ∈ (p1.grid .dxt1).rows p1.height.toNat p1.pc.t ∧ 3 < (p1.grid .dxt1).clen p1.pc.s ∧
    (∀ p ∈ walkStores (p1.grid .dxt1) p1, 0x2040 < p.1 ∨ p.1 + p.2 ≤ 0x2040) :=
  ⟨p1_running, rfl, rfl, by decide, by unfold State.backed; decide, by decide, by decide, by decide⟩

theorem witness_WalkStores_next : ∃ t, unitStep p1 = .next t := by
  have h : (match unitStep p1 with
    | .next _ => true
    | .fault _ => false
    | .refused _ => false) = true := by decide
  revert h
  cases unitStep p1 with
  | next t => exact fun _ => ⟨t, rfl⟩
  | fault r => exact fun h => Bool.noConfusion h
  | refused r => exact fun h => Bool.noConfusion h

theorem witness_StepKeepsInv : p1.Inv ∧ ∃ t, step p1 = .next t := ⟨p1_inv, witness_WalkStores_next⟩

theorem witness_NoFault : p1.Inv := p1_inv

theorem witness_CommandReachesDone : dxtReady.Launchable .dxt1 ∧ dxtReady.format = some .dxt1 ∧ dxtReady.backed .dxt1 ∧
    dxtReady.hostQ = [.wr 0 1] ∧ 0 < blockSteps .dxt1 dxtReady ∧ pvrReady.Launchable .pvrtc4 ∧
    blockSteps .pvrtc4 pvrReady = 2 :=
  ⟨dxtReady_launchable, rfl, by unfold State.backed; decide, rfl, by decide, pvrReady_launchable, by decide⟩

theorem witness_CommandNetEffect : dxtReady.Launchable .dxt1 ∧ dxtReady.format = some .dxt1 ∧ isPvrtc .dxt1 = false ∧
    dxtReady.backed .dxt1 ∧ dxtReady.mem.wf ∧ dxtReady.hostQ = [.wr 0 1] ∧ 3 < dxtReady.width.toNat ∧
    0 < dxtReady.height.toNat ∧ dxtReady.inOutput 0x2040 = false :=
  ⟨dxtReady_launchable, rfl, rfl, by unfold State.backed; decide, by decide, rfl, by decide, by decide, by decide⟩

theorem witness_PvrtcNetEffect : pvrReady.Launchable .pvrtc4 ∧ pvrReady.format = some .pvrtc4 ∧ isPvrtc .pvrtc4 = true ∧
    pvrReady.backed .pvrtc4 ∧ pvrReady.mem.wf ∧ pvrReady.hostQ = [.wr 0 1] ∧ 0 < (pvrReady.grid .pvrtc4).count ∧
    3 < pvrReady.width.toNat ∧ pvrReady.inOutput 0x1FFF = false :=
  ⟨pvrReady_launchable, rfl, rfl, by unfold State.backed; decide, by decide, rfl, by decide, by decide, by decide⟩

theorem witness_OutputDependsOnSourceOnly :
    let s' : State := { dxtReady with mem := Memory.writeBytes [] 0x3000 [7], st := .error, err := .unknownFormat }
    dxtReady.Launchable .dxt1 ∧ s'.Launchable .dxt1 ∧ dxtReady.format = some .dxt1 ∧ dxtReady.backed .dxt1 ∧
      dxtReady.mem.wf ∧ s'.mem.wf ∧ dxtReady.hostQ = [.wr 0 1] ∧ s'.hostQ = [.wr 0 1] ∧ dxtReady.cfg = s'.cfg ∧
      (∀ j : Fin 8, 2 ≤ j.val → readReg dxtReady j = readReg s' j) ∧
      (∀ a, dxtReady.inSource .dxt1 a = true → dxtReady.mem.read a = s'.mem.read a) ∧
      dxtReady.inOutput 0x2000 = true := by
  refine ⟨dxtReady_launchable, ⟨by decide, by decide, by unfold State.rangesFit; decide, by unfold State.gridFits; decide,
    by decide, by unfold State.scratchFits; decide, by unfold State.buffersApart; decide⟩, rfl, by unfold State.backed; decide,
    by decide, by decide, rfl, rfl, rfl, by decide, fun a ha => ?_, by decide⟩
  have h : dxtReady.srcBase ≤ a ∧ a < dxtReady.srcBase + (dxtReady.grid .dxt1).need := by
    simpa [State.inSource] using ha
  have h1 : dxtReady.srcBase = 0x1000 := by decide
  have h2 : (dxtReady.grid .dxt1).need = 8 := by decide
  have hm : Memory.writeBytes [] 0x3000 [7] = [(0x3000, 7)] := by decide
  rw [h1, h2] at h
  show Memory.read [] a = Memory.read (Memory.writeBytes [] 0x3000 [7]) a
  rw [hm, Memory.read, Memory.read, if_neg (by omega), Memory.read]

theorem witness_DecodeLineLaunches :
    ({ State.reset with hostQ := decodeLine .pvrtc2 0x1000 8 0x2000 8 4 } : State).hostQ =
      decodeLine .pvrtc2 0x1000 8 0x2000 8 4 ∧ State.reset.st ≠ .busy := ⟨rfl, by decide⟩

end Sys2Proof.Tests
end

section
/-! PROOFS. What a step of the unit and an access of the host can do to a state, said once, and that the invariant survives each. -/

namespace Sys2Proof.Machine

open Sys2Proof

/-! ### What the rows and the host leave alone -/

theorem EngineOnly.cfg_eq {s t : State} (h : EngineOnly s t) : t.cfg = s.cfg := by rw [h]

theorem EngineOnly.pc_eq {s t : State} (h : EngineOnly s t) : t.pc = s.pc := by rw [h]

/-- `t` is `s` but for memory and the host's own data: every register and the engine's storage are those of `s`. -/
def HostOnly (s t : State) : Prop :=
  t = { s with mem := t.mem, hostQ := t.hostQ, rdata := t.rdata, hostStores := t.hostStores, atStart := t.atStart,
               choices := t.choices }

theorem hostOnly_queue (q : List HostOp) (s : State) : HostOnly s { s with hostQ := q } := rfl

theorem hostOnly_hostRead (i : Fin 8) (s : State) : HostOnly s (hostRead i s) := rfl

theorem hostOnly_storeState (a : Nat) (b : Byte) (s : State) : HostOnly s (storeState a b s) := by
  unfold storeState
  split
  · rfl
  · split <;> rfl

theorem hostOnly_loadState (a : Nat) (s : State) : HostOnly s (loadState a s) := by
  unfold loadState
  split <;> rfl

/-- A running command is none of memory's and the host's business. -/
theorem State.Running.of_hostOnly {f : Format} {s t : State} (h : s.Running f) (ht : HostOnly s t) : t.Running f := by
  rw [ht]
  exact ⟨h.selects, h.ranges, h.grid, h.long, h.scratch, h.apart, h.cursor, h.records⟩

/-! ### The unit's step -/

/-- An EXPAND step stays where it is, or writes the record at the cursor with an expanded one and advances (R222). -/
theorem expandBlock_cases {f : Format} {s t : State} (hf : isPvrtc f = true) (h : expandBlock f s = .next t) :
    t = s ∨ ∃ u, EngineOnly s u ∧ (texRead u.tex s.pc.k).Expanded s.is2 ∧
      (∀ j, j ≠ s.pc.k → texRead u.tex j = texRead s.tex j) ∧ t = finishExpand (s.grid f) u := by
  rcases guarded_eq_next h with ⟨-, hbody⟩ | ⟨-, ht⟩
  · obtain ⟨ca, cb, m, -, hd⟩ := decodeBlock_pvrtc (bs := s.fetchBytes (expandAddr s) 8) hf (length_fetchBytes ..)
    obtain ⟨u, hu, eu, -, hk, hj⟩ := pvrtcBlock_effect ca cb m s
    simp only [hd, runAll, hu, andThen_next, Host.Outcome.next.injEq] at hbody
    exact .inr ⟨u, eu, hk, hj, hbody.symm⟩
  · exact .inl ht

/-- A WALK step of a DXT or ETC command stays where it is, or runs rows, copies out and advances (R109). -/
theorem walkBlock_cases {f : Format} {s t : State} (h : walkBlock f s = .next t) :
    t = s ∨ ∃ u, EngineOnly s u ∧ t = finishWalk (s.grid f) u := by
  rcases guarded_eq_next h with ⟨-, hbody⟩ | ⟨-, ht⟩
  · split at hbody
    · cases hbody
    · rename_i is his
      obtain ⟨u, hu, eu⟩ := runAll_rows (decodeBlock_rows his) s
      simp only [hu, andThen_next, Host.Outcome.next.injEq] at hbody
      exact .inr ⟨u, eu, hbody.symm⟩
  · exact .inl ht

/-- A WALK step of a PVRTC command stays where it is, or fills the tile, copies out and advances (R223). -/
theorem walkPvrtc_cases {f : Format} {s t : State} (h : walkPvrtc f s = .next t) :
    t = s ∨ t = finishWalk (s.grid f) (pvrtcTileState s.is2 (s.grid f) s) := by
  rcases guarded_eq_next h with ⟨-, hbody⟩ | ⟨-, ht⟩
  · cases hbody
    exact .inr rfl
  · exact .inl ht

@[simp] theorem pvrtcTileState_tex (is2 : Bool) (g : Grid) (s : State) : (pvrtcTileState is2 g s).tex = s.tex := by
  unfold pvrtcTileState
  split <;> simp

/-- Everything a step of the unit can do, from any state: nothing, or the rows of one block and the end of an EXPAND or of a WALK
step (R109, R222, R223). -/
theorem unitStep_cases {s t : State} (h : unitStep s = .next t) :
    t = s ∨ ∃ f u, s.st = .busy ∧ s.format = some f ∧ EngineOnly s u ∧
      ((s.pc.phase = .expand ∧ (texRead u.tex s.pc.k).Expanded s.is2 ∧
          (∀ j, j ≠ s.pc.k → texRead u.tex j = texRead s.tex j) ∧ t = finishExpand (s.grid f) u) ∨
        (s.pc.phase = .walk ∧ (isPvrtc f = true → u.tex = s.tex) ∧ t = finishWalk (s.grid f) u)) := by
  by_cases hb : s.st = .busy
  case neg =>
    rw [unitStep_not_busy hb] at h
    exact .inl (by cases h; rfl)
  cases hf : s.format with
  | none => simp [unitStep, hb, hf] at h
  | some f =>
    by_cases hc : cursorOk f s = true
    case neg => simp [unitStep, hb, hf, hc] at h
    cases hp : s.pc.phase with
    | expand =>
      rw [unitStep_expand hb hf hc hp] at h
      rcases expandBlock_cases ((cursorOk_expand hp).1 hc).1 h with ht | ⟨u, eu, hk, hj, ht⟩
      · exact .inl ht
      · exact .inr ⟨f, u, hb, rfl, eu, .inl ⟨rfl, hk, hj, ht⟩⟩
    | walk =>
      rw [unitStep_walk hb hf hc hp] at h
      split at h
      · rcases walkPvrtc_cases h with ht | ht
        · exact .inl ht
        · exact .inr ⟨f, _, hb, rfl, engineOnly_pvrtcTileState .., .inr ⟨rfl, fun _ => pvrtcTileState_tex .., ht⟩⟩
      · rename_i hpv
        rcases walkBlock_cases h with ht | ⟨u, eu, ht⟩
        · exact .inl ht
        · exact .inr ⟨f, u, hb, rfl, eu, .inr ⟨rfl, fun hpv' => absurd hpv' hpv, ht⟩⟩

/-! ### The cursor stays in the grid -/

/-- From a block of the grid the advance goes to a block of the grid, unless it was the last (R123). -/
theorem advance_in_grid {g : Grid} {c : Cursor} (hs : c.s < g.nbx) (ht : c.t < g.nby) (hmore : (advance g c).t ≠ g.nby) :
    (advance g c).s < g.nbx ∧ (advance g c).t < g.nby := by
  unfold advance at *
  split
  · exact ⟨by assumption, ht⟩
  · rename_i hlast
    rw [if_neg hlast] at hmore
    simp only at hmore ⊢
    omega

@[simp] theorem advance_phase (g : Grid) (c : Cursor) : (advance g c).phase = .walk := by
  unfold advance
  split <;> rfl

/-- After an EXPAND step the records written are those up to the cursor's (R222). -/
theorem le_of_lt_recordsWritten {g : Grid} {c : Cursor} {k : Nat} (hc : c.k < g.count)
    (h : k < recordsWritten g (advanceExpand g c)) : k ≤ c.k := by
  unfold advanceExpand at h
  split at h <;> simp only [recordsWritten] at h <;> omega

/-- A running command still runs after an EXPAND step (R222). -/
theorem running_finishExpand {f : Format} {s u : State} (h : s.Running f) (hp : s.pc.phase = .expand)
    (eu : EngineOnly s u) (hk : (texRead u.tex s.pc.k).Expanded s.is2)
    (hj : ∀ j, j ≠ s.pc.k → texRead u.tex j = texRead s.tex j) : (finishExpand (s.grid f) u).Running f := by
  obtain ⟨hpv, hkc⟩ := (cursorOk_expand hp).1 h.cursor
  have hrec := h.records hpv
  simp only [recordsWritten, hp] at hrec
  rw [eu]
  refine ⟨h.selects, h.ranges, h.grid, h.long, h.scratch, h.apart, ?_, fun _ k hlt => ?_⟩
  · show cursorOk f { s with pc := advanceExpand (s.grid f) s.pc } = true
    unfold advanceExpand
    split
    · rw [cursorOk_expand rfl]
      exact ⟨hpv, by assumption⟩
    · rw [cursorOk_walk rfl]
      exact Grid.count_pos.1 (Nat.zero_lt_of_lt hkc)
  · show (texRead u.tex k).Expanded s.is2
    rcases Nat.eq_or_lt_of_le (le_of_lt_recordsWritten hkc hlt) with rfl | hlt'
    · exact hk
    · rw [hj k (Nat.ne_of_lt hlt')]
      exact hrec k hlt'

/-- A running command still runs after a WALK step that was not its last (R109, R223). -/
theorem running_finishWalk {f : Format} {s u : State} (h : s.Running f) (hp : s.pc.phase = .walk)
    (eu : EngineOnly s u) (htex : isPvrtc f = true → u.tex = s.tex)
    (hmore : (advance (s.grid f) s.pc).t ≠ (s.grid f).nby) : (finishWalk (s.grid f) u).Running f := by
  obtain ⟨hs, ht⟩ := (cursorOk_walk hp).1 h.cursor
  rw [eu]
  refine ⟨h.selects, h.ranges, h.grid, h.long, h.scratch, h.apart, ?_, fun hpv k hlt => ?_⟩
  · exact (cursorOk_walk (advance_phase ..)).2 (advance_in_grid hs ht hmore)
  · show (texRead u.tex k).Expanded s.is2
    rw [htex hpv]
    refine h.records hpv k ?_
    change k < recordsWritten (s.grid f) (advance (s.grid f) s.pc) at hlt
    simpa only [recordsWritten, hp, advance_phase] using hlt

/-- A copy-out of a running command, host stores settled, leaves memory in canonical form (R52, R104). -/
theorem wf_storeTile {f : Format} {s u : State} (h : s.Running f) (hp : s.pc.phase = .walk) (hm : s.mem.wf)
    (eu : EngineOnly s u) : (storeTile (s.grid f) u).wf := by
  obtain ⟨hs, -⟩ := (cursorOk_walk hp).1 h.cursor
  have hin : ∀ p ∈ walkStores (s.grid f) s, p.1 + p.2 ≤ 2 ^ 32 := fun p hpm =>
    le_trans (walkStores_in hs hpm).2 h.ranges.2
  rw [eu]
  refine wf_settle (wf_copyOut hm fun i hi => ?_) hin _ _
  exact hin (_, 4 * (s.grid f).clen s.pc.s) (List.mem_map_of_mem hi)

/-! ### The invariant -/

/-- The invariant of a unit that is not BUSY says nothing of a command. -/
theorem State.Inv.of_not_busy {s : State} (hm : s.mem.wf) (hs : s.statusOk) (hb : s.st ≠ .busy) : s.Inv :=
  ⟨hm, hs, fun h => absurd h hb⟩

/-- What the host does to memory and to its own data keeps the invariant, as long as memory stays in canonical form. -/
theorem State.Inv.of_hostOnly {s t : State} (h : s.Inv) (ht : HostOnly s t) (hm : t.mem.wf) : t.Inv := by
  have hst : t.st = s.st := by rw [ht]
  have herr : t.err = s.err := by rw [ht]
  refine ⟨hm, ?_, fun hb => ?_⟩
  · simpa only [State.statusOk, hst, herr] using h.status
  · obtain ⟨f, hf⟩ := h.running (hst ▸ hb)
    exact ⟨f, hf.of_hostOnly ht⟩

theorem statusOk_raiseError {e : ErrCode} (s : State) (h : e ≠ .none) (h' : e ≠ .invalidContainer) :
    (raiseError e s).statusOk := by simp [State.statusOk, h, h']

theorem statusOk_of_clear {s : State} (hs : s.st ≠ .error) (he : s.err = .none) : s.statusOk := by
  simp [State.statusOk, hs, he]

/-- A command that START accepted runs, from its first block (R100). -/
theorem running_acceptBusy {f : Format} {s : State} (hl : s.Launchable f) (hf : s.format = some f) :
    (acceptBusy (if isPvrtc f then .expand else .walk) s).Running f := by
  refine ⟨hf, hl.ranges, hl.grid, hl.long, hl.scratch, hl.apart, ?_, fun hpv k hk => ?_⟩
  · split
    · rename_i hpv
      exact (cursorOk_expand rfl).2 ⟨hpv, hl.nonempty⟩
    · exact (cursorOk_walk rfl).2 (Grid.count_pos.1 hl.nonempty)
  · simp [hpv, recordsWritten] at hk

/-- The step of the unit keeps the invariant. -/
theorem inv_unitStep {s t : State} (h : s.Inv) (hst : unitStep s = .next t) : t.Inv := by
  rcases unitStep_cases hst with rfl | ⟨f, u, hb, hf, eu, hcase⟩
  · exact h
  obtain ⟨f', hr⟩ := h.running hb
  obtain rfl : f' = f := Option.some.inj (hr.selects.symm.trans hf)
  have hus : u.st = .busy := by rw [eu]; exact hb
  have hue : u.err = .none := by rw [eu]; exact h.status.1.2 (by simp [hb])
  rcases hcase with ⟨hp, hk, hj, rfl⟩ | ⟨hp, htex, rfl⟩
  · refine ⟨?_, statusOk_of_clear (by simp [hus]) hue, fun _ => ⟨f', running_finishExpand hr hp eu hk hj⟩⟩
    rw [finishExpand_mem, eu]
    exact h.memory
  · refine ⟨wf_storeTile hr hp h.memory eu, statusOk_of_clear ?_ hue, fun hbusy => ⟨f', ?_⟩⟩
    · rw [finishWalk_st]
      split <;> simp [hus]
    · refine running_finishWalk hr hp eu htex fun hlast => ?_
      rw [finishWalk_st, eu.pc_eq, if_pos hlast] at hbusy
      cases hbusy

/-- START keeps the invariant (R100 to R108, R275). -/
theorem inv_accept {s t : State} (h : s.Inv) (hst : accept s.format s = .next t) : t.Inv := by
  rcases accept_cases hst with ⟨-, rfl⟩ | ⟨-, e, he, he', rfl⟩ | ⟨-, rfl⟩ | ⟨f, hf, hl, rfl⟩
  · exact h
  · exact .of_not_busy h.memory (statusOk_raiseError s he he') (by simp)
  · exact .of_not_busy h.memory (statusOk_of_clear (by simp) rfl) (by simp)
  · exact ⟨h.memory, statusOk_of_clear (by simp) rfl, fun _ => ⟨f, running_acceptBusy hl hf⟩⟩

/-- CLEAR keeps the invariant (R101, R102). -/
theorem inv_execClear {s t : State} (h : s.Inv) (hst : execClear s = .next t) : t.Inv := by
  unfold execClear at hst
  split at hst
  · cases hst
    exact h
  · cases hst
    exact .of_not_busy h.memory (statusOk_of_clear (by simp) rfl) (by simp)

/-- A CTRL value carries START, CLEAR or no strobe (R21). -/
theorem decodeCtrl_cases (v : Word) :
    (∃ c, decodeCtrl v = .ok (.start c)) ∨ decodeCtrl v = .ok .clear ∨ decodeCtrl v = .error .noStrobe := by
  unfold decodeCtrl
  split
  · exact .inl ⟨_, rfl⟩
  · split
    · exact .inr (.inl rfl)
    · exact .inr (.inr rfl)

theorem inv_writeCtrl {s t : State} {v : Word} (h : s.Inv) (hst : writeCtrl v s = .next t) : t.Inv := by
  unfold writeCtrl at hst
  rcases decodeCtrl_cases v with ⟨c, hd⟩ | hd | hd <;> rw [hd] at hst
  · exact inv_accept h hst
  · exact inv_execClear h hst
  · cases hst
    exact h

/-- A register write leaves STATUS and memory, and the whole state while BUSY (R22, R28). -/
theorem writeReg_frame (i : Fin 8) (v : Word) (s : State) :
    (s.st = .busy → writeReg i v s = s) ∧
    writeReg i v s = { s with
      fmt := (writeReg i v s).fmt, is2 := (writeReg i v s).is2, src := (writeReg i v s).src, len := (writeReg i v s).len,
      dst := (writeReg i v s).dst, width := (writeReg i v s).width, height := (writeReg i v s).height } := by
  unfold writeReg
  split
  · exact ⟨fun _ => rfl, rfl⟩
  · refine ⟨fun hb => absurd hb (by assumption), ?_⟩
    split <;> rfl

theorem inv_writeReg {s : State} (i : Fin 8) (v : Word) (h : s.Inv) : (writeReg i v s).Inv := by
  obtain ⟨hbusy, hframe⟩ := writeReg_frame i v s
  by_cases hb : s.st = .busy
  · rw [hbusy hb]
    exact h
  · rw [hframe]
    exact .of_not_busy h.memory h.status hb

/-- A store of the host leaves memory in canonical form (R50). -/
theorem wf_storeState {s : State} {a : Nat} (ha : a < 2 ^ 32) (b : Byte) (hm : s.mem.wf) : (storeState a b s).mem.wf := by
  unfold storeState
  split
  · exact wf_raceWrite hm _ ha b
  · split <;> exact Memory.wf_write hm ha b

/-- Reset gives back the invariant (R36, R300, R301). -/
theorem inv_resetUnit {s : State} (h : s.Inv) : (resetUnit s).Inv := by
  refine .of_not_busy ?_ (statusOk_of_clear (by simp [State.reset]) (by simp [State.reset])) (by simp [State.reset])
  rw [resetUnit_mem]
  refine wf_abandonOutput h.memory fun hb => ?_
  obtain ⟨f, hf⟩ := h.running hb
  exact hf.ranges.2

/-- An access to memory that goes on ends in the state it was given. -/
theorem atMemory_eq_next {a : Word} {s t u : State} (h : atMemory a s t = .next u) : u = t := by
  unfold atMemory at h
  split at h <;> cases h
  rfl

/-- Every access of the host keeps the invariant. -/
theorem inv_hostAccess {op : HostOp} {s t : State} (h : s.Inv) (hst : hostAccess op s = .next t) : t.Inv := by
  cases op with
  | wr i v =>
    change hostWrite i v s = .next t at hst
    unfold hostWrite at hst
    split at hst
    · exact inv_writeCtrl h hst
    · cases hst
      exact inv_writeReg i v h
  | rd i =>
    cases hst
    exact h.of_hostOnly (hostOnly_hostRead i s) h.memory
  | poll =>
    cases hst
    exact h.of_hostOnly (hostOnly_hostRead 1 s) h.memory
  | wait => exact inv_unitStep h hst
  | store a b =>
    rw [atMemory_eq_next hst]
    exact h.of_hostOnly (hostOnly_storeState _ b s) (wf_storeState a.isLt b h.memory)
  | load a =>
    rw [atMemory_eq_next hst]
    exact h.of_hostOnly (hostOnly_loadState _ s) (by simpa using h.memory)
  | reset =>
    cases hst
    exact inv_resetUnit h

/-- The three ways a step is taken: the unit's own, behind a POLL that reads BUSY, or an access off the queue (R85, log 22). -/
theorem step_cases (s : State) :
    step s = unitStep s ∨ step s = unitStep (hostRead 1 s) ∨ ∃ op q, step s = hostAccess op { s with hostQ := q } := by
  cases hq : s.hostQ with
  | nil => exact .inl (step_idle_queue hq)
  | cons op q =>
    by_cases hp : op ≠ .poll ∨ s.st ≠ .busy
    · exact .inr (.inr ⟨op, q, step_access hq hp⟩)
    · simp only [not_or, not_not] at hp
      obtain ⟨rfl, hb⟩ := hp
      exact .inr (.inl (step_poll_busy hq hb))

/-- Settles O54: the unit's step and every access of the host keep the invariant. -/
theorem stepKeepsInv : Obligations.StepKeepsInv := by
  intro s t h hst
  rcases step_cases s with hs | hs | ⟨op, q, hs⟩ <;> rw [hs] at hst
  · exact inv_unitStep h hst
  · exact inv_unitStep (h.of_hostOnly (hostOnly_hostRead 1 s) h.memory) hst
  · exact inv_hostAccess (h.of_hostOnly (hostOnly_queue q s) h.memory) hst

/-- Settles O53: after reset memory is empty, STATUS is clear and no command runs. -/
theorem resetInv : Obligations.ResetInv :=
  .of_not_busy Memory.wf_reset (statusOk_of_clear (by simp [State.reset]) rfl) (by simp [State.reset])

end Sys2Proof.Machine
end

section
/-! PROOFS. The argument registers and the configuration: the fields behind them, and that no row and no block-step writes them. -/

namespace Sys2Proof.Machine

open Sys2Proof

/-- What a command is given: the configuration and the fields behind registers 2 to 7 (R9, R23 to R27, R35). -/
structure Arguments where
  cfg : Config
  fmt : BitVec 8
  is2 : Bool
  src : Word
  len : Word
  dst : BitVec 30
  width : BitVec 16
  height : BitVec 16

/-- The arguments a state holds. -/
def State.arguments (s : State) : Arguments :=
  { cfg := s.cfg, fmt := s.fmt, is2 := s.is2, src := s.src, len := s.len, dst := s.dst, width := s.width,
    height := s.height }

theorem EngineOnly.arguments_eq {s u : State} (h : EngineOnly s u) : u.arguments = s.arguments := by
  rw [h]
  rfl

theorem setWidth_formatWord (b : Bool) (v : BitVec 8) : (0#23 ++ BitVec.ofBool b ++ v).setWidth 8 = v :=
  BitVec.setWidth_append_eq_right

/-- The argument registers as the host reads them say exactly which arguments a state holds (R23 to R27). -/
theorem arguments_eq_iff {s s' : State} :
    s.arguments = s'.arguments ↔ (∀ j : Fin 8, 2 ≤ j.val → readReg s j = readReg s' j) ∧ s.cfg = s'.cfg := by
  simp only [State.arguments, Arguments.mk.injEq]
  constructor
  · rintro ⟨hcfg, hfmt, his2, hsrc, hlen, hdst, hwidth, hheight⟩
    refine ⟨fun j hj => ?_, hcfg⟩
    match j, hj with
    | 2, _ => simp only [readReg, his2, hfmt]
    | 3, _ => exact hsrc
    | 4, _ => exact hlen
    | 5, _ => simp only [readReg, hdst]
    | 6, _ => simp only [readReg, hwidth]
    | 7, _ => simp only [readReg, hheight]
  · rintro ⟨h, hcfg⟩
    have h2 : 0#23 ++ BitVec.ofBool s.is2 ++ s.fmt = 0#23 ++ BitVec.ofBool s'.is2 ++ s'.fmt := h 2 (by decide)
    have h5 : s.dst ++ 0#2 = s'.dst ++ 0#2 := h 5 (by decide)
    have h6 : s.width.setWidth 32 = s'.width.setWidth 32 := h 6 (by decide)
    have h7 : s.height.setWidth 32 = s'.height.setWidth 32 := h 7 (by decide)
    have hfmt : s.fmt = s'.fmt := by
      rw [← setWidth_formatWord s.is2 s.fmt, h2, setWidth_formatWord]
    have his2 : BitVec.ofBool s.is2 = BitVec.ofBool s'.is2 := by
      rwa [hfmt, BitVec.append_left_inj, BitVec.append_right_inj] at h2
    refine ⟨hcfg, hfmt, ?_, h 3 (by decide), h 4 (by decide), (BitVec.append_left_inj _).1 h5, ?_, ?_⟩
    · simpa using congrArg (fun v => v.getLsbD 0) his2
    · simpa [BitVec.setWidth_setWidth_of_le] using congrArg (BitVec.setWidth 16) h6
    · simpa [BitVec.setWidth_setWidth_of_le] using congrArg (BitVec.setWidth 16) h7

/-- An acceptance writes STATUS, the cursor and the model's notes alone (R100, R275). -/
theorem arguments_accept {o : Option Format} {s t : State} (h : accept o s = .next t) : t.arguments = s.arguments := by
  rcases accept_cases h with ⟨-, rfl⟩ | ⟨-, e, -, -, rfl⟩ | ⟨-, rfl⟩ | ⟨f, -, -, rfl⟩ <;> rfl

theorem arguments_execClear {s t : State} (h : execClear s = .next t) : t.arguments = s.arguments := by
  unfold execClear at h
  split at h <;> cases h <;> rfl

/-- A CTRL value or a command word is CLEAR or the acceptance of a command (R21, R71, R73). -/
theorem exec_control {i : Instr} (s : State) (h : i.kind = .ctrl ∨ i.kind = .command) :
    exec i s = execClear s ∨ ∃ o, exec i s = accept o s := by
  cases i <;> simp only [Instr.kind, reduceCtorEq, or_self] at h
  case start => exact .inr ⟨s.format, rfl⟩
  case clear => exact .inl rfl
  case decodeDxt1 => exact .inr ⟨some .dxt1, rfl⟩
  case decodeDxt5 => exact .inr ⟨some .dxt5, rfl⟩
  case decodeEtc1 => exact .inr ⟨some .etc1, rfl⟩
  case decodeEtc2 => exact .inr ⟨some .etc2, rfl⟩
  case decodeEtc2a1 => exact .inr ⟨some .etc2a1, rfl⟩
  case decodeEtc2a8 => exact .inr ⟨some .etc2a8, rfl⟩
  case decodePvrtc4 => exact .inr ⟨some .pvrtc4, rfl⟩
  case decodePvrtc2 => exact .inr ⟨some .pvrtc2, rfl⟩
  case reservedFmt => exact .inr ⟨none, rfl⟩

/-- A strobe and a command are acceptances or CLEAR; a row of a block writes the engine's storage alone. -/
theorem arguments_exec {i : Instr} {s t : State} (h : exec i s = .next t) : t.arguments = s.arguments := by
  by_cases hk : i.kind = .ctrl ∨ i.kind = .command
  · rcases exec_control s hk with he | ⟨o, he⟩ <;> rw [he] at h
    · exact arguments_execClear h
    · exact arguments_accept h
  · obtain ⟨hctrl, hcommand⟩ := not_or.1 hk
    obtain ⟨u, hu, eu⟩ := exec_row i s hctrl hcommand
    obtain rfl : u = t := Host.Outcome.next.inj (hu.symm.trans h)
    exact eu.arguments_eq

theorem arguments_unitStep {s t : State} (h : unitStep s = .next t) : t.arguments = s.arguments := by
  rcases unitStep_cases h with rfl | ⟨f, u, -, -, eu, ⟨-, -, -, rfl⟩ | ⟨-, -, rfl⟩⟩
  · rfl
  · exact eu.arguments_eq
  · exact eu.arguments_eq

/-- Settles O14: neither an instruction nor a step of the unit writes an argument register or the configuration. -/
theorem argumentsKept : Obligations.ArgumentsKept :=
  ⟨fun _ _ _ h => arguments_eq_iff.1 (arguments_exec h), fun _ _ h => arguments_eq_iff.1 (arguments_unitStep h)⟩

end Sys2Proof.Machine
end

section
/-! PROOFS. What a block's rows leave in the tile buffer and in the scratch, as a function of the block alone. -/

namespace Sys2Proof.Machine

open Sys2Proof

/-! ### The tile of a DXT or ETC block -/

theorem decode_of_length {k : WordKind} {bs : List Byte} (h : bs.length = k.bytes) :
    decode k bs = decodeWord k (k.assemble bs) := if_pos h

/-- A format of one row: the block is that row's word. -/
theorem decodeRows_single {k : WordKind} {bs : List Byte} {i : Instr} (h : bs.length = k.bytes)
    (hi : decodeWord k (k.assemble bs) = .ok i) : decodeRows [(k, 0)] bs = .ok [i] := by
  simp only [decodeRows, List.drop_zero]
  rw [List.take_of_length_le (Nat.le_of_eq h), decode_of_length h, hi]

/-- The two halves of a DXT5 block. -/
theorem decodeBlock_dxt5 {bs : List Byte} (h : bs.length = 16) :
    decodeBlock .dxt5 bs = .ok [decodeDxt5AlphaWord (BitVec.ofNat 64 (leNat (bs.take 8))),
      .dxt5Color (dxtColourOf (BitVec.ofNat 64 (leNat (bs.drop 8))))] := by
  have h1 : (bs.take 8).length = WordKind.bytes .dxt5Alpha := by simp [WordKind.bytes, h]
  have h2 : (bs.drop 8).length = WordKind.bytes .dxt5Colour := by simp [WordKind.bytes, h]
  have h3 : (bs.drop 8).take (WordKind.bytes .dxt5Colour) = bs.drop 8 := List.take_of_length_le (Nat.le_of_eq h2)
  show decodeRows [(.dxt5Alpha, 0), (.dxt5Colour, 8)] bs = _
  simp only [decodeRows, List.drop_zero]
  rw [h3, decode_of_length h2, show bs.take (WordKind.bytes .dxt5Alpha) = bs.take 8 from rfl, decode_of_length h1]
  rfl

theorem beNat_append (as bs : List Byte) : beNat (as ++ bs) = 2 ^ (8 * bs.length) * beNat as + beNat bs := by
  have h : (256 : Nat) ^ bs.length = 2 ^ (8 * bs.length) := by rw [Nat.pow_mul]
  simp only [beNat, List.reverse_append, leNat_append, List.length_reverse, h]
  omega

/-- The alpha byte and the colour word of an ETC2A1 block (R78). -/
theorem etc2a1_fields {bs : List Byte} (h : bs.length = 9) :
    (BitVec.ofNat 72 (beNat bs)).extractLsb 71 64 = bs.headD 0 ∧
      (BitVec.ofNat 72 (beNat bs)).extractLsb 63 0 = BitVec.ofNat 64 (beNat (bs.drop 1)) := by
  obtain ⟨b, bs, rfl⟩ := List.exists_cons_of_length_pos (l := bs) (by omega)
  have hl : bs.length = 8 := by simpa using h
  have hbe : beNat (b :: bs) = 2 ^ 64 * b.toNat + beNat bs := by
    simpa [hl, beNat, leNat] using beNat_append [b] bs
  have hlow := beNat_lt bs
  have hb := b.isLt
  rw [hl] at hlow
  constructor <;> apply BitVec.eq_of_toNat_eq <;>
    simp only [hbe, BitVec.extractLsb_toNat, BitVec.toNat_ofNat, Nat.shiftRight_eq_div_pow, List.headD_cons,
      List.drop_one, List.tail_cons] <;> omega

/-- The alpha word and the colour word of an ETC2A8 block (R79). -/
theorem etc2a8_fields {bs : List Byte} (h : bs.length = 16) :
    (BitVec.ofNat 128 (beNat bs)).extractLsb 127 64 = BitVec.ofNat 64 (beNat (bs.take 8)) ∧
      (BitVec.ofNat 128 (beNat bs)).extractLsb 63 0 = BitVec.ofNat 64 (beNat (bs.drop 8)) := by
  have hbe : beNat bs = 2 ^ 64 * beNat (bs.take 8) + beNat (bs.drop 8) := by
    have := beNat_append (bs.take 8) (bs.drop 8)
    simpa [h] using this
  have hhigh := beNat_lt (bs.take 8)
  have hlow := beNat_lt (bs.drop 8)
  simp only [List.length_take, List.length_drop, h] at hhigh hlow
  constructor <;> apply BitVec.eq_of_toNat_eq <;>
    simp only [hbe, BitVec.extractLsb_toNat, BitVec.toNat_ofNat, Nat.shiftRight_eq_div_pow] <;> omega

theorem exec_decodeDxt1Word (d : BitVec 64) (s : State) :
    exec (decodeDxt1Word d) s = .next (dxt1State (dxt1Palette (dxtColourOf d).q0 (dxtColourOf d).q1) (dxtColourOf d) s) := by
  unfold decodeDxt1Word dxt1Palette
  split <;> rfl

theorem exec_decodeDxt5AlphaWord (a : BitVec 64) (s : State) :
    exec (decodeDxt5AlphaWord a) s =
      .next (dxt5AlphaState (dxt5AlphaPalette (dxtAlphaOf a).a0 (dxtAlphaOf a).a1) (dxtAlphaOf a) s) := by
  unfold decodeDxt5AlphaWord dxt5AlphaPalette
  split <;> rfl

theorem exec_decodeEtcColourWord (etc2 : Bool) (w : BitVec 64) (s : State) :
    exec (decodeEtcColourWord etc2 w) s = .next (etcColourState etc2 w s) := by
  unfold decodeEtcColourWord etcColourState
  cases etcMode etc2 w <;> rfl

/-- An ETC colour block's tile is its block function, from every state (R185). -/
theorem tileAt_etcColourState (etc2 : Bool) (w : BitVec 64) (s : State) {n : Nat} (h : n < 16) :
    tileAt (etcColourState etc2 w s).tile n = decodeEtcColourBlock s.cfg etc2 w n := by
  unfold etcColourState decodeEtcColourBlock
  cases etcMode etc2 w <;> exact tileAt_setTile16 _ _ h

@[simp] theorem etcColourState_cfg (etc2 : Bool) (w : BitVec 64) (s : State) : (etcColourState etc2 w s).cfg = s.cfg :=
  (engineOnly_etcColourState etc2 w s).cfg_eq

/-- A DXT5 block's tile: the colour half gives the colours, the alpha half before it the alpha (R153, R154). -/
theorem tileAt_dxt5 (pal : Vector Byte 8) (a : DxtAlpha) (cpal : Vector Pixel 4) (b : DxtColour) (s : State) {n : Nat}
    (h : n < 16) :
    tileAt (dxt5ColourState cpal b (dxt5AlphaState pal a s)).tile n =
      { dxtSelect cpal b.idx n with a := alphaSelect pal a.idx n } := by
  unfold dxt5ColourState
  rw [tileAt_setTileRgb16 _ _ h]
  show Pixel.mk _ _ _ (tileAt (dxt5AlphaState pal a s).tile n).a = _
  unfold dxt5AlphaState
  rw [tileAt_setTileAlpha16 _ _ h]

/-- The rows of a DXT or ETC block run from every state, and leave in the tile what the block's bytes and the configuration say
(R147, R155, R185, R186, R190). -/
theorem rows_compute_block {f : Format} {bs : List Byte} (s : State) (hf : isPvrtc f = false)
    (h : bs.length = blockBytes f) :
    ∃ is u, decodeBlock f bs = .ok is ∧ runAll is s = .next u ∧
      ∀ n, n < 16 → blockPixel s.cfg f bs n = some (tileAt u.tile n) := by
  cases f with
  | dxt1 =>
    refine ⟨_, _, decodeRows_single h rfl, by rw [runAll, exec_decodeDxt1Word]; rfl, fun n hn => ?_⟩
    exact congrArg some (tileAt_setTile16 _ _ hn).symm
  | dxt5 =>
    refine ⟨_, _, decodeBlock_dxt5 h, by rw [runAll, exec_decodeDxt5AlphaWord]; rfl, fun n hn => ?_⟩
    exact congrArg some (tileAt_dxt5 _ _ _ _ s hn).symm
  | etc1 =>
    refine ⟨_, _, decodeRows_single h rfl, by rw [runAll, exec_decodeEtcColourWord]; rfl, fun n hn => ?_⟩
    exact congrArg some (tileAt_etcColourState _ _ s hn).symm
  | etc2 =>
    refine ⟨_, _, decodeRows_single h rfl, by rw [runAll, exec_decodeEtcColourWord]; rfl, fun n hn => ?_⟩
    exact congrArg some (tileAt_etcColourState _ _ s hn).symm
  | etc2a1 =>
    refine ⟨_, _, decodeRows_single h rfl, rfl, fun n hn => ?_⟩
    obtain ⟨ha, hc⟩ := etc2a1_fields h
    rw [tileAt_setTileAlpha16 _ _ hn, tileAt_etcColourState _ _ s hn]
    simp only [blockPixel, decodeEtc2a1Block, WordKind.assemble, WordKind.bigEndian, if_true, ha, hc]
  | etc2a8 =>
    refine ⟨_, _, decodeRows_single h rfl, rfl, fun n hn => ?_⟩
    obtain ⟨ha, hc⟩ := etc2a8_fields h
    unfold eacAlphaState
    rw [tileAt_setTileAlpha16 _ _ hn, tileAt_etcColourState _ _ s hn]
    simp only [blockPixel, decodeEtc2a8Block, WordKind.assemble, WordKind.bigEndian, if_true, ha, hc, etcColourState_cfg]
  | pvrtc4 => cases hf
  | pvrtc2 => cases hf

/-- So from two states of one configuration the rows leave the same tile. -/
theorem rows_same_tile {f : Format} {bs : List Byte} {is : List Instr} {s s' u u' : State} (hf : isPvrtc f = false)
    (h : bs.length = blockBytes f) (hd : decodeBlock f bs = .ok is) (hcfg : s.cfg = s'.cfg)
    (hu : runAll is s = .next u) (hu' : runAll is s' = .next u') :
    ∀ n, n < 16 → tileAt u.tile n = tileAt u'.tile n := by
  have key : ∀ {v w : State}, runAll is v = .next w → ∀ n, n < 16 → blockPixel v.cfg f bs n = some (tileAt w.tile n) := by
    intro v w hw
    obtain ⟨js, x, hjs, hx, hpix⟩ := rows_compute_block v hf h
    obtain rfl : js = is := Except.ok.inj (hjs.symm.trans hd)
    obtain rfl : x = w := Host.Outcome.next.inj (hx.symm.trans hw)
    exact hpix
  intro n hn
  have h1 := key hu n hn
  rw [hcfg, key hu' n hn] at h1
  exact (Option.some.inj h1).symm

/-! ### The record of a PVRTC block -/

/-- Two records that read alike: in 4bpp the first sixteen weights are read, in 2bpp all (R228, R229, R230). -/
def TexelInfo.ReadAlike (is2 : Bool) (r r' : TexelInfo) : Prop :=
  match is2 with
  | true => r = r'
  | false => r.a = r'.a ∧ r.b = r'.b ∧ r.pt = r'.pt ∧ ∀ i, i < 16 → r.weight i = r'.weight i

theorem weight_weights4 (table : Vector (Fin 9) 4) (m : BitVec 32) (r : TexelInfo) (pt : BitVec 32) {i : Nat} (h : i < 16) :
    TexelInfo.weight { r with wt := weights4 table m r.wt, pt := pt } i = .stored (table.get (modCode m i).toFin) := by
  simp [TexelInfo.weight, weights4, Nat.mod_eq_of_lt (show i < 32 by omega), h]

theorem readAlike_weights4 (table : Vector (Fin 9) 4) (m pt : BitVec 32) {r r' : TexelInfo} (ha : r.a = r'.a)
    (hb : r.b = r'.b) : TexelInfo.ReadAlike false { r with wt := weights4 table m r.wt, pt := pt }
      { r' with wt := weights4 table m r'.wt, pt := pt } :=
  ⟨ha, hb, rfl, fun i hi => by rw [weight_weights4 _ _ _ _ hi, weight_weights4 _ _ _ _ hi]⟩

/-- A modulation word leaves records that read alike where the colours were the same (R227). -/
theorem readAlike_modulation {is2 mflag : Bool} {m : BitVec 32} {s s' : State} (hcfg : s.cfg = s'.cfg)
    (ha : (texRead s.tex s.pc.k).a = (texRead s'.tex s'.pc.k).a) (hb : (texRead s.tex s.pc.k).b = (texRead s'.tex s'.pc.k).b) :
    TexelInfo.ReadAlike is2 (texRead (modulationState is2 mflag m s).tex s.pc.k)
      (texRead (modulationState is2 mflag m s').tex s'.pc.k) := by
  have hw : ∀ f f' : TexelInfo → TexelInfo,
      TexelInfo.ReadAlike is2 (f (texRead s.tex s.pc.k)) (f' (texRead s'.tex s'.pc.k)) →
      TexelInfo.ReadAlike is2 (texRead (updateTex f s).tex s.pc.k) (texRead (updateTex f' s').tex s'.pc.k) :=
    fun f f' h => by rwa [texRead_updateTex, texRead_updateTex]
  cases is2 <;> cases mflag <;> refine hw _ _ ?_
  · rw [hcfg]
    exact readAlike_weights4 _ m _ ha hb
  · rw [hcfg]
    exact readAlike_weights4 _ m _ ha hb
  · simp only [TexelInfo.ReadAlike, ha, hb]
  · simp only [TexelInfo.ReadAlike, ha, hb, hcfg]

/-- The record at the cursor after its two colours are written (R225, R226). -/
theorem texRead_setColours (ca cb : Texel) (s : State) :
    texRead (setColourB cb (setColourA ca s)).tex s.pc.k = { texRead s.tex s.pc.k with a := ca, b := cb } :=
  (texRead_updateTex _ (setColourA ca s)).trans
    (congrArg (fun r : TexelInfo => { r with b := cb }) (texRead_updateTex _ s))

/-- PVRTC.BLOCK leaves records that read alike, from two states of one configuration and one `is2` (R222). -/
theorem readAlike_pvrtcBlock {ca cb : BitVec 16} {m : BitVec 32} {s s' u u' : State} (hcfg : s.cfg = s'.cfg)
    (his2 : s.is2 = s'.is2) (hu : exec (.pvrtcBlock ca cb m) s = .next u) (hu' : exec (.pvrtcBlock ca cb m) s' = .next u') :
    TexelInfo.ReadAlike s.is2 (texRead u.tex s.pc.k) (texRead u'.tex s'.pc.k) := by
  have h := texRead_setColours (colourA ca) (colourB cb) s
  have h' := texRead_setColours (colourA ca) (colourB cb) s'
  cases hu
  cases hu'
  rw [← his2]
  exact readAlike_modulation (s := setColourB (colourB cb) (setColourA (colourA ca) s))
    (s' := setColourB (colourB cb) (setColourA (colourA ca) s')) hcfg
    ((congrArg TexelInfo.a h).trans (congrArg TexelInfo.a h').symm)
    ((congrArg TexelInfo.b h).trans (congrArg TexelInfo.b h').symm)

/-! ### The tile of a PVRTC block -/

/-- The low part of the Morton index has two bits per level. -/
theorem mortonLow_lt (s t n : Nat) : mortonLow s t n < 2 ^ (2 * n) := by
  induction n with
  | zero => simp [mortonLow]
  | succ n ih =>
    have hbit : ∀ b : Bool, ∀ k, k < 2 * (n + 1) → b.toNat <<< k < 2 ^ (2 * (n + 1)) := fun b k hk => by
      rw [Nat.shiftLeft_eq]
      have h1 : b.toNat * 2 ^ k ≤ 1 * 2 ^ k := Nat.mul_le_mul_right _ b.toNat_le
      have h2 : 2 ^ k < 2 ^ (2 * (n + 1)) := Nat.pow_lt_pow_right (by decide) hk
      omega
    have hih : mortonLow s t n < 2 ^ (2 * (n + 1)) := lt_of_lt_of_le ih (Nat.pow_le_pow_right (by decide) (by omega))
    exact Nat.or_lt_two_pow (Nat.or_lt_two_pow hih (hbit _ _ (by omega))) (hbit _ _ (by omega))

/-- The Morton index of a block of a power-of-two grid is the index of a record (R233). -/
theorem morton_lt {nbx nby x y : Nat} (hx : isPow2 nbx = true) (hy : isPow2 nby = true) (h1 : x < nbx) (h2 : y < nby) :
    morton nbx nby x y < nbx * nby := by
  obtain ⟨a, rfl⟩ := (isPow2_iff nbx).1 hx
  obtain ⟨b, rfl⟩ := (isPow2_iff nby).1 hy
  have hmin : (min (2 ^ a) (2 ^ b)).log2 = min a b := by
    rcases Nat.le_total a b with h | h
    · rw [Nat.min_eq_left (Nat.pow_le_pow_right (by decide) h), Nat.min_eq_left h, Nat.log2_two_pow]
    · rw [Nat.min_eq_right (Nat.pow_le_pow_right (by decide) h), Nat.min_eq_right h, Nat.log2_two_pow]
  have hor : x ||| y < 2 ^ max a b := Nat.or_lt_two_pow
    (lt_of_lt_of_le h1 (Nat.pow_le_pow_right (by decide) (Nat.le_max_left ..)))
    (lt_of_lt_of_le h2 (Nat.pow_le_pow_right (by decide) (Nat.le_max_right ..)))
  have hsum : 2 ^ a * 2 ^ b = 2 ^ (max a b - min a b) * 2 ^ (2 * min a b) := by
    rw [← Nat.pow_add, ← Nat.pow_add]
    congr 1
    omega
  have hhigh : (x ||| y) / 2 ^ min a b < 2 ^ (max a b - min a b) := by
    rw [Nat.div_lt_iff_lt_mul (by positivity), ← Nat.pow_add]
    rwa [show max a b - min a b + min a b = max a b by omega]
  unfold morton
  rw [hmin, hsum, ← Nat.pow_add]
  refine Nat.or_lt_two_pow (lt_of_lt_of_le (mortonLow_lt x y _) (Nat.pow_le_pow_right (by decide) (by omega))) ?_
  rw [Nat.shiftLeft_eq, Nat.shiftRight_eq_div_pow, Nat.pow_add]
  exact Nat.mul_lt_mul_of_pos_right hhigh (by positivity)

/-- A neighbour is the record of some block of the grid, the same one in every scratch (R233, R234). -/
theorem neighbour_eq_texRead {g : Grid} (hx : isPow2 g.nbx = true) (hy : isPow2 g.nby = true) (x y ay ax : Nat) :
    ∃ k, k < g.count ∧ ∀ tex, neighbour tex g.nbx g.nby x y ay ax = texRead tex k := by
  have pos : ∀ {n : Nat}, isPow2 n = true → 0 < n := fun h => by
    obtain ⟨k, rfl⟩ := (isPow2_iff _).1 h
    positivity
  exact ⟨_, morton_lt hx hy (Nat.mod_lt _ (pos hx)) (Nat.mod_lt _ (pos hy)), fun _ => rfl⟩

/-- The tile of a PVRTC WALK step (R243). -/
theorem tileAt_pvrtcTileState (is2 : Bool) (g : Grid) (s : State) {n : Nat} (h : n < 4 * pvrtcWidth is2) :
    tileAt (pvrtcTileState is2 g s).tile n = pvrtcTile s.cfg is2 (neighbour s.tex g.nbx g.nby s.pc.s s.pc.t) n := by
  cases is2 with
  | false => exact tileAt_setTile16 _ s h
  | true => exact tileAt_setTile32 _ s h

/-- A PVRTC tile is as wide as the format's block (R71). -/
theorem pvrtcWidth_of_format {f : Format} {s : State} (h : s.format = some f) (hf : isPvrtc f = true) :
    pvrtcWidth s.is2 = blockWidth f := by
  unfold State.format formatOf at h
  split at h
  case h_7 =>
    cases his2 : s.is2 <;> rw [his2] at h <;> cases h <;> rfl
  all_goals cases h
  all_goals cases hf

/-- A PVRTC tile reads of its neighbourhood only what records that read alike share (R236 to R243). -/
theorem pvrtcTile_congr {cfg : Config} {is2 : Bool} {n n' : Nat → Nat → TexelInfo}
    (h : ∀ ay ax, TexelInfo.ReadAlike is2 (n ay ax) (n' ay ax)) (he : (n 1 1).Expanded is2) {i : Nat}
    (hi : i < 4 * pvrtcWidth is2) : pvrtcTile cfg is2 n i = pvrtcTile cfg is2 n' i := by
  cases is2 with
  | true => rw [show n = n' from funext fun ay => funext fun ax => h ay ax]
  | false =>
    have ha : ∀ ay ax, (n ay ax).a = (n' ay ax).a := fun ay ax => (h ay ax).1
    have hb : ∀ ay ax, (n ay ax).b = (n' ay ax).b := fun ay ax => (h ay ax).2.1
    obtain ⟨-, -, hpt, hwt⟩ := h 1 1
    have hidx : 4 * (i / 4) + i % 4 < 16 := by
      have : i < 16 := hi
      omega
    have hw : pvrtcWeight cfg false n (i % 4) (i / 4) = pvrtcWeight cfg false n' (i % 4) (i / 4) := by
      obtain ⟨w, hst⟩ := he _ hidx
      have hst' := hst
      rw [hwt _ hidx] at hst'
      simp only [pvrtcWeight, pvrtcWidth, Bool.false_eq_true, if_false, hst, hst']
    simp only [pvrtcTile, pvrtcPixel, pvrtcWidth, Bool.false_eq_true, if_false, hw, hpt, tapSum, ha, hb]

end Sys2Proof.Machine
end

section
/-! PROOFS. Two runs of one command side by side: what the registers, the configuration and the source bytes leave open never
reaches the output range (R35, R140, R310). -/

namespace Sys2Proof.Machine

open Sys2Proof

/-! ### What the arguments of a command determine -/

section
variable {s s' : State} (h : s.arguments = s'.arguments) (f : Format)
include h

theorem grid_of_arguments : s.grid f = s'.grid f :=
  congrArg (fun a : Arguments => gridOf f a.width.toNat a.height.toNat) h

theorem srcBase_of_arguments : s.srcBase = s'.srcBase := congrArg (fun a : Arguments => a.src.toNat) h

theorem dstBase_of_arguments : s.dstBase = s'.dstBase := congrArg (fun a : Arguments => 4 * a.dst.toNat) h

theorem dstLen_of_arguments : s.dstLen = s'.dstLen := congrArg (fun a : Arguments => 4 * a.width.toNat * a.height.toNat) h

theorem inOutput_of_arguments (a : Nat) : s.inOutput a = s'.inOutput a := by
  simp only [State.inOutput, dstBase_of_arguments h, dstLen_of_arguments h]

theorem backed_of_arguments (hb : s.backed f) : s'.backed f := by
  have hcfg : s.cfg = s'.cfg := congrArg Arguments.cfg h
  simpa only [State.backed, buffers, hcfg, srcBase_of_arguments h, dstBase_of_arguments h, dstLen_of_arguments h,
    grid_of_arguments h f] using hb

theorem format_of_arguments : s.format = s'.format := congrArg (fun a : Arguments => formatOf a.fmt a.is2) h

end

/-! ### The bytes that block-steps have stored -/

/-- The stores of the block in column `x` and row `y` (R127). -/
def State.blockStores (f : Format) (s : State) (x y : Nat) : List (Nat × Nat) :=
  storeAccesses (s.grid f) s.dstBase s.width.toNat s.height.toNat x y

/-- Some block of the grid before the cursor `c`, in row-major order, covers the byte with its copy-out (R123). -/
def State.Stored (f : Format) (s : State) (c : Cursor) (a : Nat) : Prop :=
  ∃ x y, x < (s.grid f).nbx ∧ (y < c.t ∨ y = c.t ∧ x < c.s) ∧ ∃ p ∈ s.blockStores f x y, p.1 ≤ a ∧ a < p.1 + p.2

/-- The advance adds the block at the cursor (R123). -/
theorem stored_advance {f : Format} {s : State} {c : Cursor} {a : Nat} (hs : c.s < (s.grid f).nbx)
    (h : s.Stored f (advance (s.grid f) c) a) :
    s.Stored f c a ∨ ∃ p ∈ s.blockStores f c.s c.t, p.1 ≤ a ∧ a < p.1 + p.2 := by
  obtain ⟨x, y, hx, hlt, p, hp, hpa⟩ := h
  have hcase : (y < c.t ∨ y = c.t ∧ x < c.s) ∨ (y = c.t ∧ x = c.s) := by
    unfold advance at hlt
    split at hlt <;> simp only at hlt <;> omega
  rcases hcase with hbefore | ⟨rfl, rfl⟩
  · exact .inl ⟨x, y, hx, hbefore, p, hp, hpa⟩
  · exact .inr ⟨p, hp, hpa⟩

/-- A pixel column lies in the clipped part of its block (R121, R126). -/
theorem mod_lt_clen {f : Format} {w h x : Nat} (hx : x < w) :
    x % blockWidth f < (gridOf f w h).clen (x / blockWidth f) := by
  have hb := blockWidth_pos f
  have hmod := Nat.mod_lt x hb
  have hx' := Nat.div_add_mod x (blockWidth f)
  have hd := Nat.div_add_mod (w + blockWidth f - 1) (blockWidth f)
  have hn : (gridOf f w h).nbx = (w + blockWidth f - 1) / blockWidth f := rfl
  rw [← hn] at hd
  by_cases hlast : x / blockWidth f + 1 < (gridOf f w h).nbx
  · exact lt_of_lt_of_eq hmod (if_pos hlast).symm
  · have hclen : (gridOf f w h).clen (x / blockWidth f) = (w + blockWidth f - 1) % blockWidth f + 1 := if_neg hlast
    have hle := Nat.mul_le_mul_left (blockWidth f) (Nat.le_of_not_lt hlast)
    rw [Nat.mul_succ] at hle
    omega

/-- The byte `c` of the pixel in column `x` of output row `y` is stored by the block that covers the pixel (R124 to R127). -/
theorem blockStores_cover {f : Format} {s : State} {x y c : Nat} (hx : x < s.width.toNat) (hy : y < s.height.toNat)
    (hc : c < 4) :
    ∃ p ∈ s.blockStores f (x / blockWidth f) ((s.height.toNat - 1 - y) / 4),
      p.1 ≤ s.dstBase + (4 * (y * s.width.toNat + x) + c) ∧ s.dstBase + (4 * (y * s.width.toNat + x) + c) < p.1 + p.2 := by
  have hdiv := Nat.div_add_mod x (blockWidth f)
  have hclen := mod_lt_clen (f := f) (h := s.height.toNat) hx
  have hrow : (s.grid f).outRow s.height.toNat ((s.height.toNat - 1 - y) / 4) ((s.height.toNat - 1 - y) % 4) = y := by
    show s.height.toNat - 1 - (4 * ((s.height.toNat - 1 - y) / 4) + (s.height.toNat - 1 - y) % 4) = y
    omega
  have hin : (s.height.toNat - 1 - y) % 4 ∈ (s.grid f).rows s.height.toNat ((s.height.toNat - 1 - y) / 4) := by
    rw [Grid.mem_rows]
    show _ < 4 ∧ 4 * _ + _ < _
    omega
  have haddr : (s.grid f).rowAddr s.dstBase s.width.toNat s.height.toNat (x / blockWidth f)
      ((s.height.toNat - 1 - y) / 4) ((s.height.toNat - 1 - y) % 4) =
        s.dstBase + 4 * (y * s.width.toNat + blockWidth f * (x / blockWidth f)) := by
    unfold Grid.rowAddr
    rw [hrow]
    rfl
  refine ⟨_, List.mem_map_of_mem hin, ?_⟩
  simp only [haddr]
  change x % blockWidth f < (s.grid f).clen (x / blockWidth f) at hclen
  omega

/-- With the cursor past the last block every byte of the output range is stored. -/
theorem stored_of_inOutput {f : Format} {s : State} {c : Cursor} {a : Nat} (ht : c.t = (s.grid f).nby)
    (ha : s.inOutput a = true) : s.Stored f c a := by
  simp only [State.inOutput, Bool.and_eq_true, decide_eq_true_eq] at ha
  obtain ⟨hlo, hhi⟩ := ha
  unfold State.dstLen at hhi
  have hpix : (a - s.dstBase) / 4 < s.height.toNat * s.width.toNat := by
    rw [Nat.mul_comm]
    rw [Nat.mul_assoc] at hhi
    omega
  have hw : 0 < s.width.toNat := Nat.pos_of_mul_pos_left (Nat.zero_lt_of_lt hpix)
  have hx := Nat.mod_lt ((a - s.dstBase) / 4) hw
  have hy := (Nat.div_lt_iff_lt_mul hw).2 hpix
  have hsplit := Nat.div_add_mod' ((a - s.dstBase) / 4) s.width.toNat
  generalize (a - s.dstBase) / 4 % s.width.toNat = x at hx hsplit
  generalize (a - s.dstBase) / 4 / s.width.toNat = y at hy hsplit
  obtain ⟨p, hp, hpa⟩ := blockStores_cover (f := f) hx hy (Nat.mod_lt (a - s.dstBase) (show 0 < 4 by decide))
  have hrow : (s.height.toNat - 1 - y) / 4 < (s.grid f).nby := div_lt_ceilDiv (by decide) (by omega)
  rw [hsplit, Nat.div_add_mod, Nat.add_sub_cancel' hlo] at hpa
  exact ⟨_, _, div_lt_ceilDiv (blockWidth_pos f) hx, .inl (ht ▸ hrow), p, hp, hpa⟩

/-! ### Copy-outs agree -/

/-- Rows of the same bytes written to two memories: a byte agrees after if it agreed before or a row covers it. -/
theorem read_foldl_rows_agree {rows : List Nat} {addr : Nat → Nat} {bytes bytes' : Nat → List Byte} {m m' : Memory}
    (hm : m.Pairwise (fun c d => c.1 < d.1)) (hm' : m'.Pairwise (fun c d => c.1 < d.1))
    (hb : ∀ i ∈ rows, bytes i = bytes' i) {a : Nat}
    (h : m.read a = m'.read a ∨ ∃ i ∈ rows, addr i ≤ a ∧ a < addr i + (bytes i).length) :
    (rows.foldl (fun m i => m.writeBytes (addr i) (bytes i)) m).read a =
      (rows.foldl (fun m i => m.writeBytes (addr i) (bytes' i)) m').read a := by
  induction rows generalizing m m' with
  | nil => simpa using h
  | cons r rows ih =>
    have hr := hb r List.mem_cons_self
    refine ih (Memory.pairwise_writeBytes hm _ _) (Memory.pairwise_writeBytes hm' _ _)
      (fun i hi => hb i (List.mem_cons_of_mem _ hi)) ?_
    rw [Memory.read_writeBytes hm, Memory.read_writeBytes hm', ← hr]
    by_cases hin : addr r ≤ a ∧ a < addr r + (bytes r).length
    · exact .inl (by rw [if_pos hin, if_pos hin])
    · rw [if_neg hin, if_neg hin]
      rcases h with h | ⟨i, hi, hia⟩
      · exact .inl h
      · rcases List.mem_cons.1 hi with rfl | hi
        · exact absurd hia hin
        · exact .inr ⟨i, hi, hia⟩

/-- The bytes of a tile row depend on the row's pixels alone. -/
theorem tileRow_congr {tile tile' : Vector Pixel 32} {g : Grid} {i clen : Nat}
    (h : ∀ j, j < clen → tileAt tile (g.bw * i + j) = tileAt tile' (g.bw * i + j)) :
    tileRow tile g i clen = tileRow tile' g i clen := by
  unfold tileRow
  simp only [List.flatMap_def]
  rw [List.map_congr_left fun j hj => by rw [h j (List.mem_range.1 hj)]]

/-- Equal tiles copied out by two states of one command: a byte agrees after if it agreed before or the block covers it (R128). -/
theorem read_storeTile_agree {f : Format} {u u' : State} (ha : u.arguments = u'.arguments) (hpc : u.pc = u'.pc)
    (hm : u.mem.wf) (hm' : u'.mem.wf) (hq : u.hostStores = []) (hq' : u'.hostStores = []) (hs : u.pc.s < (u.grid f).nbx)
    (htile : ∀ n, n < 4 * blockWidth f → tileAt u.tile n = tileAt u'.tile n) {a : Nat}
    (h : u.mem.read a = u'.mem.read a ∨ ∃ p ∈ u.blockStores f u.pc.s u.pc.t, p.1 ≤ a ∧ a < p.1 + p.2) :
    (storeTile (u.grid f) u).read a = (storeTile (u.grid f) u').read a := by
  have hwidth : u.width = u'.width := congrArg Arguments.width ha
  have hheight : u.height = u'.height := congrArg Arguments.height ha
  rw [storeTile_no_stores hq, storeTile_no_stores hq', ← dstBase_of_arguments ha, ← hwidth, ← hheight, ← hpc]
  refine read_foldl_rows_agree hm.1 hm'.1 (fun i hi => tileRow_congr fun j hj => htile _ ?_) ?_
  · have hj' : j < blockWidth f := lt_of_lt_of_le hj (clen_le hs).2.1
    have hi' : i < 4 := (Grid.mem_rows.1 hi).1
    have hmul : blockWidth f * i ≤ blockWidth f * 3 := Nat.mul_le_mul_left _ (by omega)
    show blockWidth f * i + j < _
    omega
  · refine h.imp_right fun ⟨p, hp, hpa⟩ => ?_
    obtain ⟨i, hi, rfl⟩ := List.mem_map.1 hp
    exact ⟨i, hi, by rwa [length_tileRow]⟩

/-! ### Two runs in step -/

/-- A running command over memory that answers, with no access of the host pending. -/
structure State.Alone (f : Format) (s : State) : Prop where
  running : s.Running f
  busy : s.st = .busy
  backed : s.backed f
  queue : s.hostQ = []

/-- Two states of one command, in step: the source bytes, the records already expanded and the output bytes already stored agree,
and no host store races. The tile, the palettes, the rest of the scratch and of memory may differ. -/
structure Matched (f : Format) (s s' : State) : Prop where
  args : s.arguments = s'.arguments
  pc : s.pc = s'.pc
  st : s.st = s'.st
  mem : s.mem.wf
  mem' : s'.mem.wf
  quiet : s.hostStores = []
  quiet' : s'.hostStores = []
  source : ∀ a, s.inSource f a = true → s.mem.read a = s'.mem.read a
  records : isPvrtc f = true → ∀ k, k < recordsWritten (s.grid f) s.pc →
    TexelInfo.ReadAlike s.is2 (texRead s.tex k) (texRead s'.tex k)
  output : s.pc.phase = .walk → ∀ a, s.Stored f s.pc a → s.mem.read a = s'.mem.read a
  finished : s.st = .done → s.pc.phase = .walk ∧ s.pc.t = (s.grid f).nby

/-- The EXPAND step of a command alone runs PVRTC.BLOCK (R222). -/
theorem State.Alone.expand_step {f : Format} {s : State} (h : s.Alone f) (hp : s.pc.phase = .expand) :
    ∃ ca cb m u, decode .pvrtc (s.fetchBytes (expandAddr s) 8) = .ok (.pvrtcBlock ca cb m) ∧
      exec (.pvrtcBlock ca cb m) s = .next u ∧ unitStep s = .next (finishExpand (s.grid f) u) := by
  obtain ⟨hpv, hk⟩ := (cursorOk_expand hp).1 h.running.cursor
  have hok := memAnswer_backed h.running.ranges h.running.apart h.backed (expandAccess_in hpv hk)
  exact ((Machine.expand_step h.running h.busy hp).resolve_left fun habs => nomatch hok.symm.trans habs.1).2

/-- The WALK step of a DXT or ETC command alone runs the rows of its block (R109). -/
theorem State.Alone.walk_step {f : Format} {s : State} (h : s.Alone f) (hp : s.pc.phase = .walk)
    (hf : isPvrtc f = false) :
    ∃ is u, decodeBlock f (s.fetchBytes (blockAddr (s.grid f) s) (s.grid f).bb) = .ok is ∧ runAll is s = .next u ∧
      EngineOnly s u ∧ unitStep s = .next (finishWalk (s.grid f) u) := by
  obtain ⟨hs, ht⟩ := (cursorOk_walk hp).1 h.running.cursor
  have hok := memAnswer_backed h.running.ranges h.running.apart h.backed (walkAccesses_in hs ht)
  exact ((Machine.walk_step h.running h.busy hp hf).resolve_left fun habs => nomatch hok.symm.trans habs.1).2

/-- The WALK step of a PVRTC command alone fills the tile from the scratch (R223). -/
theorem State.Alone.walk_step_pvrtc {f : Format} {s : State} (h : s.Alone f) (hp : s.pc.phase = .walk)
    (hf : isPvrtc f = true) : unitStep s = .next (finishWalk (s.grid f) (pvrtcTileState s.is2 (s.grid f) s)) := by
  obtain ⟨hs, -⟩ := (cursorOk_walk hp).1 h.running.cursor
  have hok := memAnswer_backed h.running.ranges h.running.apart h.backed (walkStores_in_buffers hs)
  exact ((Machine.walk_step_pvrtc h.running h.busy hp hf).resolve_left fun habs => nomatch hok.symm.trans habs.1).2

/-- Both units read the same bytes of the source (R51). -/
theorem Matched.fetchBytes_eq {f : Format} {s s' : State} (h : Matched f s s') {a n : Nat}
    (hin : s.srcBase ≤ a ∧ a + n ≤ s.srcBase + (s.grid f).need) : s.fetchBytes a n = s'.fetchBytes a n := by
  rw [fetchBytes_no_stores h.quiet, fetchBytes_no_stores h.quiet']
  refine Memory.readBytes_congr fun j hj => h.source _ ?_
  simp only [State.inSource, Bool.and_eq_true, decide_eq_true_eq]
  omega

/-- The rows of a block keep two states in step, as far as the records agree. -/
theorem Matched.rows {f : Format} {s s' u u' : State} (h : Matched f s s') (eu : EngineOnly s u) (eu' : EngineOnly s' u')
    (hrec : isPvrtc f = true → ∀ k, k < recordsWritten (s.grid f) s.pc →
      TexelInfo.ReadAlike s.is2 (texRead u.tex k) (texRead u'.tex k)) : Matched f u u' := by
  rw [eu, eu']
  exact ⟨h.args, h.pc, h.st, h.mem, h.mem', h.quiet, h.quiet', h.source, hrec, h.output, h.finished⟩

/-- The end of an EXPAND step keeps two states in step: the record at the cursor is one more (R222). -/
theorem Matched.finishExpand {f : Format} {u u' : State} (h : Matched f u u') (hp : u.pc.phase = .expand)
    (hb : u.st = .busy) (hk : u.pc.k < (u.grid f).count)
    (hrec : TexelInfo.ReadAlike u.is2 (texRead u.tex u.pc.k) (texRead u'.tex u.pc.k)) :
    Matched f (finishExpand (u.grid f) u) (finishExpand (u'.grid f) u') := by
  rw [← grid_of_arguments h.args f]
  refine ⟨h.args, congrArg (advanceExpand (u.grid f)) h.pc, h.st, h.mem, h.mem', h.quiet, h.quiet', h.source,
    fun hpv k hlt => ?_, fun hwalk a hst => ?_, fun hdone => ?_⟩
  · rcases Nat.eq_or_lt_of_le (le_of_lt_recordsWritten hk hlt) with rfl | hbefore
    · exact hrec
    · exact h.records hpv k (by simpa only [recordsWritten, hp] using hbefore)
  · have hfirst : (advanceExpand (u.grid f) u.pc).t = 0 ∧ (advanceExpand (u.grid f) u.pc).s = 0 := by
      unfold advanceExpand
      split <;> exact ⟨rfl, rfl⟩
    obtain ⟨x, y, -, hlt, -⟩ := hst
    simp only [finishExpand_pc, hfirst] at hlt
    omega
  · rw [finishExpand_st, hb] at hdone
    cases hdone

/-- The end of a WALK step keeps two states in step: the bytes the block at the cursor covers agree after it (R109, R128). -/
theorem Matched.finishWalk {f : Format} {u u' : State} (h : Matched f u u') (hp : u.pc.phase = .walk)
    (hb : u.st = .busy) (hs : u.pc.s < (u.grid f).nbx) (hwf : (storeTile (u.grid f) u).wf)
    (hwf' : (storeTile (u'.grid f) u').wf) (htile : ∀ n, n < 4 * blockWidth f → tileAt u.tile n = tileAt u'.tile n) :
    Matched f (finishWalk (u.grid f) u) (finishWalk (u'.grid f) u') := by
  have hagree : ∀ a, (u.mem.read a = u'.mem.read a ∨ ∃ p ∈ u.blockStores f u.pc.s u.pc.t, p.1 ≤ a ∧ a < p.1 + p.2) →
      (storeTile (u.grid f) u).read a = (storeTile (u.grid f) u').read a :=
    fun a => read_storeTile_agree h.args h.pc h.mem h.mem' h.quiet h.quiet' hs htile
  rw [← grid_of_arguments h.args f] at hwf' ⊢
  refine ⟨h.args, congrArg (advance (u.grid f)) h.pc, ?_, hwf, hwf', ?_, ?_, fun a ha => hagree a (.inl (h.source a ha)),
    fun hpv k hlt => h.records hpv k ?_, fun _ a hst => ?_, fun hdone => ⟨advance_phase .., ?_⟩⟩
  · rw [finishWalk_st, finishWalk_st, h.pc, h.st]
  · rw [finishWalk_hostStores, h.quiet, ite_self]
  · rw [finishWalk_hostStores, h.quiet', ite_self]
  · change k < recordsWritten (u.grid f) (advance (u.grid f) u.pc) at hlt
    simpa only [recordsWritten, hp, advance_phase] using hlt
  · rcases stored_advance (s := u) hs hst with hbefore | hin
    · exact hagree a (.inl (h.output hp a hbefore))
    · exact hagree a (.inr hin)
  · show (advance (u.grid f) u.pc).t = (u.grid f).nby
    rw [finishWalk_st, hb] at hdone
    by_contra hmore
    rw [if_neg hmore] at hdone
    cases hdone

/-! ### Two block-steps in step -/

section
variable {f : Format} {s s' : State} (h : Matched f s s') (hs : s.Alone f) (hs' : s'.Alone f)
include h hs hs'

/-- Two EXPAND steps in step (R222). -/
theorem Matched.expand (hp : s.pc.phase = .expand) :
    ∃ t t', unitStep s = .next t ∧ unitStep s' = .next t' ∧ Matched f t t' := by
  obtain ⟨hpv, hkc⟩ := (cursorOk_expand hp).1 hs.running.cursor
  obtain ⟨ca, cb, m, u, hd, hu, hst⟩ := hs.expand_step hp
  obtain ⟨ca', cb', m', u', hd', hu', hst'⟩ := hs'.expand_step (h.pc ▸ hp)
  have haddr : expandAddr s = expandAddr s' := by simp only [expandAddr, srcBase_of_arguments h.args, h.pc]
  rw [← haddr, ← h.fetchBytes_eq (expandAddr_in hpv hkc), hd] at hd'
  cases hd'
  obtain ⟨v, hv, eu, -, -, hj⟩ := pvrtcBlock_effect ca cb m s
  obtain ⟨v', hv', eu', -, -, hj'⟩ := pvrtcBlock_effect ca cb m s'
  obtain rfl : v = u := Host.Outcome.next.inj (hv.symm.trans hu)
  obtain rfl : v' = u' := Host.Outcome.next.inj (hv'.symm.trans hu')
  have hk := readAlike_pvrtcBlock (congrArg Arguments.cfg h.args) (congrArg Arguments.is2 h.args) hu hu'
  have hrows : Matched f v v' := h.rows eu eu' fun _ k hlt => by
    have hne : k ≠ s.pc.k := Nat.ne_of_lt (by simpa only [recordsWritten, hp] using hlt)
    rw [hj k hne, hj' k (h.pc ▸ hne)]
    exact h.records hpv k hlt
  refine ⟨_, _, hst, hst', ?_⟩
  rw [← grid_of_arguments eu.arguments_eq f, ← grid_of_arguments eu'.arguments_eq f]
  rw [← h.pc] at hk
  rw [eu] at hrows hk ⊢
  exact hrows.finishExpand hp hs.busy hkc hk

/-- Two WALK steps whose rows leave the same tile, in step. -/
theorem Matched.walk_rows {u u' : State} (hp : s.pc.phase = .walk) (eu : EngineOnly s u) (eu' : EngineOnly s' u')
    (htex : isPvrtc f = true → u.tex = s.tex ∧ u'.tex = s'.tex)
    (htile : ∀ n, n < 4 * blockWidth f → tileAt u.tile n = tileAt u'.tile n) :
    Matched f (Machine.finishWalk (s.grid f) u) (Machine.finishWalk (s'.grid f) u') := by
  obtain ⟨hcs, -⟩ := (cursorOk_walk hp).1 hs.running.cursor
  have hrows : Matched f u u' := h.rows eu eu' fun hpv k hlt => by
    rw [(htex hpv).1, (htex hpv).2]
    exact h.records hpv k hlt
  have hwf := wf_storeTile hs.running hp h.mem eu
  have hwf' := wf_storeTile hs'.running (h.pc ▸ hp) h.mem' eu'
  rw [← grid_of_arguments eu.arguments_eq f] at hwf ⊢
  rw [← grid_of_arguments eu'.arguments_eq f] at hwf' ⊢
  refine hrows.finishWalk (eu.pc_eq ▸ hp) ?_ ?_ hwf hwf' htile
  · rw [eu]
    exact hs.busy
  · rw [eu]
    exact hcs

/-- Two WALK steps of a DXT or ETC command in step (R109). -/
theorem Matched.walk_block (hp : s.pc.phase = .walk) (hf : isPvrtc f = false) :
    ∃ t t', unitStep s = .next t ∧ unitStep s' = .next t' ∧ Matched f t t' := by
  obtain ⟨hcs, hct⟩ := (cursorOk_walk hp).1 hs.running.cursor
  obtain ⟨is, u, hd, hu, eu, hst⟩ := hs.walk_step hp hf
  obtain ⟨is', u', hd', hu', eu', hst'⟩ := hs'.walk_step (h.pc ▸ hp) hf
  have hgrid := grid_of_arguments h.args f
  have haddr : blockAddr (s.grid f) s = blockAddr (s.grid f) s' := by
    simp only [blockAddr, srcBase_of_arguments h.args, h.pc]
  rw [← hgrid, ← haddr, ← h.fetchBytes_eq (blockAddr_in hcs hct), hd] at hd'
  cases hd'
  have hwidth : 4 * blockWidth f = 16 := by
    cases f with
    | pvrtc4 => cases hf
    | pvrtc2 => cases hf
    | _ => rfl
  refine ⟨_, _, hst, hst', h.walk_rows hs hs' hp eu eu' (fun hpv => by rw [hf] at hpv; cases hpv) ?_⟩
  rw [hwidth]
  exact rows_same_tile hf (length_fetchBytes ..) hd (congrArg Arguments.cfg h.args) hu hu'

/-- Two WALK steps of a PVRTC command in step (R223). -/
theorem Matched.walk_pvrtc (hp : s.pc.phase = .walk) (hf : isPvrtc f = true) :
    ∃ t t', unitStep s = .next t ∧ unitStep s' = .next t' ∧ Matched f t t' := by
  refine ⟨_, _, hs.walk_step_pvrtc hp hf, hs'.walk_step_pvrtc (h.pc ▸ hp) hf,
    h.walk_rows hs hs' hp (engineOnly_pvrtcTileState ..) (engineOnly_pvrtcTileState ..)
      (fun _ => ⟨pvrtcTileState_tex .., pvrtcTileState_tex ..⟩) fun n hn => ?_⟩
  obtain ⟨hx, hy⟩ := hs.running.grid hf
  have hrec := h.records hf
  have hexp := hs.running.records hf
  simp only [recordsWritten, hp] at hrec hexp
  have hcfg : s.cfg = s'.cfg := congrArg Arguments.cfg h.args
  have his2 : s.is2 = s'.is2 := congrArg Arguments.is2 h.args
  rw [← pvrtcWidth_of_format hs.running.selects hf] at hn
  rw [← his2, ← grid_of_arguments h.args f, tileAt_pvrtcTileState _ _ _ hn, tileAt_pvrtcTileState _ _ _ hn, ← hcfg, ← h.pc]
  refine pvrtcTile_congr (fun ay ax => ?_) ?_ hn
  · obtain ⟨k, hk, hread⟩ := neighbour_eq_texRead hx hy s.pc.s s.pc.t ay ax
    rw [hread, hread]
    exact hrec k hk
  · obtain ⟨k, hk, hread⟩ := neighbour_eq_texRead hx hy s.pc.s s.pc.t 1 1
    rw [hread]
    exact hexp k hk

/-- Two block-steps in step. -/
theorem Matched.step : ∃ t t', unitStep s = .next t ∧ unitStep s' = .next t' ∧ Matched f t t' := by
  cases hp : s.pc.phase with
  | expand => exact h.expand hs hs' hp
  | walk =>
    cases hf : isPvrtc f with
    | false => exact h.walk_block hs hs' hp hf
    | true => exact h.walk_pvrtc hs hs' hp hf

end

/-! ### Two runs to the end -/

/-- A command alone goes on alone with one block-step less to take, or is DONE after its last (R109, R315). -/
theorem State.Alone.progress {f : Format} {s t : State} (h : s.Alone f) (hst : unitStep s = .next t) :
    (blockStepsLeft (s.grid f) s.pc = 1 ∧ t.st = .done) ∨
      (t.Alone f ∧ blockStepsLeft (t.grid f) t.pc + 1 = blockStepsLeft (s.grid f) s.pc) := by
  obtain ⟨u, hu, hq, -, hback, hgrid, hcase⟩ := unitStep_progress h.running h.busy h.backed
  obtain rfl : u = t := Host.Outcome.next.inj (hu.symm.trans hst)
  rcases hcase with hlast | ⟨hrun, hbusy, hleft⟩
  · exact .inl hlast
  · exact .inr ⟨⟨hrun, hbusy, hback, hq.trans h.queue⟩, hgrid.symm ▸ hleft⟩

theorem State.Alone.blockStepsLeft_pos {f : Format} {s : State} (h : s.Alone f) :
    0 < blockStepsLeft (s.grid f) s.pc := by
  obtain ⟨t, ht, -, -, -, -, hcase⟩ := unitStep_progress h.running h.busy h.backed
  rcases hcase with ⟨hlast, -⟩ | ⟨-, -, hleft⟩ <;> omega

/-- Two commands in step end in step: DONE, and with the same bytes in the output range. -/
theorem Matched.run {f : Format} (n : Nat) : ∀ {s s' : State}, Matched f s s' → s.Alone f → s'.Alone f →
    blockStepsLeft (s.grid f) s.pc = n + 1 →
    ∃ t t', Sys2Proof.core.run (n + 1) s = .next t ∧ Sys2Proof.core.run (n + 1) s' = .next t' ∧
      ∀ a, s.inOutput a = true → t.mem.read a = t'.mem.read a := by
  induction n with
  | zero =>
    intro s s' h hs hs' hn
    obtain ⟨t, t', ht, ht', hm⟩ := h.step hs hs'
    have hdone : t.st = .done := by
      rcases hs.progress ht with ⟨-, hdone⟩ | ⟨halone, hleft⟩
      · exact hdone
      · have := halone.blockStepsLeft_pos
        omega
    obtain ⟨hwalk, hlast⟩ := hm.finished hdone
    refine ⟨t, t', run_succ ((step_idle_queue hs.queue).trans ht) 0, run_succ ((step_idle_queue hs'.queue).trans ht') 0,
      fun a ha => hm.output hwalk a (stored_of_inOutput hlast ?_)⟩
    exact (inOutput_of_arguments (arguments_unitStep ht) a).trans ha
  | succ n ih =>
    intro s s' h hs hs' hn
    obtain ⟨t, t', ht, ht', hm⟩ := h.step hs hs'
    have hgo : t.Alone f ∧ blockStepsLeft (t.grid f) t.pc = n + 1 := by
      rcases hs.progress ht with ⟨hleft, -⟩ | ⟨halone, hleft⟩
      · omega
      · exact ⟨halone, by omega⟩
    have hgo' : t'.Alone f := by
      rcases hs'.progress ht' with ⟨-, hdone⟩ | ⟨halone, -⟩
      · rw [← hm.st, hgo.1.busy] at hdone
        cases hdone
      · exact halone
    obtain ⟨v, v', hv, hv', hout⟩ := ih hm hgo.1 hgo' hgo.2
    refine ⟨v, v', (run_succ ((step_idle_queue hs.queue).trans ht) _).trans hv,
      (run_succ ((step_idle_queue hs'.queue).trans ht') _).trans hv', fun a ha => hout a ?_⟩
    exact (inOutput_of_arguments (arguments_unitStep ht) a).trans ha

/-- Settles O59: START puts the two states in step, each block-step keeps them in step, and at the end every byte of the output
range has been stored. -/
theorem outputDependsOnSourceOnly : Obligations.OutputDependsOnSourceOnly := by
  intro s s' f hl hl' hf hback hm hm' hq hq' hcfg hregs hsrc
  have hargs : s.arguments = s'.arguments := arguments_eq_iff.2 ⟨hregs, hcfg⟩
  obtain ⟨t, ht, rfl, hrun, hleft⟩ := step_start hl hf hq
  obtain ⟨t', ht', rfl, hrun', -⟩ := step_start hl' ((format_of_arguments hargs).symm.trans hf) hq'
  have hmatched : Matched f (acceptBusy (if isPvrtc f then .expand else .walk) { s with hostQ := [] })
      (acceptBusy (if isPvrtc f then .expand else .walk) { s' with hostQ := [] }) := by
    refine ⟨hargs, rfl, rfl, hm, hm', rfl, rfl, hsrc, fun hpv k hk => ?_, fun _ a hst => ?_, fun hdone => ?_⟩
    · simp only [acceptBusy_pc, hpv, if_true, recordsWritten] at hk
      exact absurd hk (Nat.not_lt_zero k)
    · obtain ⟨x, y, -, hlt, -⟩ := hst
      simp only [acceptBusy_pc] at hlt
      omega
    · cases hdone
  have halone := State.Alone.mk hrun rfl hback rfl
  have halone' := State.Alone.mk hrun' rfl (backed_of_arguments hargs f hback) rfl
  obtain ⟨n, hn⟩ := Nat.exists_eq_succ_of_ne_zero (Nat.ne_of_gt halone.blockStepsLeft_pos)
  obtain ⟨v, v', hv, hv', hout⟩ := hmatched.run n halone halone' hn
  rw [show blockSteps f s = n + 1 from hleft.symm.trans hn, Nat.add_comm]
  exact ⟨v, v', (run_succ ht _).trans hv, (run_succ ht' _).trans hv', hout⟩

end Sys2Proof.Machine
end

section
/-! PROOFS. The decoder: it is total on words of the right length, sound, and reads a register word least significant byte first. -/

namespace Sys2Proof.Machine

open Sys2Proof Sys2Proof.Claim

/-- A selector without an engine is 0 or 8 and above (R71, R73). -/
theorem formatOf_eq_none {v : BitVec 8} {is2 : Bool} (h : formatOf v is2 = none) : v = 0 ∨ 8 ≤ v.toNat := by
  unfold formatOf at h
  split at h
  case h_7 => split at h <;> cases h
  case h_8 h1 h2 h3 h4 h5 h6 h7 =>
    by_cases h0 : v.toNat = 0
    · exact .inl (BitVec.eq_of_toNat_eq h0)
    · right
      simp only [imp_false] at h1 h2 h3 h4 h5 h6 h7
      omega
  all_goals cases h

theorem wf_decodeCommand (v : BitVec 9) : (decodeCommand v).wf = true := by
  unfold decodeCommand
  split
  case h_9 h => simpa [Instr.wf] using formatOf_eq_none h
  all_goals rfl

theorem wf_decodeDxt1Word (d : BitVec 64) : (decodeDxt1Word d).wf = true := by
  unfold decodeDxt1Word
  split
  · exact decide_eq_true ‹_›
  · exact decide_eq_true (Nat.le_of_not_lt ‹_›)

theorem wf_decodeDxt5AlphaWord (a : BitVec 64) : (decodeDxt5AlphaWord a).wf = true := by
  unfold decodeDxt5AlphaWord
  split
  · exact decide_eq_true ‹_›
  · exact decide_eq_true (Nat.le_of_not_lt ‹_›)

theorem wf_decodeEtcColourWord (etc2 : Bool) (w : BitVec 64) : (decodeEtcColourWord etc2 w).wf = true := by
  unfold decodeEtcColourWord
  split <;> rfl

/-- What the decoder answers is well-formed (R84). -/
theorem wf_of_decode {k : WordKind} {bs : List Byte} {i : Instr} (h : decode k bs = .ok i) : i.wf = true := by
  unfold decode at h
  split at h
  case isFalse => cases h
  cases k with
  | ctrl =>
    rcases decodeCtrl_cases (BitVec.ofNat 32 (WordKind.ctrl.assemble bs)) with ⟨c, hd⟩ | hd | hd <;>
      cases hd.symm.trans h <;> rfl
  | command => cases h; exact wf_decodeCommand _
  | dxt1 => cases h; exact wf_decodeDxt1Word _
  | dxt5Alpha => cases h; exact wf_decodeDxt5AlphaWord _
  | etcColour etc2 => cases h; exact wf_decodeEtcColourWord etc2 _
  | colourA => cases h; unfold decodeColourAWord; split <;> rfl
  | colourB => cases h; unfold decodeColourBWord; split <;> rfl
  | modulation is2 mflag => cases h; cases is2 <;> cases mflag <;> rfl
  | dxt5Colour => cases h; rfl
  | eacAlpha => cases h; rfl
  | etc2a1 => cases h; rfl
  | etc2a8 => cases h; rfl
  | pvrtc => cases h; rfl

/-- A CTRL value is read least significant byte first (log 26). -/
theorem decode_ctrl {bs : List Byte} (h : bs.length = 4) : decode .ctrl bs = decodeCtrl (BitVec.ofNat 32 (leNat bs)) :=
  decode_of_length h

/-- A CTRL value carries no strobe exactly when its bits 1 and 0 are 0 (R21). -/
theorem decodeCtrl_eq_noStrobe_iff {v : Word} : decodeCtrl v = .error .noStrobe ↔ v.toNat % 4 = 0 := by
  have h0 : v.getLsbD 0 = decide (v.toNat % 2 = 1) := Nat.testBit_zero _
  have h1 : v.getLsbD 1 = decide (v.toNat / 2 % 2 = 1) := by
    rw [BitVec.getLsbD, Nat.testBit_succ, Nat.testBit_zero]
  unfold decodeCtrl
  rw [h0, h1]
  by_cases hstart : v.toNat % 2 = 1
  · simp only [hstart, decide_true, if_true, reduceCtorEq, false_iff]
    omega
  · by_cases hclear : v.toNat / 2 % 2 = 1
    · simp only [hstart, hclear, decide_true, decide_false, if_true, Bool.false_eq_true, if_false, reduceCtorEq, false_iff]
      omega
    · simp only [hstart, hclear, decide_false, Bool.false_eq_true, if_false, true_iff]
      omega

/-- The low two bits of a CTRL value are those of its first byte. -/
theorem ctrl_mod_four (bs : List Byte) : (BitVec.ofNat 32 (leNat bs)).toNat % 4 = byte bs 0 % 4 := by
  rw [BitVec.toNat_ofNat]
  cases bs with
  | nil => rfl
  | cons b bs =>
    show (b.toNat + 256 * leNat bs) % 2 ^ 32 % 4 = b.toNat % 4
    omega

/-- Settles O2: an answer is well-formed kind by kind, and CTRL alone refuses words of its length, by the low two bits. -/
theorem decoderTotalAndSound : Obligations.DecoderTotalAndSound := by
  intro k bs
  refine ⟨fun i => wf_of_decode, fun h => if_neg h, fun h hk => decode_total hk h, ?_, ?_⟩
  · rintro h rfl hz
    rw [decode_ctrl h, decodeCtrl_eq_noStrobe_iff, ctrl_mod_four, hz]
  · rintro h rfl hz
    rw [decode_ctrl h]
    rcases decodeCtrl_cases (BitVec.ofNat 32 (leNat bs)) with ⟨c, hd⟩ | hd | hd
    · exact ⟨_, hd⟩
    · exact ⟨_, hd⟩
    · rw [decodeCtrl_eq_noStrobe_iff, ctrl_mod_four] at hd
      exact absurd hd hz

/-- Settles O3: the twelve words, by evaluating the decoder on each. -/
theorem exampleWords : Obligations.ExampleWords := by
  unfold Obligations.ExampleWords
  decide

end Sys2Proof.Machine
end

section
/-! PROOFS. The register window: what reads, writes and reset answer (R20 to R28, R36, R300). -/

namespace Sys2Proof.Machine

open Sys2Proof

/-! ### Reads -/

/-- STATE in bits 1:0 and ERR in bits 7:4 (R22). -/
theorem toNat_statusWord (s : State) : (statusWord s).toNat = s.st.code.toNat + 16 * s.err.code.toNat := by
  have h : ∀ (c : BitVec 2) (e : BitVec 4), (0#24 ++ e ++ 0#2 ++ c).toNat = c.toNat + 16 * e.toNat := by decide
  exact h _ _

/-- Settles O12: a read takes the value and nothing more; a POLL is the unit's step while BUSY, and a read of STATUS otherwise. -/
theorem registerReads : Obligations.RegisterReads := by
  refine ⟨fun s i q hq => ⟨step_access hq (.inl (by simp)), rfl, ?_⟩, fun s q hq => ⟨fun hb => ?_, fun hb => ?_⟩⟩
  · refine (toNat_statusWord s).trans ?_
    cases s.st <;> cases s.err <;> rfl
  · exact step_access hq (.inr hb)
  · exact step_poll_busy hq hb

/-! ### Writes -/

/-- FORMAT stores bits 8:0 (R23). -/
theorem formatWord_eq_and (v : Word) : 0#23 ++ BitVec.ofBool (v.getLsbD 8) ++ v.extractLsb 7 0 = v &&& 0x1FF#32 := by
  have hmask : ∀ i : Fin 32, (0x1FF#32).getLsbD i = decide (i.val < 9) := by decide
  refine BitVec.eq_of_getLsbD_eq fun i hi => ?_
  rw [BitVec.getLsbD_and, hmask ⟨i, hi⟩]
  grind

/-- DST_BASE stores bits 31:2 (R26). -/
theorem dstWord_eq_and (v : Word) : v.extractLsb 31 2 ++ 0#2 = v &&& 0xFFFFFFFC#32 := by
  have hmask : ∀ i : Fin 32, (0xFFFFFFFC#32).getLsbD i = decide (2 ≤ i.val) := by decide
  refine BitVec.eq_of_getLsbD_eq fun i hi => ?_
  rw [BitVec.getLsbD_and, hmask ⟨i, hi⟩]
  grind

/-- WIDTH and HEIGHT store bits 15:0 (R27). -/
theorem dimensionWord_eq_and (v : Word) : (v.extractLsb 15 0).setWidth 32 = v &&& 0xFFFF#32 := by
  have hmask : ∀ i : Fin 32, (0xFFFF#32).getLsbD i = decide (i.val < 16) := by decide
  refine BitVec.eq_of_getLsbD_eq fun i hi => ?_
  rw [BitVec.getLsbD_and, hmask ⟨i, hi⟩]
  grind

/-- A register reads as the stored bits of what was written to it (R22 to R27). -/
theorem readReg_writeReg_same {s : State} {i : Fin 8} (v : Word) (hb : s.st ≠ .busy) (hi : i ≠ 0) :
    readReg (writeReg i v s) i =
      (if i = 1 then readReg s 1
        else if i = 2 then v &&& 0x1FF#32
        else if i = 3 ∨ i = 4 then v
        else if i = 5 then v &&& 0xFFFFFFFC#32
        else v &&& 0xFFFF#32) := by
  unfold writeReg
  rw [if_neg hb]
  match i, hi with
  | 1, _ => rfl
  | 2, _ => exact formatWord_eq_and v
  | 3, _ => rfl
  | 4, _ => rfl
  | 5, _ => exact dstWord_eq_and v
  | 6, _ => exact dimensionWord_eq_and v
  | 7, _ => exact dimensionWord_eq_and v

/-- A write leaves every other register: over the pairs of registers, no arm of the write touches a field of another. -/
theorem readReg_writeReg_other {i j : Fin 8} (v : Word) (s : State) (h : j ≠ i) :
    readReg (writeReg i v s) j = readReg s j := by
  unfold writeReg
  split
  · rfl
  · fin_cases i <;> fin_cases j <;> first | exact absurd rfl h | rfl

/-- Settles O11: the write is `writeReg`, which stores the bits of one register and leaves the rest of the state. -/
theorem registerWrites : Obligations.RegisterWrites := by
  intro s i v q hq hi hb
  have hstep : step s = .next (writeReg i v { s with hostQ := q }) := by
    rw [step_access hq (.inl (by simp))]
    exact if_neg hi
  have hframe := (writeReg_frame i v { s with hostQ := q }).2
  refine ⟨_, hstep, ?_, readReg_writeReg_same v hb hi, fun j hj => readReg_writeReg_other v _ hj, hframe⟩
  rw [hframe]

/-! ### Reset -/

/-- Every register reads after a reset what it reads in the reset state (R36, R300). -/
theorem readReg_resetUnit (s : State) (i : Fin 8) : readReg (resetUnit s) i = readReg State.reset i := rfl

/-- Settles O10: reset gives every register its reset value, and leaves every byte no running command owned. -/
theorem resetRegisters : Obligations.ResetRegisters := by
  have hzero : ∀ i, readReg State.reset i = 0 := by decide
  refine ⟨hzero, rfl, rfl, fun s q hq => ⟨resetUnit { s with hostQ := q }, ?_, fun i => ?_, ?_, ?_, ?_, fun a ha => ?_⟩⟩
  · exact step_access hq (.inl (by simp))
  · rw [readReg_resetUnit, hzero]
  · exact resetUnit_st _
  · exact resetUnit_err _
  · exact resetUnit_hostQ _
  · rw [resetUnit_mem]
    exact read_abandonOutput (s := { s with hostQ := q }) ha

end Sys2Proof.Machine
end

section
/-! PROOFS. What a step runs: the instruction in a CTRL write, or the block-step of the unit (R21, R109, R110, R222, R223). -/

namespace Sys2Proof.Machine

open Sys2Proof Sys2Proof.Claim

/-- A write to CTRL executes the strobe its value carries (R21). -/
theorem step_writeCtrl {s : State} {v : Word} {q : List HostOp} (hq : s.hostQ = .wr 0 v :: q) :
    step s = writeCtrl v { s with hostQ := q } := step_access hq (.inl (by simp))

/-- The bytes of a CTRL value decode to the strobe of the value (log 26). -/
theorem decode_ctrl_leBytes (v : Word) : decode .ctrl (leBytes 4 v.toNat) = decodeCtrl v := by
  have hv : v.toNat % 256 ^ 4 = v.toNat := Nat.mod_eq_of_lt v.isLt
  rw [decode_ctrl (length_leBytes ..), leNat_leBytes, hv, BitVec.ofNat_toNat, BitVec.setWidth_eq]

/-- Where the unit moves the step is the unit's (log 9, log 22). -/
theorem step_of_unitMoves {s u : State} (h : UnitMoves s u) : step s = unitStep u := by
  rcases h with ⟨hq, rfl⟩ | ⟨q, hq, rfl⟩ | ⟨q, hq, hb, rfl⟩
  · exact step_idle_queue hq
  · exact step_access hq (.inl (by simp))
  · exact step_poll_busy hq hb

/-- Where no memory answers, a block-step leaves the state as it is (U13, log 14). -/
theorem guarded_absent {s : State} {accs : List (Nat × Nat)} {body : Result} (h : memAnswer s.cfg accs = .absent) :
    guarded s accs body = .next s := by simp [guarded, h]

/-- Settles O50: the CTRL write is `writeCtrl` and the unit's move is `unitStep`, each read off case by case. -/
theorem stepRunsDecodedInstruction : Obligations.StepRunsDecodedInstruction := by
  refine ⟨fun s v q i hq hd => ?_, fun s v q hq hv => ?_, fun s u f hm hb hf hpv hp hs ht => ?_,
    fun s u f hm hb hf hpv hp hk => ?_, fun s u f hm hb hf hpv hp hs ht => ?_, fun s u hm hb => ?_⟩
  · rw [decode_ctrl_leBytes] at hd
    rw [step_writeCtrl hq, writeCtrl, hd]
  · rw [step_writeCtrl hq, writeCtrl, decodeCtrl_eq_noStrobe_iff.2 hv]
  · have hstep : step s = walkBlock f u := by
      rw [step_of_unitMoves hm, unitStep_walk hb hf ((cursorOk_walk hp).2 ⟨hs, ht⟩) hp, hpv, if_neg Bool.false_ne_true]
    rw [hstep]
    exact ⟨fun is hok hd => (guarded_ok hok).trans (by rw [hd]), guarded_absent⟩
  · have hstep : step s = expandBlock f u := by
      rw [step_of_unitMoves hm, unitStep_expand hb hf ((cursorOk_expand hp).2 ⟨hpv, hk⟩) hp]
    rw [hstep]
    refine ⟨fun i hok hd => (guarded_ok hok).trans ?_, guarded_absent⟩
    obtain ⟨ca, cb, m, hd', hblock⟩ := decodeBlock_pvrtc (bs := u.fetchBytes (expandAddr u) 8) hpv (length_fetchBytes ..)
    obtain rfl : i = .pvrtcBlock ca cb m := Except.ok.inj (hd.symm.trans hd')
    obtain ⟨v, hv, -⟩ := pvrtcBlock_effect ca cb m u
    simp only [hblock, runAll, hv, andThen_next]
  · have hstep : step s = walkPvrtc f u := by
      rw [step_of_unitMoves hm, unitStep_walk hb hf ((cursorOk_walk hp).2 ⟨hs, ht⟩) hp, hpv, if_pos rfl]
    rw [hstep]
    exact ⟨guarded_ok, guarded_absent⟩
  · rw [step_of_unitMoves hm, unitStep_not_busy hb]

end Sys2Proof.Machine
end

section
/-! PROOFS. What stops a step: nothing from a state with the invariant but a refusal, and the launches START refuses (R50, R57, R63,
R109, R270). -/

namespace Sys2Proof.Machine

open Sys2Proof

/-! ### No fault -/

/-- A running command's block-step ends in a next state, whether memory answers it or not (R109, R222, R223). -/
theorem State.Running.unitStep_eq_next {f : Format} {s : State} (h : s.Running f) (hb : s.st = .busy) :
    ∃ t, unitStep s = .next t := by
  cases hp : s.pc.phase with
  | expand =>
    rcases expand_step h hb hp with ⟨-, hst⟩ | ⟨_, _, _, _, _, _, _, hst⟩ <;> exact ⟨_, hst⟩
  | walk =>
    cases hf : isPvrtc f with
    | true => rcases walk_step_pvrtc h hb hp hf with ⟨-, hst⟩ | ⟨-, hst⟩ <;> exact ⟨_, hst⟩
    | false => rcases walk_step h hb hp hf with ⟨-, hst⟩ | ⟨_, _, _, _, _, _, hst⟩ <;> exact ⟨_, hst⟩

theorem unitStep_ne_fault {s : State} (h : s.Inv) (r : Fault) : unitStep s ≠ .fault r := by
  by_cases hb : s.st = .busy
  · obtain ⟨f, hf⟩ := h.running hb
    obtain ⟨t, ht⟩ := hf.unitStep_eq_next hb
    simp [ht]
  · simp [unitStep_not_busy hb]

theorem execClear_ne_fault (s : State) (r : Fault) : execClear s ≠ .fault r := by
  unfold execClear
  split <;> simp

theorem writeCtrl_ne_fault (v : Word) (s : State) (r : Fault) : writeCtrl v s ≠ .fault r := by
  unfold writeCtrl
  rcases decodeCtrl_cases v with ⟨c, hd⟩ | hd | hd <;> rw [hd]
  · exact accept_stop.1 r
  · exact execClear_ne_fault s r
  · simp

theorem atMemory_ne_fault (a : Word) (s t : State) (r : Fault) : atMemory a s t ≠ .fault r := by
  unfold atMemory
  split <;> simp

/-- No access of the host faults, the `wait` that gives the unit its step included. -/
theorem hostAccess_ne_fault {s : State} (h : s.Inv) (op : HostOp) (r : Fault) : hostAccess op s ≠ .fault r := by
  cases op with
  | wr i v =>
    show hostWrite i v s ≠ _
    unfold hostWrite
    split
    · exact writeCtrl_ne_fault v s r
    · simp
  | wait => exact unitStep_ne_fault h r
  | store a b => exact atMemory_ne_fault a s _ r
  | load a => exact atMemory_ne_fault a s _ r
  | rd i => simp [hostAccess]
  | poll => simp [hostAccess]
  | reset => simp [hostAccess]

/-- Settles O55: the invariant gives a BUSY unit a running command, whose block-steps go on, and no access of the host faults. -/
theorem noFault : Obligations.NoFault := by
  intro s h r
  rcases step_cases s with hs | hs | ⟨op, q, hs⟩ <;> rw [hs]
  · exact unitStep_ne_fault h r
  · exact unitStep_ne_fault (h.of_hostOnly (hostOnly_hostRead 1 s) h.memory) r
  · exact hostAccess_ne_fault (h.of_hostOnly (hostOnly_queue q s) h.memory) op r

/-! ### Refused launches -/

theorem State.inSource_eq_true {f : Format} {s : State} {a : Nat} :
    s.inSource f a = true ↔ s.srcBase ≤ a ∧ a < s.srcBase + (s.grid f).need := by simp [State.inSource]

theorem State.inOutput_eq_true {s : State} {a : Nat} :
    s.inOutput a = true ↔ s.dstBase ≤ a ∧ a < s.dstBase + s.dstLen := by simp [State.inOutput]

/-- A START whose checks pass is the launch of its command (R100). -/
theorem exec_start_launch {f : Format} {s : State} (c : Bool) (hb : s.st ≠ .busy) (hf : s.format = some f)
    (hc : startCheck f s = none) : exec (.start c) s = launch f s := by
  show accept s.format s = _
  rw [hf, accept, if_neg hb]
  simp only [hc]

/-- Settles O21: with its checks passed START is the launch, which looks for a device first and for an overlap next. -/
theorem launchRefusals : Obligations.LaunchRefusals := by
  intro s f c hb hf hpos hranges hgrid hlong hscratch
  rw [exec_start_launch c hb hf ((startCheck_eq_none hpos).2 ⟨hranges, hgrid, hlong, hscratch⟩), launch,
    if_neg (Nat.ne_of_gt hpos)]
  refine ⟨fun hdev => if_pos hdev, fun hdev ⟨a, hsrc, hdst⟩ => ?_⟩
  have hoverlap : overlaps s.srcBase (s.grid f).need s.dstBase s.dstLen = true :=
    overlaps_eq_true.2 ⟨a, State.inSource_eq_true.1 hsrc, State.inOutput_eq_true.1 hdst⟩
  rw [hdev, if_neg Bool.false_ne_true, if_pos hoverlap]

end Sys2Proof.Machine
end

section
/-! PROOFS. The host's loads and stores of memory: where memory answers, what a race can leave, what the unit reads (R58, R60 to R62,
R305). -/

namespace Sys2Proof.Machine

open Sys2Proof Sys2Proof.Claim

/-! ### Where memory answers -/

/-- The platform answers an access to one byte exactly where it has ordinary memory (R58, log 2). -/
theorem memAnswer_byte {s : State} {a : Word} : memAnswer s.cfg [(a.toNat, 1)] = .ok ↔ Ordinary s a.toNat := by
  have ha := a.isLt
  have hmeets : ∀ kind, meetsRegion s.cfg kind [(a.toNat, 1)] = false ↔
      ∀ r ∈ s.cfg.memMap, r.kind = kind → ¬(r.base ≤ a.toNat ∧ a.toNat < r.base + r.size) := by
    intro kind
    rw [meetsRegion_eq_false]
    simp only [List.mem_singleton, forall_eq, overlaps_eq_false]
    refine forall_congr' fun r => forall_congr' fun _ => forall_congr' fun _ => ?_
    omega
  rw [memAnswer_ok, hmeets, hmeets]
  constructor
  · rintro ⟨-, hdevice, habsent⟩ r hr
    cases hk : r.kind with
    | device => exact hdevice r hr hk
    | absent => exact habsent r hr hk
  · intro h
    refine ⟨?_, fun r hr _ => h r hr, fun r hr _ => h r hr⟩
    simp only [List.mem_singleton, forall_eq]
    omega

theorem atMemory_ordinary {a : Word} {s : State} (t : State) (h : Ordinary s a.toNat) : atMemory a s t = .next t := by
  rw [atMemory, memAnswer_byte.2 h]

theorem atMemory_not_ordinary {a : Word} {s : State} (t : State) (h : ¬ Ordinary s a.toNat) :
    atMemory a s t = .refused .hostOutsideMemory := by
  unfold atMemory
  split
  · rename_i hok
    exact absurd (memAnswer_byte.1 hok) h
  all_goals rfl

theorem step_store {s : State} {a : Word} {b : Byte} {q : List HostOp} (hq : s.hostQ = .store a b :: q) :
    step s = atMemory a { s with hostQ := q } (storeState a.toNat b { s with hostQ := q }) :=
  step_access hq (.inl (by simp))

theorem step_load {s : State} {a : Word} {q : List HostOp} (hq : s.hostQ = .load a :: q) :
    step s = atMemory a { s with hostQ := q } (loadState a.toNat { s with hostQ := q }) :=
  step_access hq (.inl (by simp))

/-! ### What a store and a load do -/

theorem outputLocked_eq_true {s : State} {a : Nat} : outputLocked s a = true ↔ s.st = .busy ∧ s.inOutput a = true := by
  simp [outputLocked]

theorem sourceLocked_eq_true {s : State} {a : Nat} :
    sourceLocked s a = true ↔ s.st = .busy ∧ ∃ f, s.format = some f ∧ s.inSource f a = true := by
  unfold sourceLocked
  cases s.format <;> simp

/-- A byte the host may touch is in no buffer of a running command (R61). -/
theorem untouched_iff {s : State} {a : Nat} : Untouched s a ↔ outputLocked s a ≠ true ∧ sourceLocked s a ≠ true := by
  rw [Ne, Ne, outputLocked_eq_true, sourceLocked_eq_true]
  constructor
  · intro h
    refine ⟨fun ⟨hb, ho⟩ => ?_, fun ⟨hb, f, hf, hi⟩ => ?_⟩
    · simp [(h hb).1] at ho
    · simp [(h hb).2 f hf] at hi
  · rintro ⟨hout, hsrc⟩ hb
    refine ⟨?_, fun f hf => ?_⟩
    · simpa [hb] using hout
    · simpa [hb, hf] using hsrc

theorem storeState_untouched {s : State} {a : Nat} (b : Byte) (h : Untouched s a) :
    storeState a b s = { s with mem := s.mem.write a b } := by
  obtain ⟨hout, hsrc⟩ := untouched_iff.1 h
  rw [storeState, if_neg hout, if_neg hsrc]

theorem storeState_source {f : Format} {s : State} {a : Nat} (b : Byte) (hb : s.st = .busy) (hf : s.format = some f)
    (hin : s.inSource f a = true) (hout : s.inOutput a = false) :
    storeState a b s = { s with mem := s.mem.write a b, hostStores := (a, b) :: s.hostStores } := by
  have hunlocked : outputLocked s a ≠ true := by simp [outputLocked, hout]
  rw [storeState, if_neg hunlocked, if_pos (sourceLocked_eq_true.2 ⟨hb, f, hf, hin⟩)]

theorem storeState_output {s : State} {a : Nat} (b : Byte) (hb : s.st = .busy) (hout : s.inOutput a = true) :
    storeState a b s = { s with
      mem := s.mem.raceWrite s.choices a b, hostStores := (a, b) :: s.hostStores, choices := s.choices + 1 } := by
  rw [storeState, if_pos (outputLocked_eq_true.2 ⟨hb, hout⟩)]

/-- A raced store is gone or stays (R62). -/
theorem raceWrite_cases (m : Memory) (n a : Nat) (b : Byte) : m.raceWrite n a b = m ∨ m.raceWrite n a b = m.write a b := by
  unfold Memory.raceWrite
  split
  · exact .inr rfl
  · exact .inl rfl

theorem loadState_unlocked {s : State} {a : Nat} (h : s.st = .busy → s.inOutput a = false) :
    loadState a s = { s with rdata := (s.mem.read a).setWidth 32 } := by
  refine if_neg fun hl => ?_
  obtain ⟨hb, ho⟩ := outputLocked_eq_true.1 hl
  simp [h hb] at ho

theorem loadState_output {s : State} {a : Nat} (hb : s.st = .busy) (hout : s.inOutput a = true) :
    loadState a s = { s with rdata := (freePick s.choices (s.seen a)).setWidth 32, choices := s.choices + 1 } :=
  if_pos (outputLocked_eq_true.2 ⟨hb, hout⟩)

/-- A free pick among the values seen is the old one or a new one (R62, U1). -/
theorem oldOrNew_freePick (s : State) (n a : Nat) : OldOrNew s a (freePick n (s.seen a)) :=
  State.mem_seen.1 (freePick_mem n (s.seen_ne_nil a))

/-! ### What the unit reads -/

theorem getD_fetchBytes (s : State) (a : Nat) {n j : Nat} (hj : j < n) :
    (s.fetchBytes a n).getD j 0 = s.fetchByte (s.choices + j) (a + j) := by
  simp [State.fetchBytes, hj]

theorem fetchByte_not_raced {s : State} (n : Nat) {a : Nat} (h : s.raced a = false) : s.fetchByte n a = s.mem.read a := by
  rw [State.fetchByte, h, if_neg Bool.false_ne_true]

theorem oldOrNew_fetchByte (s : State) (n a : Nat) : OldOrNew s a (s.fetchByte n a) := by
  rcases fetchByte_cases s n a with ⟨-, h⟩ | ⟨-, h⟩
  · exact .inl h
  · exact State.mem_seen.1 h

/-- Settles O22: the platform answers one byte exactly at ordinary memory, and there the access is one arm of the store or of the
load; what the unit reads of a byte is one of the values seen there. -/
theorem hostAccesses : Obligations.HostAccesses := by
  refine ⟨fun s a b q hq => ⟨fun ho => ?_, fun ho => ?_⟩, fun s a q hq => ⟨fun ho => ?_, fun ho => ?_⟩,
    fun s a n j hj => ⟨length_fetchBytes .., ?_, fun hne => ?_⟩⟩
  · rw [step_store hq, atMemory_ordinary (s := { s with hostQ := q }) _ ho]
    refine ⟨fun hu => ?_, fun f hb hf hin hout => ?_, fun hb hout => ⟨_, raceWrite_cases s.mem s.choices a.toNat b, ?_⟩⟩
    · rw [storeState_untouched (s := { s with hostQ := q }) b hu]
    · rw [storeState_source (s := { s with hostQ := q }) b hb hf hin hout]
    · rw [storeState_output (s := { s with hostQ := q }) b hb hout]
  · rw [step_store hq, atMemory_not_ordinary (s := { s with hostQ := q }) _ ho]
  · rw [step_load hq, atMemory_ordinary (s := { s with hostQ := q }) _ ho]
    refine ⟨fun hu => ?_, fun hb hout => ⟨_, oldOrNew_freePick s s.choices a.toNat, ?_⟩⟩
    · rw [loadState_unlocked (s := { s with hostQ := q }) hu]
    · exact congrArg _ (loadState_output (s := { s with hostQ := q }) hb hout)
  · rw [step_load hq, atMemory_not_ordinary (s := { s with hostQ := q }) _ ho]
  · rw [getD_fetchBytes s a hj]
    exact oldOrNew_fetchByte s _ _
  · rw [getD_fetchBytes s a hj]
    exact fetchByte_not_raced _ (State.raced_eq_false.2 hne)

end Sys2Proof.Machine
end

section
/-! PROOFS. The walker: the tiles partition the output image, and a WALK step stores the tile at its place and nothing else (R52,
R125 to R129). -/

namespace Sys2Proof.Machine

open Sys2Proof

/-! ### The block of a pixel -/

theorem mem_rows_gridOf {f : Format} {w h t i : Nat} : i ∈ (gridOf f w h).rows h t ↔ i < 4 ∧ 4 * t + i < h := Grid.mem_rows

theorem outRow_gridOf (f : Format) (w h t i : Nat) : (gridOf f w h).outRow h t i = h - 1 - (4 * t + i) := rfl

/-- The tile row that an output row comes from is copied (R125, R126). -/
theorem mem_rows_of_row {f : Format} {w h y : Nat} (hy : y < h) :
    (h - 1 - y) % 4 ∈ (gridOf f w h).rows h ((h - 1 - y) / 4) := by
  rw [mem_rows_gridOf]
  omega

/-- It goes back to that output row: the vertical flip undone (R125). -/
theorem outRow_of_row {f : Format} {w h y : Nat} (hy : y < h) :
    (gridOf f w h).outRow h ((h - 1 - y) / 4) ((h - 1 - y) % 4) = y := by
  rw [outRow_gridOf]
  omega

/-- The tile row is the remainder, and the block row the quotient, of the flipped output row (R125, R129). -/
theorem row_of_outRow {f : Format} {w h t i : Nat} (hi : i ∈ (gridOf f w h).rows h t) :
    t = (h - 1 - (gridOf f w h).outRow h t i) / 4 ∧ i = (h - 1 - (gridOf f w h).outRow h t i) % 4 := by
  rw [mem_rows_gridOf] at hi
  rw [outRow_gridOf]
  omega

/-- The block column is the quotient, and the tile column the remainder, of the output column (R121, R129). -/
theorem column_of_lt_clen {f : Format} {w h s j : Nat} (hs : s < (gridOf f w h).nbx) (hj : j < (gridOf f w h).clen s) :
    s = (blockWidth f * s + j) / blockWidth f ∧ j = (blockWidth f * s + j) % blockWidth f := by
  have hlt : j < blockWidth f := lt_of_lt_of_le hj (clen_le hs).2.1
  rw [Nat.mul_add_div (blockWidth_pos f), Nat.mul_add_mod, Nat.div_eq_of_lt hlt, Nat.mod_eq_of_lt hlt]
  exact ⟨rfl, rfl⟩

/-- Settles O49: quotients and remainders of the column and of the flipped row name the block and the tile entry. -/
theorem outputPartition : Obligations.OutputPartition := by
  intro f w h x y hx hy g Covers
  refine ⟨⟨div_lt_ceilDiv (blockWidth_pos f) hx, div_lt_ceilDiv (b := 4) (by decide) (by omega), mem_rows_of_row hy,
    mod_lt_clen hx, outRow_of_row hy, Nat.div_add_mod ..⟩, ?_⟩
  rintro s t i j ⟨hs, -, hi, hj, rfl, rfl⟩
  obtain ⟨ht, hi'⟩ := row_of_outRow hi
  obtain ⟨hs', hj'⟩ := column_of_lt_clen hs hj
  exact ⟨hs', ht, hi', hj'⟩

/-! ### The stores of a WALK step -/

/-- Over memory that answers, a WALK step runs rows, copies the tile out and advances (R109, R223). -/
theorem walk_step_backed {f : Format} {s t : State} (h : s.Running f) (hb : s.st = .busy) (hp : s.pc.phase = .walk)
    (hk : s.backed f) (hst : unitStep s = .next t) : ∃ u, EngineOnly s u ∧ t = finishWalk (s.grid f) u := by
  obtain ⟨t', ht', -, -, -, -, hcase⟩ := unitStep_progress h hb hk
  obtain rfl : t' = t := Host.Outcome.next.inj (ht'.symm.trans hst)
  rcases unitStep_cases hst with rfl | ⟨f', u, -, hf, eu, ⟨hp', -⟩ | ⟨-, -, ht⟩⟩
  · rcases hcase with ⟨-, hdone⟩ | ⟨-, -, hleft⟩
    · rw [hb] at hdone
      cases hdone
    · omega
  · rw [hp] at hp'
    cases hp'
  · obtain rfl : f' = f := Option.some.inj (hf.symm.trans h.selects)
    exact ⟨u, eu, ht⟩

theorem pairwise_copyOut {g : Grid} {dst w h s t : Nat} {tile : Vector Pixel 32} {m : Memory}
    (hm : m.Pairwise (fun c d => c.1 < d.1)) : (copyOut g dst w h s t tile m).Pairwise (fun c d => c.1 < d.1) := by
  unfold copyOut
  induction g.rows h t generalizing m with
  | nil => exact hm
  | cons r rows ih => exact ih (Memory.pairwise_writeBytes hm _ _)

section
variable {f : Format} {s u : State} (hm : s.mem.wf) (eu : EngineOnly s u)
include hm eu

/-- An in-bounds pixel of the tile after the copy-out: the tile's bytes, or a byte the host stored there during the command
(R127, R128, log 13). -/
theorem read_storeTile_pixel (hs : s.pc.s < (s.grid f).nbx) {i j c : Nat} (hi : i ∈ (s.grid f).rows s.height.toNat s.pc.t)
    (hj : j < (s.grid f).clen s.pc.s) (hc : c < 4) :
    let x := (s.grid f).rowAddr s.dstBase s.width.toNat s.height.toNat s.pc.s s.pc.t i + 4 * j + c
    (storeTile (s.grid f) u).read x = (tileAt u.tile ((s.grid f).bw * i + j)).bytes.getD c 0 ∨
      (x, (storeTile (s.grid f) u).read x) ∈ s.hostStores := by
  intro x
  have hpix := read_copyOut_pixel (dst := s.dstBase) (tile := u.tile) hm.1 hs hi hj hc
  rw [← Nat.add_assoc] at hpix
  rw [eu]
  exact (read_settle (pairwise_copyOut hm.1) _ _ _ x).imp (·.trans hpix) And.left

/-- Every byte outside the runs of the copy-out is as before it (R128). -/
theorem read_storeTile_other {a : Nat} (ha : ∀ p, p ∈ walkStores (s.grid f) s → a < p.1 ∨ p.1 + p.2 ≤ a) :
    (storeTile (s.grid f) u).read a = s.mem.read a := by
  rw [eu]
  rcases read_settle (pairwise_copyOut hm.1) (walkStores (s.grid f) s) _ s.hostStores a with h | ⟨-, p, hp, hpa⟩
  · exact h.trans (read_copyOut_other hm.1 ha)
  · have := ha p hp
    omega

end

/-- Settles O52: the step is a copy-out whose raced bytes are settled, and no step of the unit writes an argument register. -/
theorem walkStores_effect : Obligations.WalkStores := by
  intro s t f h hb hp hm hk hst
  obtain ⟨u, eu, rfl⟩ := walk_step_backed h hb hp hk hst
  obtain ⟨hs, -⟩ := (cursorOk_walk hp).1 h.cursor
  refine ⟨fun i hi j hj c hc => read_storeTile_pixel hm eu hs hi hj hc, fun a ha => read_storeTile_other hm eu ha,
    fun r hr => ?_⟩
  by_cases h0 : r = 0
  · subst h0
    rfl
  · exact (arguments_eq_iff.1 (arguments_unitStep hst)).1 r (by omega)

end Sys2Proof.Machine
end

section
/-! PROOFS. The net effect of a command: an invariant of its block-steps says what memory and the scratch hold at every cursor, and
at DONE it is the whole output image (R56, R110, R129, R221 to R223, R234). -/

namespace Sys2Proof.Machine

open Sys2Proof

/-! ### Pixels and their bytes -/

theorem blockWidth_of_not_pvrtc {f : Format} (hf : isPvrtc f = false) : blockWidth f = 4 := by
  cases f with
  | pvrtc4 => cases hf
  | pvrtc2 => cases hf
  | _ => rfl

/-- The address of the output pixel in column `x` of row `y` (R129). -/
def State.pixelAddr (s : State) (x y : Nat) : Nat := s.dstBase + 4 * (y * s.width.toNat + x)

/-- The block row of an output row (R125). -/
def State.blockRow (s : State) (y : Nat) : Nat := (s.height.toNat - 1 - y) / 4

/-- The raster index of an output pixel in the tile of its block (R129). -/
def State.tileIndex (f : Format) (s : State) (x y : Nat) : Nat :=
  blockWidth f * ((s.height.toNat - 1 - y) % 4) + x % blockWidth f

theorem tileIndex_lt (f : Format) (s : State) (x y : Nat) : s.tileIndex f x y < 4 * blockWidth f := by
  have hcol := Nat.mod_lt x (blockWidth_pos f)
  have hrow : blockWidth f * ((s.height.toNat - 1 - y) % 4) ≤ blockWidth f * 3 := Nat.mul_le_mul_left _ (by omega)
  unfold State.tileIndex
  omega

/-- MemRead answers the bytes of a pixel when each of the four addresses does (R51, R56). -/
theorem readBytes_eq_pixel {m : Memory} {a : Nat} {p : Pixel} (h : ∀ c, c < 4 → m.read (a + c) = p.bytes.getD c 0) :
    m.readBytes a 4 = p.bytes := by
  refine List.ext_getElem (by simp) fun c hc hc' => ?_
  rw [Memory.getElem_readBytes, h c (by simpa using hc), List.getD_eq_getElem _ _ hc']

/-- A tile row is stored at the output pixel of its first entry (R127). -/
theorem rowAddr_eq_pixelAddr (f : Format) (s : State) (x y i : Nat) :
    (s.grid f).rowAddr s.dstBase s.width.toNat s.height.toNat x y i =
      s.pixelAddr (blockWidth f * x) ((s.grid f).outRow s.height.toNat y i) := rfl

/-- The entry of an output pixel is stored where the pixel is (R127, R129). -/
theorem rowAddr_pixel (f : Format) {s : State} (x : Nat) {y : Nat} (hy : y < s.height.toNat) :
    (s.grid f).rowAddr s.dstBase s.width.toNat s.height.toNat (x / blockWidth f) (s.blockRow y)
      ((s.height.toNat - 1 - y) % 4) + 4 * (x % blockWidth f) = s.pixelAddr x y := by
  have hrow : (s.grid f).outRow s.height.toNat (s.blockRow y) ((s.height.toNat - 1 - y) % 4) = y := outRow_of_row hy
  have hcol := Nat.div_add_mod x (blockWidth f)
  rw [rowAddr_eq_pixelAddr, hrow]
  unfold State.pixelAddr
  omega

/-- A row-major index names one row and one column. -/
theorem rowMajor_unique {w x x' y y' : Nat} (hx : x < w) (hx' : x' < w) (h : y * w + x = y' * w + x') : y = y' ∧ x = x' := by
  have hdiv : ∀ {z v : Nat}, z < w → (v * w + z) / w = v := fun hz => by
    rw [Nat.add_comm, Nat.add_mul_div_right _ _ (Nat.zero_lt_of_lt hz), Nat.div_eq_of_lt hz, Nat.zero_add]
  obtain rfl : y = y' := (hdiv hx).symm.trans (h ▸ hdiv hx')
  exact ⟨rfl, Nat.add_left_cancel h⟩

/-- The copy-out at the cursor covers a byte of an output pixel only if the pixel's block is the cursor's (R53, R129). -/
theorem block_of_covered {f : Format} {s : State} (hs : s.pc.s < (s.grid f).nbx) {x y c : Nat} (hx : x < s.width.toNat)
    (hc : c < 4) {p : Nat × Nat} (hp : p ∈ walkStores (s.grid f) s)
    (hcov : p.1 ≤ s.pixelAddr x y + c ∧ s.pixelAddr x y + c < p.1 + p.2) :
    x / blockWidth f = s.pc.s ∧ s.blockRow y = s.pc.t := by
  obtain ⟨i, hi, rfl⟩ := List.mem_map.1 hp
  have hclen : blockWidth f * s.pc.s + (s.grid f).clen s.pc.s ≤ s.width.toNat := (clen_le hs).1
  have hrow : s.pc.t = s.blockRow ((s.grid f).outRow s.height.toNat s.pc.t i) := (row_of_outRow hi).1
  rw [rowAddr_eq_pixelAddr] at hcov
  generalize (s.grid f).outRow s.height.toNat s.pc.t i = row at hrow hcov
  unfold State.pixelAddr at hcov
  obtain ⟨j, hj⟩ : ∃ j, y * s.width.toNat + x = row * s.width.toNat + (blockWidth f * s.pc.s + j) :=
    ⟨y * s.width.toNat + x - (row * s.width.toNat + blockWidth f * s.pc.s), by omega⟩
  have hjlt : j < (s.grid f).clen s.pc.s := by omega
  obtain ⟨rfl, rfl⟩ := rowMajor_unique hx (by omega) hj
  exact ⟨(column_of_lt_clen hs hjlt).1.symm, hrow.symm⟩

/-! ### What the arguments place -/

section
variable {s s' : State} (h : s.arguments = s'.arguments)
include h

theorem width_of_arguments : s.width = s'.width := congrArg Arguments.width h

theorem height_of_arguments : s.height = s'.height := congrArg Arguments.height h

theorem pixelAddr_of_arguments : s.pixelAddr = s'.pixelAddr := by
  unfold State.pixelAddr
  rw [dstBase_of_arguments h, width_of_arguments h]

theorem blockRow_of_arguments : s.blockRow = s'.blockRow := by
  unfold State.blockRow
  rw [height_of_arguments h]

theorem tileIndex_of_arguments (f : Format) : s.tileIndex f = s'.tileIndex f := by
  unfold State.tileIndex
  rw [height_of_arguments h]

end

/-! ### What a command computes -/

/-- Entry `n` of the tile of block `(x, y)`: by the block function of the format from the source bytes, or for PVRTC by the engine
from the scratch (R109, R223). -/
def State.blockTile (f : Format) (s : State) (tex : List TexelInfo) (x y n : Nat) : Option Pixel :=
  if isPvrtc f then some (pvrtcTile s.cfg s.is2 (neighbour tex (s.grid f).nbx (s.grid f).nby x y) n)
  else blockPixel s.cfg f
    (s.mem.readBytes (s.srcBase + (y * (s.grid f).nbx + x) * blockBytes f) (blockBytes f)) n

/-- The record is what PVRTC.BLOCK leaves for block `k` of the source (R222). -/
def State.RecordOf (s : State) (k : Nat) (r : TexelInfo) : Prop :=
  (∃ i u v, decode .pvrtc (s.mem.readBytes (s.srcBase + 8 * k) 8) = .ok i ∧ u.cfg = s.cfg ∧ u.is2 = s.is2 ∧ u.pc.k = k ∧
    exec i u = .next v ∧ texRead v.tex k = r) ∧ r.Expanded s.is2

/-- The block `(x, y)` comes before the cursor, row-major (R123). -/
def Cursor.Past (c : Cursor) (x y : Nat) : Prop := y < c.t ∨ y = c.t ∧ x < c.s

/-- In `t` the output pixel holds the bytes of its entry in the tile of its block, as the command started in `s` computes it
(R129). -/
def State.PixelDone (f : Format) (s t : State) (x y : Nat) : Prop :=
  ∃ p, s.blockTile f t.tex (x / blockWidth f) (s.blockRow y) (s.tileIndex f x y) = some p ∧
    t.mem.readBytes (s.pixelAddr x y) 4 = p.bytes

/-- What a command started in `s` has done when the machine stands at `t`: the records and the pixels of the blocks before the
cursor are as they will stay, and nothing outside the output range has changed. -/
structure CommandEffect (f : Format) (s t : State) : Prop where
  args : t.arguments = s.arguments
  err : t.err = .none
  mem : t.mem.wf
  quiet : t.hostStores = []
  outside : ∀ a, s.inOutput a = false → t.mem.read a = s.mem.read a
  records : isPvrtc f = true → ∀ k, k < recordsWritten (s.grid f) t.pc → s.RecordOf k (texRead t.tex k)
  pixels : t.pc.phase = .walk → ∀ x y, x < s.width.toNat → y < s.height.toNat →
    t.pc.Past (x / blockWidth f) (s.blockRow y) → s.PixelDone f t x y
  finished : t.st = .done → t.pc.phase = .walk ∧ t.pc.t = (s.grid f).nby

theorem not_past_first {c : Cursor} (ht : c.t = 0) (hs : c.s = 0) {x y : Nat} : ¬ c.Past x y := by
  unfold Cursor.Past
  omega

/-- The advance passes the block at the cursor (R123). -/
theorem past_advance {g : Grid} {c : Cursor} {x y : Nat} (hx : x < g.nbx) (h : (advance g c).Past x y) :
    c.Past x y ∨ (x = c.s ∧ y = c.t) := by
  unfold advance at h
  unfold Cursor.Past at *
  split at h <;> simp only at h <;> omega

/-- The scratch matters to a PVRTC tile alone. -/
theorem blockTile_congr {f : Format} (s : State) {tex tex' : List TexelInfo} (h : isPvrtc f = true → tex = tex')
    (x y n : Nat) : s.blockTile f tex x y n = s.blockTile f tex' x y n := by
  unfold State.blockTile
  split
  · rw [h (by assumption)]
  · rfl

/-- START of a launchable command has done nothing yet (R100). -/
theorem commandEffect_start {f : Format} {s : State} (q : List HostOp) (hm : s.mem.wf) :
    CommandEffect f s (acceptBusy (if isPvrtc f then .expand else .walk) { s with hostQ := q }) where
  args := rfl
  err := rfl
  mem := hm
  quiet := rfl
  outside _ _ := rfl
  records hpv k hk := by
    simp only [acceptBusy_pc, hpv, if_true, recordsWritten] at hk
    exact absurd hk (Nat.not_lt_zero k)
  pixels _ x y _ _ hpast := by
    exact absurd hpast (not_past_first rfl rfl)
  finished hdone := by cases hdone

/-- A source byte of a launchable command is no output byte (R63). -/
theorem inOutput_of_inSource {f : Format} {s : State} {a : Nat} (h : s.buffersApart f) (ha : s.inSource f a = true) :
    s.inOutput a = false := by
  rw [← Bool.not_eq_true]
  intro ho
  have hover := overlaps_eq_true.2 ⟨a, State.inSource_eq_true.1 ha, State.inOutput_eq_true.1 ho⟩
  rw [h.1] at hover
  cases hover

section
variable {f : Format} {s t : State} (h : CommandEffect f s t) (ha : t.Alone f)
include h ha

/-- The source is still as it was at START (R63). -/
theorem CommandEffect.readBytes_eq {a n : Nat} (hin : t.srcBase ≤ a ∧ a + n ≤ t.srcBase + (t.grid f).need) :
    t.mem.readBytes a n = s.mem.readBytes a n := by
  refine Memory.readBytes_congr fun j hj => h.outside _ ?_
  rw [← inOutput_of_arguments h.args]
  exact inOutput_of_inSource ha.running.apart (State.inSource_eq_true.2 (by omega))

/-- An EXPAND step adds the record at the cursor (R222). -/
theorem CommandEffect.expand (hp : t.pc.phase = .expand) : ∃ v, unitStep t = .next v ∧ CommandEffect f s v := by
  obtain ⟨hpv, hkc⟩ := (cursorOk_expand hp).1 ha.running.cursor
  obtain ⟨ca, cb, m, u, hd, hu, hst⟩ := ha.expand_step hp
  obtain ⟨u', hu', eu, -, hexp, hj⟩ := pvrtcBlock_effect ca cb m t
  obtain rfl : u' = u := Host.Outcome.next.inj (hu'.symm.trans hu)
  have hsrc := srcBase_of_arguments h.args
  have his2 : t.is2 = s.is2 := congrArg Arguments.is2 h.args
  have hrec : s.RecordOf t.pc.k (texRead u'.tex t.pc.k) := by
    rw [fetchBytes_no_stores h.quiet, h.readBytes_eq ha (expandAddr_in hpv hkc), expandAddr, hsrc] at hd
    exact ⟨⟨_, t, u', hd, congrArg Arguments.cfg h.args, his2, rfl, hu, rfl⟩, his2 ▸ hexp⟩
  refine ⟨_, hst, ?_⟩
  rw [eu, grid_of_arguments h.args]
  rw [grid_of_arguments h.args] at hkc
  refine ⟨h.args, h.err, h.mem, h.quiet, h.outside, fun _ k hlt => ?_, fun _ x y _ _ hpast => ?_, fun hdone => ?_⟩
  · show s.RecordOf k (texRead u'.tex k)
    rcases Nat.eq_or_lt_of_le (le_of_lt_recordsWritten hkc hlt) with rfl | hbefore
    · exact hrec
    · rw [hj k (Nat.ne_of_lt hbefore)]
      exact h.records hpv k (by simpa only [recordsWritten, hp] using hbefore)
  · have hfirst : (advanceExpand (s.grid f) t.pc).t = 0 ∧ (advanceExpand (s.grid f) t.pc).s = 0 := by
      unfold advanceExpand
      split <;> exact ⟨rfl, rfl⟩
    exact absurd hpast (not_past_first hfirst.1 hfirst.2)
  · rw [finishExpand_st, ha.busy] at hdone
    cases hdone

end

/-- The tile of a WALK step is that of the block at the cursor, and a PVRTC step leaves the scratch (R109, R223). -/
theorem State.Alone.walk_tile {f : Format} {s t : State} (h : s.Alone f) (hp : s.pc.phase = .walk) (hq : s.hostStores = [])
    (hst : unitStep s = .next t) :
    (isPvrtc f = true → t.tex = s.tex) ∧
      ∀ n, n < 4 * blockWidth f → s.blockTile f s.tex s.pc.s s.pc.t n = some (tileAt t.tile n) := by
  cases hf : isPvrtc f with
  | true =>
    obtain rfl : _ = t := Host.Outcome.next.inj ((h.walk_step_pvrtc hp hf).symm.trans hst)
    refine ⟨fun _ => pvrtcTileState_tex .., fun n hn => ?_⟩
    rw [← pvrtcWidth_of_format h.running.selects hf] at hn
    rw [finishWalk_tile, tileAt_pvrtcTileState _ _ _ hn, State.blockTile, if_pos hf]
  | false =>
    obtain ⟨is, u, hd, hu, -, hst'⟩ := h.walk_step hp hf
    obtain rfl : _ = t := Host.Outcome.next.inj (hst'.symm.trans hst)
    refine ⟨nofun, fun n hn => ?_⟩
    rw [fetchBytes_no_stores hq] at hd
    obtain ⟨is', u', hd', hu', hpix⟩ := rows_compute_block s hf (Memory.length_readBytes s.mem _ _)
    obtain rfl : is' = is := Except.ok.inj (hd'.symm.trans hd)
    obtain rfl : u' = u := Host.Outcome.next.inj (hu'.symm.trans hu)
    rw [blockWidth_of_not_pvrtc hf] at hn
    rw [State.blockTile, hf, if_neg Bool.false_ne_true]
    exact hpix n hn

/-! ### A WALK step, pixel by pixel -/

theorem not_past_self (c : Cursor) : ¬ c.Past c.s c.t := by
  unfold Cursor.Past
  omega

section
variable {f : Format} {s t : State} (h : s.Alone f) (hp : s.pc.phase = .walk) (hm : s.mem.wf) (hst : unitStep s = .next t)
include h hp hm hst

/-- A pixel whose block comes before the cursor keeps its bytes in a WALK step (R53). -/
theorem pixel_kept {x y : Nat} (hx : x < s.width.toNat) (hpast : s.pc.Past (x / blockWidth f) (s.blockRow y)) :
    t.mem.readBytes (s.pixelAddr x y) 4 = s.mem.readBytes (s.pixelAddr x y) 4 := by
  obtain ⟨hs, -⟩ := (cursorOk_walk hp).1 h.running.cursor
  obtain ⟨-, hother, -⟩ := walkStores_effect s t f h.running h.busy hp hm h.backed hst
  refine Memory.readBytes_congr fun c hc => hother _ fun p hpm => ?_
  by_contra hcov
  obtain ⟨hcol, hrow⟩ := block_of_covered (y := y) hs hx hc hpm (by omega)
  rw [hcol, hrow] at hpast
  exact not_past_self _ hpast

/-- A pixel of the block at the cursor gets the bytes of its tile entry in a WALK step (R128, R129). -/
theorem pixel_stored (hq : s.hostStores = []) {x y : Nat} (hx : x < s.width.toNat) (hy : y < s.height.toNat)
    (hcol : x / blockWidth f = s.pc.s) (hrow : s.blockRow y = s.pc.t) :
    t.mem.readBytes (s.pixelAddr x y) 4 = (tileAt t.tile (s.tileIndex f x y)).bytes := by
  obtain ⟨hpix, -⟩ := walkStores_effect s t f h.running h.busy hp hm h.backed hst
  have hin : (s.height.toNat - 1 - y) % 4 ∈ (s.grid f).rows s.height.toNat (s.blockRow y) := mem_rows_of_row hy
  have hclen : x % blockWidth f < (s.grid f).clen (x / blockWidth f) := mod_lt_clen hx
  rw [hrow] at hin
  rw [hcol] at hclen
  refine readBytes_eq_pixel fun c hc => ?_
  have hbyte := hpix _ hin _ hclen c hc
  rw [← hcol, ← hrow, rowAddr_pixel f x hy, hq] at hbyte
  exact hbyte.resolve_right List.not_mem_nil

end

section
variable {f : Format} {s t : State} (h : CommandEffect f s t) (ha : t.Alone f)
include h ha

/-- The block function reads at the cursor the source as it was at START. -/
theorem CommandEffect.blockTile_eq (hp : t.pc.phase = .walk) (n : Nat) :
    s.blockTile f t.tex t.pc.s t.pc.t n = t.blockTile f t.tex t.pc.s t.pc.t n := by
  obtain ⟨hs, ht⟩ := (cursorOk_walk hp).1 ha.running.cursor
  have hread := h.readBytes_eq ha (blockAddr_in hs ht)
  have hcfg : t.cfg = s.cfg := congrArg Arguments.cfg h.args
  have his2 : t.is2 = s.is2 := congrArg Arguments.is2 h.args
  change t.mem.readBytes (t.srcBase + (t.pc.t * (t.grid f).nbx + t.pc.s) * blockBytes f) (blockBytes f) = _ at hread
  unfold State.blockTile
  rw [hread, hcfg, his2]
  simp only [blockAddr, srcBase_of_arguments h.args, grid_of_arguments h.args]
  rfl

/-- After a WALK step the pixels of the blocks up to the cursor's are done: those before it are kept, its own are stored. -/
theorem CommandEffect.pixelDone_walk (hp : t.pc.phase = .walk) {v : State} (hst : unitStep t = .next v) {x y : Nat}
    (hx : x < s.width.toNat) (hy : y < s.height.toNat)
    (hpast : (advance (t.grid f) t.pc).Past (x / blockWidth f) (s.blockRow y)) : s.PixelDone f v x y := by
  obtain ⟨htex, htile⟩ := ha.walk_tile hp h.quiet hst
  have hwidth := width_of_arguments h.args
  have hheight := height_of_arguments h.args
  have haddr := pixelAddr_of_arguments h.args
  have hblock := blockRow_of_arguments h.args
  have hcol : x / blockWidth f < (t.grid f).nbx := div_lt_ceilDiv (blockWidth_pos f) (hwidth ▸ hx)
  rw [State.PixelDone, blockTile_congr s htex]
  rcases past_advance hcol hpast with hbefore | ⟨hcur, hrow⟩
  · have hkept := pixel_kept ha hp h.mem hst (hwidth ▸ hx) (hblock ▸ hbefore)
    rw [← haddr, hkept, haddr]
    exact h.pixels hp x y hx hy hbefore
  · have hstored := pixel_stored ha hp h.mem hst h.quiet (hwidth ▸ hx) (hheight ▸ hy) hcur (hblock ▸ hrow)
    refine ⟨_, ?_, haddr ▸ hstored⟩
    rw [hcur, hrow, h.blockTile_eq ha hp, ← tileIndex_of_arguments h.args, htile _ (tileIndex_lt f t x y)]

/-- A WALK step adds the pixels of the block at the cursor (R109, R128, R223). -/
theorem CommandEffect.walk (hp : t.pc.phase = .walk) : ∃ v, unitStep t = .next v ∧ CommandEffect f s v := by
  obtain ⟨v, hst⟩ := ha.running.unitStep_eq_next ha.busy
  refine ⟨v, hst, ?_⟩
  obtain ⟨hs, -⟩ := (cursorOk_walk hp).1 ha.running.cursor
  obtain ⟨htex, -⟩ := ha.walk_tile hp h.quiet hst
  obtain ⟨-, hother, -⟩ := walkStores_effect t v f ha.running ha.busy hp h.mem ha.backed hst
  obtain ⟨u, eu, rfl⟩ := walk_step_backed ha.running ha.busy hp ha.backed hst
  have hus : u.st = .busy := by rw [eu]; exact ha.busy
  have huq : u.hostStores = [] := by rw [eu]; exact h.quiet
  have hue : u.err = .none := by rw [eu]; exact h.err
  refine ⟨(arguments_unitStep hst).trans h.args, hue, wf_storeTile ha.running hp h.mem eu, ?_, fun a hout => ?_,
    fun hpv k hlt => ?_, fun _ x y hx hy hpast => ?_, fun hdone => ⟨advance_phase .., ?_⟩⟩
  · rw [finishWalk_hostStores, huq, ite_self]
  · refine (hother a fun p hpm => ?_).trans (h.outside a hout)
    have hin := walkStores_in hs hpm
    rw [← inOutput_of_arguments h.args, ← Bool.not_eq_true, State.inOutput_eq_true] at hout
    omega
  · rw [htex hpv]
    refine h.records hpv k ?_
    simpa only [recordsWritten, hp, finishWalk_pc, advance_phase] using hlt
  · rw [finishWalk_pc, eu.pc_eq] at hpast
    exact h.pixelDone_walk ha hp hst hx hy hpast
  · rw [← grid_of_arguments h.args, finishWalk_pc]
    rw [finishWalk_st, hus] at hdone
    by_contra hmore
    rw [if_neg hmore] at hdone
    cases hdone

/-- A block-step adds its part (R7). -/
theorem CommandEffect.step : ∃ v, unitStep t = .next v ∧ CommandEffect f s v := by
  cases hp : t.pc.phase with
  | expand => exact h.expand ha hp
  | walk => exact h.walk ha hp

end

/-! ### A whole command -/

/-- A command alone with `n + 1` block-steps to take is DONE after them, with its whole effect (R110, R315). -/
theorem CommandEffect.run {f : Format} {s : State} (n : Nat) : ∀ {t : State}, CommandEffect f s t → t.Alone f →
    blockStepsLeft (t.grid f) t.pc = n + 1 →
    ∃ v, Sys2Proof.core.run (n + 1) t = .next v ∧ v.st = .done ∧ CommandEffect f s v := by
  induction n with
  | zero =>
    intro t h ha hn
    obtain ⟨v, hv, heff⟩ := h.step ha
    refine ⟨v, run_succ ((step_idle_queue ha.queue).trans hv) 0, ?_, heff⟩
    rcases ha.progress hv with ⟨-, hdone⟩ | ⟨halone, hleft⟩
    · exact hdone
    · have := halone.blockStepsLeft_pos
      omega
  | succ n ih =>
    intro t h ha hn
    obtain ⟨v, hv, heff⟩ := h.step ha
    rcases ha.progress hv with ⟨hleft, -⟩ | ⟨halone, hleft⟩
    · omega
    · obtain ⟨w, hw, hdone⟩ := ih heff halone (by omega)
      exact ⟨w, (run_succ ((step_idle_queue ha.queue).trans hv) _).trans hw, hdone⟩

/-- START and the block-steps of a launchable command leave its whole effect (R100, R110). -/
theorem commandEffect_run {f : Format} {s : State} (hl : s.Launchable f) (hf : s.format = some f) (hback : s.backed f)
    (hm : s.mem.wf) (hq : s.hostQ = [.wr 0 1]) :
    ∃ t, Sys2Proof.core.run (1 + blockSteps f s) s = .next t ∧ t.st = .done ∧ CommandEffect f s t := by
  obtain ⟨t, ht, rfl, hrun, hleft⟩ := step_start hl hf hq
  have halone := State.Alone.mk hrun rfl hback rfl
  obtain ⟨n, hn⟩ := Nat.exists_eq_succ_of_ne_zero (Nat.ne_of_gt halone.blockStepsLeft_pos)
  obtain ⟨v, hv, hdone⟩ := (commandEffect_start [] hm).run n halone hn
  rw [show blockSteps f s = n + 1 from hleft.symm.trans hn, Nat.add_comm]
  exact ⟨v, (run_succ ht _).trans hv, hdone⟩

/-- At DONE every pixel of the output is that of its block (R110, R129). -/
theorem CommandEffect.pixel_of_done {f : Format} {s t : State} (h : CommandEffect f s t) (hdone : t.st = .done) {x y : Nat}
    (hx : x < s.width.toNat) (hy : y < s.height.toNat) : s.PixelDone f t x y := by
  obtain ⟨hwalk, hlast⟩ := h.finished hdone
  have hrow : s.blockRow y < (s.grid f).nby := div_lt_ceilDiv (b := 4) (by decide) (by omega)
  exact h.pixels hwalk x y hx hy (.inl (hlast ▸ hrow))

/-- Settles O57: at DONE the pixels are those of the block function. -/
theorem commandNetEffect : Obligations.CommandNetEffect := by
  intro s f hl hf hpv hback hm hq
  obtain ⟨t, hrun, hdone, h⟩ := commandEffect_run hl hf hback hm hq
  refine ⟨t, hrun, hdone, h.err, fun x y hx hy => ?_, h.outside, (arguments_eq_iff.1 h.args).1⟩
  obtain ⟨p, hp, hbytes⟩ := h.pixel_of_done hdone hx hy
  rw [State.blockTile, hpv, if_neg Bool.false_ne_true, State.tileIndex, blockWidth_of_not_pvrtc hpv] at hp
  exact ⟨p, hp, hbytes⟩

/-- Settles O58: at DONE the records are those of PVRTC.BLOCK and the pixels those of the engine over them. -/
theorem pvrtcNetEffect : Obligations.PvrtcNetEffect := by
  intro s f hl hf hpv hback hm hq
  obtain ⟨t, hrun, hdone, h⟩ := commandEffect_run hl hf hback hm hq
  obtain ⟨hwalk, -⟩ := h.finished hdone
  refine ⟨t, hrun, hdone, h.err, fun k hk => h.records hpv k ?_, fun x y hx hy => ?_, h.outside,
    (arguments_eq_iff.1 h.args).1⟩
  · rwa [recordsWritten, hwalk]
  · obtain ⟨p, hp, hbytes⟩ := h.pixel_of_done hdone hx hy
    have hcol := Nat.mod_lt x (blockWidth_pos f)
    rw [State.blockTile, if_pos hpv, pvrtcTile, pvrtcWidth_of_format hf hpv, State.tileIndex, Nat.mul_add_mod,
      Nat.mod_mod, Nat.mul_add_div (blockWidth_pos f), Nat.div_eq_of_lt hcol] at hp
    obtain rfl := Option.some.inj hp
    exact hbytes

end Sys2Proof.Machine
end

section
/-! PROOFS. The encoder against the decoder: each word's fields read back, the modes the ignored bits choose, and the round
trip of every instruction (R71 to R86; log 30). -/

namespace Sys2Proof.Machine

open Sys2Proof Sys2Proof.Laws
open BitVec (extractLsb extractLsb'_append_eq_of_le extractLsb'_append_eq_of_add_le extractLsb'_append_eq_left
  extractLsb'_append_eq_right extractLsb'_append_extractLsb' extractLsb'_eq_self getLsbD_append getLsbD_extractLsb)

theorem decode_encode (i : Instr) : decode i.kind (encode i) = decodeWord i.kind (encodeWord i) := by
  obtain ⟨hlen, hword⟩ := EncodeLength.of_lt i (encodeWord_lt i)
  rw [decode_of_length hlen, hword]

/-! ### Command words -/

theorem commandWord_fmt (fmt : BitVec 8) (is2 : Bool) : (commandWord fmt is2).extractLsb 7 0 = fmt :=
  extractLsb'_append_eq_right

theorem commandWord_is2 (fmt : BitVec 8) (is2 : Bool) : (commandWord fmt is2).getLsbD 8 = is2 := by
  simp only [commandWord, getLsbD_append]
  simp

/-- The selectors without an engine (R73). -/
theorem formatOf_reserved {fmt : BitVec 8} (is2 : Bool) (h : fmt = 0 ∨ 8 ≤ fmt.toNat) : formatOf fmt is2 = none := by
  unfold formatOf
  split
  case h_8 => rfl
  all_goals
    rcases h with rfl | h
    · contradiction
    · omega

theorem decodeCommand_of_formatOf_eq_none {v : BitVec 9} (h : formatOf (v.extractLsb 7 0) (v.getLsbD 8) = none) :
    decodeCommand v = .reservedFmt (v.extractLsb 7 0) (v.getLsbD 8) := by
  rw [decodeCommand, h]

theorem decodeCommand_reserved {fmt : BitVec 8} (is2 : Bool) (h : fmt = 0 ∨ 8 ≤ fmt.toNat) :
    decodeCommand (commandWord fmt is2) = .reservedFmt fmt is2 := by
  have hnone := formatOf_reserved is2 h
  rw [decodeCommand_of_formatOf_eq_none] <;> rw [commandWord_fmt, commandWord_is2]
  exact hnone

/-! ### Words whose fields lie side by side -/

theorem dxtColourOf_dxtColourWord (b : DxtColour) : dxtColourOf (dxtColourWord b) = b := by
  simp (disch := decide) only [dxtColourOf, dxtColourWord, extractLsb, extractLsb'_append_eq_of_le,
    extractLsb'_append_eq_of_add_le, Nat.reduceSub, extractLsb'_eq_self]

theorem dxtAlphaOf_dxtAlphaWord (a : DxtAlpha) : dxtAlphaOf (dxtAlphaWord a) = a := by
  simp (disch := decide) only [dxtAlphaOf, dxtAlphaWord, extractLsb, extractLsb'_append_eq_of_le,
    extractLsb'_append_eq_of_add_le, Nat.reduceSub, extractLsb'_eq_self]

theorem eacAlphaOf_eacAlphaWord (b : EacAlpha) : eacAlphaOf (eacAlphaWord b) = b := by
  simp (disch := decide) only [eacAlphaOf, eacAlphaWord, extractLsb, extractLsb'_append_eq_of_le,
    extractLsb'_append_eq_of_add_le, Nat.reduceSub, extractLsb'_eq_self]

theorem etcIndividualOf_etcIndividualWord (b : EtcIndividual) : etcIndividualOf (etcIndividualWord b) = b := by
  simp (disch := decide) only [etcIndividualOf, etcIndividualWord, extractLsb, extractLsb'_append_eq_of_le,
    extractLsb'_append_eq_of_add_le, Nat.reduceSub, extractLsb'_eq_self]

theorem etcDifferentialOf_etcDifferentialWord (b : EtcDifferential) : etcDifferentialOf (etcDifferentialWord b) = b := by
  simp (disch := decide) only [etcDifferentialOf, etcDifferentialWord, extractLsb, extractLsb'_append_eq_of_le,
    extractLsb'_append_eq_of_add_le, Nat.reduceSub, extractLsb'_eq_self]

theorem decodeDxt1Word_dxtColourWord (b : DxtColour) :
    decodeDxt1Word (dxtColourWord b) = if b.q1.toNat < b.q0.toNat then .dxt1Four b else .dxt1Three b := by
  rw [decodeDxt1Word, dxtColourOf_dxtColourWord]

theorem decodeDxt5AlphaWord_dxtAlphaWord (a : DxtAlpha) :
    decodeDxt5AlphaWord (dxtAlphaWord a) = if a.a1.toNat < a.a0.toNat then .dxt5Alpha7 a else .dxt5Alpha5 a := by
  rw [decodeDxt5AlphaWord, dxtAlphaOf_dxtAlphaWord]

/-- The top bit of a PVRTC colour word says which of the two forms it has (R80, R225). -/
theorem decodeColourAWord_opaque (r g : BitVec 5) (b : BitVec 4) (mflag : BitVec 1) :
    decodeColourAWord (1#1 ++ r ++ g ++ b ++ mflag) = .pvrtcColaOpaque r g b mflag := by
  have htop : (1#1 ++ r ++ g ++ b ++ mflag).getLsbD 15 = true := by simp only [getLsbD_append]; rfl
  refine (if_pos htop).trans ?_
  simp (disch := decide) only [extractLsb, extractLsb'_append_eq_of_le, extractLsb'_append_eq_of_add_le, Nat.reduceSub,
    extractLsb'_eq_self]

theorem decodeColourAWord_translucent (a : BitVec 3) (r g : BitVec 4) (b : BitVec 3) (mflag : BitVec 1) :
    decodeColourAWord (0#1 ++ a ++ r ++ g ++ b ++ mflag) = .pvrtcColaTranslucent a r g b mflag := by
  have htop : ¬ (0#1 ++ a ++ r ++ g ++ b ++ mflag).getLsbD 15 = true := by simp only [getLsbD_append]; simp
  refine (if_neg htop).trans ?_
  simp (disch := decide) only [extractLsb, extractLsb'_append_eq_of_le, extractLsb'_append_eq_of_add_le, Nat.reduceSub,
    extractLsb'_eq_self]

theorem decodeColourBWord_opaque (r g b : BitVec 5) :
    decodeColourBWord (1#1 ++ r ++ g ++ b) = .pvrtcColbOpaque r g b := by
  have htop : (1#1 ++ r ++ g ++ b).getLsbD 15 = true := by simp only [getLsbD_append]; rfl
  refine (if_pos htop).trans ?_
  simp (disch := decide) only [extractLsb, extractLsb'_append_eq_of_le, extractLsb'_append_eq_of_add_le, Nat.reduceSub,
    extractLsb'_eq_self]

theorem decodeColourBWord_translucent (a : BitVec 3) (r g b : BitVec 4) :
    decodeColourBWord (0#1 ++ a ++ r ++ g ++ b) = .pvrtcColbTranslucent a r g b := by
  have htop : ¬ (0#1 ++ a ++ r ++ g ++ b).getLsbD 15 = true := by simp only [getLsbD_append]; simp
  refine (if_neg htop).trans ?_
  simp (disch := decide) only [extractLsb, extractLsb'_append_eq_of_le, extractLsb'_append_eq_of_add_le, Nat.reduceSub,
    extractLsb'_eq_self]

/-! ### Words with split fields: T, H and Planar -/

theorem overflowByte_fields (hi lo : BitVec 2) :
    (overflowByte hi lo).extractLsb' 3 2 = hi ∧ (overflowByte hi lo).extractLsb' 0 2 = lo := by
  revert hi lo; decide

theorem overflowByte_append_fields (x y : BitVec 1) (lo : BitVec 2) :
    (overflowByte (x ++ y) lo).extractLsb' 4 1 = x ∧ (overflowByte (x ++ y) lo).extractLsb' 3 1 = y := by
  revert x y lo; decide

/-- The low bits of a concatenation, where they reach into its upper part. -/
theorem extractLsb'_append_of_start_eq_zero {v w k start : Nat} (x : BitVec v) (y : BitVec w) (h : start = 0) :
    (x ++ y).extractLsb' start (k + w) = x.extractLsb' 0 k ++ y := by
  subst h
  ext i hi
  rw [BitVec.getElem_extractLsb', BitVec.getElem_append, getLsbD_append]
  grind

/-- The blue of an H block's first colour from its parts (R82). -/
theorem append_parts_four (x : BitVec 4) : x.extractLsb' 3 1 ++ x.extractLsb' 1 2 ++ x.extractLsb' 0 1 = x := by
  revert x; decide

/-- The blue of a Planar block's origin from its parts (R83). -/
theorem append_parts_six (x : BitVec 6) :
    x.extractLsb' 5 1 ++ x.extractLsb' 3 2 ++ (x.extractLsb' 1 2 ++ x.extractLsb' 0 1) = x := by
  revert x; decide

theorem etcTOf_etcTWord (b : EtcT) : etcTOf (etcTWord b) = b := by
  simp (disch := decide) only [etcTOf, etcTWord, extractLsb, extractLsb'_append_eq_of_le,
    extractLsb'_append_eq_of_add_le, Nat.reduceSub, extractLsb'_eq_self]
  simp only [Nat.reduceSub, Nat.reduceAdd, overflowByte_fields, extractLsb'_eq_self]
  rw [extractLsb'_append_extractLsb', extractLsb'_append_extractLsb']

theorem etcHOf_etcHWord (b : EtcH) : etcHOf (etcHWord b) = b := by
  simp (disch := decide) only [etcHOf, etcHWord, extractLsb, extractLsb'_append_eq_of_le,
    extractLsb'_append_eq_of_add_le, Nat.reduceSub, extractLsb'_eq_self]
  simp only [Nat.reduceSub, Nat.reduceAdd, overflowByte_fields, overflowByte_append_fields, extractLsb'_eq_self]
  rw [extractLsb'_append_extractLsb', extractLsb'_append_extractLsb', append_parts_four]

theorem etcPlanarOf_etcPlanarWord (b : EtcPlanar) : etcPlanarOf (etcPlanarWord b) = b := by
  simp (disch := decide) only [etcPlanarOf, etcPlanarWord, extractLsb, extractLsb'_append_eq_of_le,
    extractLsb'_append_eq_of_add_le, extractLsb'_append_of_start_eq_zero, Nat.reduceSub, extractLsb'_eq_self]
  simp only [Nat.reduceSub, Nat.reduceAdd, overflowByte_fields, extractLsb'_eq_self]
  rw [append_parts_six, extractLsb'_append_extractLsb', extractLsb'_append_extractLsb']

/-! ### The mode the encoder's bits select (R171 to R174, log 30) -/

/-- The ignored bits of an overflow byte take base plus delta out of 0 to 31. -/
theorem sumInRange_overflowByte (hi lo : BitVec 2) :
    sumInRange ((overflowByte hi lo).extractLsb 7 3) ((overflowByte hi lo).extractLsb 2 0) = false := by
  revert hi lo; decide

/-- Base and delta with equal top bits: a negative delta meets a base of 16 or more, any other a base below 16. -/
theorem sumInRange_of_top_bits_eq {c : BitVec 5} {d : BitVec 3} (h : c.getLsbD 4 = d.getLsbD 2) : sumInRange c d = true := by
  revert c d; decide

theorem etcMode_etcIndividualWord (etc2 : Bool) (b : EtcIndividual) :
    etcMode etc2 (etcIndividualWord b) = .individual := by
  have hdiff : (etcIndividualWord b).getLsbD 33 = false := by
    simp only [etcIndividualWord, getLsbD_append]; rfl
  exact if_pos hdiff

/-- A word with the diff bit is a Differential block in the format its sums allow (R174). -/
theorem etcMode_sumsInRange {w : BitVec 64} (hdiff : w.getLsbD 33 = true) :
    etcMode (etcDifferentialOf w).sumsInRange w = .differential := by
  cases hsums : (etcDifferentialOf w).sumsInRange with
  | false => simp only [etcMode, hdiff]; rfl
  | true =>
    simp only [EtcDifferential.sumsInRange, etcDifferentialOf, Bool.and_eq_true] at hsums
    obtain ⟨⟨hred, hgreen⟩, hblue⟩ := hsums
    simp only [etcMode, hdiff, hred, hgreen, hblue]
    rfl

theorem etcMode_etcDifferentialWord (b : EtcDifferential) :
    etcMode b.sumsInRange (etcDifferentialWord b) = .differential := by
  have hdiff : (etcDifferentialWord b).getLsbD 33 = true := by
    simp only [etcDifferentialWord, getLsbD_append]; rfl
  have h := etcMode_sumsInRange hdiff
  rwa [etcDifferentialOf_etcDifferentialWord] at h

theorem etcMode_etcTWord (b : EtcT) : etcMode true (etcTWord b) = .t := by
  have hdiff : (etcTWord b).getLsbD 33 = true := by
    simp only [etcTWord, getLsbD_append]; rfl
  have hred : sumInRange ((etcTWord b).extractLsb 63 59) ((etcTWord b).extractLsb 58 56) = false := by
    simp (disch := decide) only [etcTWord, extractLsb, extractLsb'_append_eq_of_le]
    exact sumInRange_overflowByte _ _
  simp only [etcMode, hdiff, hred]
  rfl

theorem etcMode_etcHWord (b : EtcH) : etcMode true (etcHWord b) = .h := by
  have hdiff : (etcHWord b).getLsbD 33 = true := by
    simp only [etcHWord, getLsbD_append]; rfl
  have hred : sumInRange ((etcHWord b).extractLsb 63 59) ((etcHWord b).extractLsb 58 56) = true := by
    refine sumInRange_of_top_bits_eq ?_
    simp only [etcHWord, getLsbD_append, getLsbD_extractLsb]
    simp
  have hgreen : sumInRange ((etcHWord b).extractLsb 55 51) ((etcHWord b).extractLsb 50 48) = false := by
    simp (disch := decide) only [etcHWord, extractLsb, extractLsb'_append_eq_of_le, extractLsb'_append_eq_of_add_le]
    exact sumInRange_overflowByte _ _
  simp only [etcMode, hdiff, hred, hgreen]
  rfl

theorem etcMode_etcPlanarWord (b : EtcPlanar) : etcMode true (etcPlanarWord b) = .planar := by
  have hdiff : (etcPlanarWord b).getLsbD 33 = true := by
    simp only [etcPlanarWord, getLsbD_append]; rfl
  have hred : sumInRange ((etcPlanarWord b).extractLsb 63 59) ((etcPlanarWord b).extractLsb 58 56) = true := by
    refine sumInRange_of_top_bits_eq ?_
    simp only [etcPlanarWord, getLsbD_append, getLsbD_extractLsb]
    simp
  have hgreen : sumInRange ((etcPlanarWord b).extractLsb 55 51) ((etcPlanarWord b).extractLsb 50 48) = true := by
    refine sumInRange_of_top_bits_eq ?_
    simp only [etcPlanarWord, getLsbD_append, getLsbD_extractLsb]
    simp
  have hblue : sumInRange ((etcPlanarWord b).extractLsb 47 43) ((etcPlanarWord b).extractLsb 42 40) = false := by
    simp (disch := decide) only [etcPlanarWord, extractLsb, extractLsb'_append_eq_of_le, extractLsb'_append_eq_of_add_le]
    exact sumInRange_overflowByte _ _
  simp only [etcMode, hdiff, hred, hgreen, hblue]
  rfl

/-! ### The round trip -/

theorem decodeEtcColourWord_etcIndividualWord (etc2 : Bool) (b : EtcIndividual) :
    decodeEtcColourWord etc2 (etcIndividualWord b) = .etcIndividual b := by
  rw [decodeEtcColourWord, etcMode_etcIndividualWord, etcIndividualOf_etcIndividualWord]

theorem decodeEtcColourWord_etcDifferentialWord (b : EtcDifferential) :
    decodeEtcColourWord b.sumsInRange (etcDifferentialWord b) = .etcDifferential b := by
  rw [decodeEtcColourWord, etcMode_etcDifferentialWord, etcDifferentialOf_etcDifferentialWord]

theorem decodeEtcColourWord_etcTWord (b : EtcT) :
    decodeEtcColourWord true (etcTWord b) = .etcT b := by
  rw [decodeEtcColourWord, etcMode_etcTWord, etcTOf_etcTWord]

theorem decodeEtcColourWord_etcHWord (b : EtcH) :
    decodeEtcColourWord true (etcHWord b) = .etcH b := by
  rw [decodeEtcColourWord, etcMode_etcHWord, etcHOf_etcHWord]

theorem decodeEtcColourWord_etcPlanarWord (b : EtcPlanar) :
    decodeEtcColourWord true (etcPlanarWord b) = .etcPlanar b := by
  rw [decodeEtcColourWord, etcMode_etcPlanarWord, etcPlanarOf_etcPlanarWord]

/-- A decoder of words given the number of a word, against the word itself. -/
theorem ok_ofNat_toNat {n : Nat} (d : BitVec n → Instr) {x : BitVec n} {i : Instr} (h : d x = i) :
    (.ok (d (BitVec.ofNat n x.toNat)) : Except DecodeError Instr) = .ok i := by
  rw [BitVec.ofNat_toNat, BitVec.setWidth_eq, h]

/-- The word of a well-formed instruction decodes to it. -/
theorem decodeWord_encodeWord {i : Instr} (h : i.wf = true) : decodeWord i.kind (encodeWord i) = .ok i := by
  cases i with
  | start c => cases c <;> rfl
  | clear => rfl
  | decodeDxt1 is2 => cases is2 <;> rfl
  | decodeDxt5 is2 => cases is2 <;> rfl
  | decodeEtc1 is2 => cases is2 <;> rfl
  | decodeEtc2 is2 => cases is2 <;> rfl
  | decodeEtc2a1 is2 => cases is2 <;> rfl
  | decodeEtc2a8 is2 => cases is2 <;> rfl
  | decodePvrtc4 => rfl
  | decodePvrtc2 => rfl
  | reservedFmt fmt is2 => exact ok_ofNat_toNat decodeCommand (decodeCommand_reserved is2 (by simpa [Instr.wf] using h))
  | dxt1Four b =>
    exact ok_ofNat_toNat decodeDxt1Word ((decodeDxt1Word_dxtColourWord b).trans (if_pos (of_decide_eq_true h)))
  | dxt1Three b =>
    have hle : ¬ b.q1.toNat < b.q0.toNat := Nat.not_lt.2 (of_decide_eq_true h)
    exact ok_ofNat_toNat decodeDxt1Word ((decodeDxt1Word_dxtColourWord b).trans (if_neg hle))
  | dxt5Alpha7 a =>
    exact ok_ofNat_toNat decodeDxt5AlphaWord ((decodeDxt5AlphaWord_dxtAlphaWord a).trans (if_pos (of_decide_eq_true h)))
  | dxt5Alpha5 a =>
    have hle : ¬ a.a1.toNat < a.a0.toNat := Nat.not_lt.2 (of_decide_eq_true h)
    exact ok_ofNat_toNat decodeDxt5AlphaWord ((decodeDxt5AlphaWord_dxtAlphaWord a).trans (if_neg hle))
  | dxt5Color b =>
    exact ok_ofNat_toNat (fun v => .dxt5Color (dxtColourOf v)) (congrArg _ (dxtColourOf_dxtColourWord b))
  | etcIndividual b => exact ok_ofNat_toNat (decodeEtcColourWord true) (decodeEtcColourWord_etcIndividualWord true b)
  | etcT b => exact ok_ofNat_toNat (decodeEtcColourWord true) (decodeEtcColourWord_etcTWord b)
  | etcH b => exact ok_ofNat_toNat (decodeEtcColourWord true) (decodeEtcColourWord_etcHWord b)
  | etcPlanar b => exact ok_ofNat_toNat (decodeEtcColourWord true) (decodeEtcColourWord_etcPlanarWord b)
  | etcDifferential b =>
    exact ok_ofNat_toNat (decodeEtcColourWord b.sumsInRange) (decodeEtcColourWord_etcDifferentialWord b)
  | eacAlpha b => exact ok_ofNat_toNat (fun v => .eacAlpha (eacAlphaOf v)) (congrArg _ (eacAlphaOf_eacAlphaWord b))
  | etc2a1Block alpha colour =>
    exact ok_ofNat_toNat (fun v => .etc2a1Block (v.extractLsb 71 64) (v.extractLsb 63 0))
      (congrArg₂ Instr.etc2a1Block extractLsb'_append_eq_left extractLsb'_append_eq_right)
  | etc2a8Block alpha colour =>
    exact ok_ofNat_toNat (fun v => .etc2a8Block (v.extractLsb 127 64) (v.extractLsb 63 0))
      (congrArg₂ Instr.etc2a8Block extractLsb'_append_eq_left extractLsb'_append_eq_right)
  | pvrtcBlock ca cb m =>
    refine ok_ofNat_toNat (fun v => .pvrtcBlock (v.extractLsb 47 32) (v.extractLsb 63 48) (v.extractLsb 31 0)) ?_
    simp (disch := decide) only [extractLsb, extractLsb'_append_eq_of_le, extractLsb'_append_eq_of_add_le, Nat.reduceSub,
      extractLsb'_eq_self]
  | pvrtcColaOpaque r g b mflag => exact ok_ofNat_toNat decodeColourAWord (decodeColourAWord_opaque r g b mflag)
  | pvrtcColaTranslucent a r g b mflag =>
    exact ok_ofNat_toNat decodeColourAWord (decodeColourAWord_translucent a r g b mflag)
  | pvrtcColbOpaque r g b => exact ok_ofNat_toNat decodeColourBWord (decodeColourBWord_opaque r g b)
  | pvrtcColbTranslucent a r g b => exact ok_ofNat_toNat decodeColourBWord (decodeColourBWord_translucent a r g b)
  | pvrtcMod4Standard m => exact ok_ofNat_toNat (decodeModulationWord false false) rfl
  | pvrtcMod4Punchthrough m => exact ok_ofNat_toNat (decodeModulationWord false true) rfl
  | pvrtcMod2Direct m => exact ok_ofNat_toNat (decodeModulationWord true false) rfl
  | pvrtcMod2Interpolated m => exact ok_ofNat_toNat (decodeModulationWord true true) rfl

/-- Settles O1: the bytes of an instruction make its word again, and the word decodes to the instruction kind by kind. -/
theorem decodeOfEncode : Obligations.DecodeOfEncode := fun i h => (decode_encode i).trans (decodeWord_encodeWord h)

end Sys2Proof.Machine
end

section
/-! PROOFS. The layouts: every field of a word as arithmetic on its bytes (R71 to R83, R227). -/

namespace Sys2Proof.Machine

open Sys2Proof Sys2Proof.Claim

/-! ### Bytes and numbers -/

theorem le_eq_leNat (bs : List Byte) : le bs = leNat bs := by
  induction bs with
  | nil => rfl
  | cons b bs ih => rw [leNat, ← ih]; rfl

theorem be_eq_beNat (bs : List Byte) : be bs = beNat bs := by
  rw [beNat, ← le_eq_leNat, le, List.foldr_reverse, be]
  exact congrArg (fun f => List.foldl f 0 bs) (funext₂ fun n b => Nat.add_comm ..)

theorem leNat_cons_div (b : Byte) (bs : List Byte) : leNat (b :: bs) / 256 = leNat bs := by
  rw [leNat]
  omega

theorem leNat_cons_mod (b : Byte) (bs : List Byte) : leNat (b :: bs) % 256 = b.toNat := by
  rw [leNat]
  omega

theorem leNat_drop (bs : List Byte) (k : Nat) : leNat (bs.drop k) = leNat bs / 256 ^ k := by
  induction k generalizing bs with
  | zero => simp
  | succ k ih =>
    cases bs with
    | nil => simp [leNat]
    | cons b bs => rw [List.drop_succ_cons, ih, Nat.pow_succ', ← Nat.div_div_eq_div_mul, leNat_cons_div]

theorem leNat_take (bs : List Byte) (k : Nat) : leNat (bs.take k) = leNat bs % 256 ^ k := by
  induction k generalizing bs with
  | zero => simp [leNat, Nat.mod_one]
  | succ k ih =>
    cases bs with
    | nil => simp [leNat]
    | cons b bs => rw [List.take_succ_cons, leNat, ih, Nat.pow_succ', Nat.mod_mul, leNat_cons_mod, leNat_cons_div]

/-- Byte `k` of a list is digit `k` of its little-endian number, 0 past the end. -/
theorem byte_eq_leNat (bs : List Byte) (k : Nat) : byte bs k = leNat bs / 256 ^ k % 256 := by
  have hbyte : byte bs k = ((bs.drop k).headD 0).toNat := by
    rw [byte, List.getD_eq_getElem?_getD, List.headD_eq_head?_getD, List.head?_drop]
  rw [hbyte, ← leNat_drop]
  cases bs.drop k with
  | nil => rfl
  | cons c cs => exact (leNat_cons_mod c cs).symm

theorem beNat_drop (bs : List Byte) (k : Nat) : beNat (bs.drop k) = beNat bs % 256 ^ (bs.length - k) := by
  rw [beNat, List.reverse_drop, leNat_take, beNat]

theorem beNat_take (bs : List Byte) (k : Nat) : beNat (bs.take k) = beNat bs / 256 ^ (bs.length - k) := by
  rw [beNat, List.reverse_take, leNat_drop, beNat]

/-- Byte `k` of a list is digit `k` from the top of its big-endian number. -/
theorem byte_eq_beNat {bs : List Byte} {k : Nat} (h : k < bs.length) :
    byte bs k = beNat bs / 256 ^ (bs.length - 1 - k) % 256 := by
  rw [beNat, ← byte_eq_leNat, byte, byte, List.getD_reverse _ (by omega)]
  congr 2
  omega

theorem decode_little {k : WordKind} {bs : List Byte} (h : bs.length = k.bytes) (hk : k.bigEndian = false) :
    decode k bs = decodeWord k (leNat bs) := by
  rw [decode_of_length h, WordKind.assemble, hk, if_neg Bool.false_ne_true]

theorem decode_big {k : WordKind} {bs : List Byte} (h : bs.length = k.bytes) (hk : k.bigEndian = true) :
    decode k bs = decodeWord k (beNat bs) := by
  rw [decode_of_length h, WordKind.assemble, hk, if_pos rfl]

/-- A field of a word, as a number. -/
theorem toNat_field {n : Nat} (x hi lo : Nat) :
    ((BitVec.ofNat n x).extractLsb hi lo).toNat = x % 2 ^ n / 2 ^ lo % 2 ^ (hi - lo + 1) := by
  rw [BitVec.extractLsb_toNat, BitVec.toNat_ofNat, Nat.shiftRight_eq_div_pow]

theorem toNat_append_eq_add {v w : Nat} (x : BitVec v) (y : BitVec w) : (x ++ y).toNat = 2 ^ w * x.toNat + y.toNat := by
  rw [BitVec.toNat_append, Nat.shiftLeft_eq, Nat.mul_comm, Nat.two_pow_add_eq_or_of_lt y.isLt]

/-! ### Command words (R71) -/

theorem decode_command {bs : List Byte} (h : bs.length = 4) :
    decode .command bs = .ok (decodeCommand (BitVec.ofNat 9 (leNat bs))) := decode_little h rfl

/-- The selector of a command word is its first byte. -/
theorem command_fmt (bs : List Byte) : (BitVec.ofNat 9 (leNat bs)).extractLsb 7 0 = bs.getD 0 0 := by
  apply BitVec.eq_of_toNat_eq
  have hbyte := byte_eq_leNat bs 0
  rw [byte] at hbyte
  rw [toNat_field, hbyte]
  omega

/-- Bit 8 of a command word is the low bit of its second byte. -/
theorem command_is2 (bs : List Byte) : (BitVec.ofNat 9 (leNat bs)).getLsbD 8 = decide (byte bs 1 % 2 = 1) := by
  rw [BitVec.getLsbD_ofNat, Nat.testBit_eq_decide_div_mod_eq, byte_eq_leNat]
  simp

theorem commandOf_decodeCommand {v : BitVec 9} {f : Format}
    (h : formatOf (v.extractLsb 7 0) (v.getLsbD 8) = some f) : CommandOf f (decodeCommand v) := by
  unfold decodeCommand
  rw [h]
  cases f <;> first | exact ⟨_, rfl⟩ | rfl

/-- Settles O4: the selector and bit 8 are read from the first two bytes, and the selector table decides. -/
theorem commandWordSelects : Obligations.CommandWordSelects := by
  refine ⟨fun bs hlen => ⟨_, decode_command hlen, ?_⟩, fun f => by cases f <;> rfl⟩
  have hselect : ∀ f, formatOf (bs.getD 0 0) (decide (byte bs 1 % 2 = 1)) = some f →
      CommandOf f (decodeCommand (BitVec.ofNat 9 (leNat bs))) := fun f hf =>
    commandOf_decodeCommand (by rw [command_fmt, command_is2, hf])
  have hbyte : (bs.getD 0 0).toNat = byte bs 0 := rfl
  simp only [formatOf, hbyte] at hselect
  refine ⟨fun h => hselect _ (by simp [h]), fun h => hselect _ (by simp [h]), fun h => hselect _ (by simp [h]),
    fun h => hselect _ (by simp [h]), fun h => hselect _ (by simp [h]), fun h => hselect _ (by simp [h]),
    fun h h1 => hselect _ (by simp [h, h1]), fun h h1 => hselect _ (by simp [h, h1]),
    fun h => ⟨decide (byte bs 1 % 2 = 1), ?_⟩⟩
  rw [← command_is2, ← command_fmt]
  refine decodeCommand_of_formatOf_eq_none (formatOf_reserved _ ?_)
  rw [command_fmt]
  exact h.imp_left fun h => BitVec.eq_of_toNat_eq h

/-! ### DXT blocks (R74, R75) -/

/-- Settles O5: the fields are those of the little-endian word, the modes the decoder's comparisons. -/
theorem dxtLayout : Obligations.DxtLayout := by
  intro bs hlen
  have hlt := leNat_lt bs
  rw [hlen] at hlt
  refine ⟨⟨dxtColourOf (BitVec.ofNat 64 (leNat bs)), ?_, ?_, ?_, decode_little hlen rfl, decode_little hlen rfl⟩,
    dxtAlphaOf (BitVec.ofNat 64 (leNat bs)), ?_, ?_, ?_, decode_little hlen rfl⟩
  all_goals simp only [dxtColourOf, dxtAlphaOf, toNat_field, byte_eq_leNat, le_eq_leNat, leNat_drop]
  all_goals omega

/-! ### ETC blocks (R76, R77, R81 to R83) -/

/-- The fields of each mode are those its layout reads from the word. -/
theorem decodeEtcColourWord_fields (etc2 : Bool) (w : BitVec 64) :
    (∀ b, decodeEtcColourWord etc2 w = .etcIndividual b → b = etcIndividualOf w) ∧
    (∀ b, decodeEtcColourWord etc2 w = .etcDifferential b → b = etcDifferentialOf w) ∧
    (∀ b, decodeEtcColourWord etc2 w = .etcT b → b = etcTOf w) ∧
    (∀ b, decodeEtcColourWord etc2 w = .etcH b → b = etcHOf w) ∧
    (∀ b, decodeEtcColourWord etc2 w = .etcPlanar b → b = etcPlanarOf w) := by
  unfold decodeEtcColourWord
  refine ⟨?_, ?_, ?_, ?_, ?_⟩ <;> intro b h <;> split at h <;> cases h <;> rfl

theorem byte_eight {bs : List Byte} {k : Nat} (hlen : bs.length = 8) (hk : k < 8) :
    byte bs k = beNat bs / 256 ^ (7 - k) % 256 := by
  rw [byte_eq_beNat (by omega), hlen]

/-- Settles O7: a block of a mode holds the fields of its layout, read from the big-endian word. -/
theorem etcLayout : Obligations.EtcLayout := by
  intro etc2 bs hlen
  have hlt := beNat_lt bs
  rw [hlen] at hlt
  have hdecode : ∀ e2, decode (.etcColour e2) bs = .ok (decodeEtcColourWord e2 (BitVec.ofNat 64 (beNat bs))) :=
    fun e2 => decode_big hlen rfl
  obtain ⟨hindividual, hdifferential, -, -, -⟩ := decodeEtcColourWord_fields etc2 (BitVec.ofNat 64 (beNat bs))
  obtain ⟨-, -, ht, hh, hplanar⟩ := decodeEtcColourWord_fields true (BitVec.ofNat 64 (beNat bs))
  simp only [hdecode, Except.ok.injEq]
  refine ⟨fun b hb => ?_, fun b hb => ?_, fun b hb => ?_, fun b hb => ?_, fun b hb => ?_⟩
  · rw [hindividual b hb]
    simp (disch := decide) only [etcIndividualOf, toNat_field, byte_eight hlen]
    omega
  · rw [hdifferential b hb]
    simp (disch := decide) only [etcDifferentialOf, toNat_field, byte_eight hlen]
    omega
  · rw [ht b hb]
    simp (disch := decide) only [etcTOf, toNat_append_eq_add, toNat_field, byte_eight hlen]
    omega
  · rw [hh b hb]
    simp (disch := decide) only [etcHOf, toNat_append_eq_add, toNat_field, byte_eight hlen]
    omega
  · rw [hplanar b hb]
    simp only [etcPlanarOf, toNat_append_eq_add, toNat_field, be_eq_beNat]
    omega

/-! ### Alpha blocks (R78, R79) -/

/-- Settles O8: the alpha block's fields are those of its big-endian word; the combined blocks are two numbers in a row. -/
theorem alphaBlockLayout : Obligations.AlphaBlockLayout := by
  refine ⟨fun bs hlen => ⟨_, decode_big hlen rfl, ?_⟩, fun bs hlen => ⟨_, _, decode_big hlen rfl, ?_⟩,
    fun bs hlen => ⟨_, _, decode_big hlen rfl, ?_⟩⟩
  all_goals
    have hlt := beNat_lt bs
    rw [hlen] at hlt
  · simp (disch := decide) only [eacAlphaOf, toNat_field, byte_eight hlen, be_eq_beNat, beNat_drop, hlen]
    omega
  · have hbyte := byte_eq_beNat (bs := bs) (k := 0) (by omega)
    simp only [toNat_field, be_eq_beNat, beNat_drop, hlen, hbyte]
    omega
  · simp only [toNat_field, be_eq_beNat, beNat_drop, beNat_take, hlen]
    omega

/-! ### PVRTC words (R80, R227) -/

theorem leNat_lt_of_length_two {bs : List Byte} (hlen : bs.length = 2) : leNat bs < 65536 := by
  simpa [hlen] using leNat_lt bs

/-- The top bit of a colour word. -/
theorem colourWord_top {bs : List Byte} (hlen : bs.length = 2) :
    (BitVec.ofNat 16 (leNat bs)).getLsbD 15 = decide (32768 ≤ leNat bs) := by
  have hlt := leNat_lt_of_length_two hlen
  rw [BitVec.getLsbD_ofNat, Nat.testBit_eq_decide_div_mod_eq]
  grind

theorem colourWord_opaque {bs : List Byte} (hlen : bs.length = 2) (h : 32768 ≤ leNat bs) :
    (BitVec.ofNat 16 (leNat bs)).getLsbD 15 = true := (colourWord_top hlen).trans (decide_eq_true h)

theorem colourWord_translucent {bs : List Byte} (hlen : bs.length = 2) (h : leNat bs < 32768) :
    ¬ (BitVec.ofNat 16 (leNat bs)).getLsbD 15 = true :=
  Bool.not_eq_true _ ▸ (colourWord_top hlen).trans (decide_eq_false (Nat.not_le.2 h))

/-- Settles O9: the fields are those of the little-endian words, the form of a colour word its top bit. -/
theorem pvrtcLayout : Obligations.PvrtcLayout := by
  unfold Obligations.PvrtcLayout
  simp only [le_eq_leNat]
  refine ⟨fun bs hlen => ⟨_, _, _, decode_little hlen rfl, ?_⟩,
    fun bs hlen h => ⟨_, _, _, _, (decode_little hlen rfl).trans (congrArg _ (if_pos (colourWord_opaque hlen h))), ?_⟩,
    fun bs hlen h =>
      ⟨_, _, _, _, _, (decode_little hlen rfl).trans (congrArg _ (if_neg (colourWord_translucent hlen h))), ?_⟩,
    fun bs hlen h => ⟨_, _, _, (decode_little hlen rfl).trans (congrArg _ (if_pos (colourWord_opaque hlen h))), ?_⟩,
    fun bs hlen h =>
      ⟨_, _, _, _, (decode_little hlen rfl).trans (congrArg _ (if_neg (colourWord_translucent hlen h))), ?_⟩,
    fun is2 mflag bs hlen => ⟨BitVec.ofNat 32 (leNat bs), ?_, decode_little hlen rfl⟩⟩
  all_goals
    have hlt := leNat_lt bs
    rw [hlen] at hlt
    simp only [toNat_field, BitVec.toNat_ofNat, byte_eq_leNat, leNat_take]
    omega

end Sys2Proof.Machine
end

section
/-! PROOFS. From a command word to the acceptance of its command: START, and the register writes of a DECODE line (R70, R71,
R85). -/

namespace Sys2Proof.Machine

open Sys2Proof

/-- A command word is the acceptance of the format it selects (R73, R100). -/
theorem exec_decodeCommand (v : BitVec 9) (s : State) :
    exec (decodeCommand v) s = accept (formatOf (v.extractLsb 7 0) (v.getLsbD 8)) s := by
  unfold decodeCommand
  split <;> rename_i h <;> rw [h] <;> rfl

/-- FORMAT reads as the command word of its fields (R23, R71). -/
theorem ofNat_readReg_format (s : State) : BitVec.ofNat 9 (readReg s 2).toNat = commandWord s.fmt s.is2 := by
  apply BitVec.eq_of_toNat_eq
  have hfmt := s.fmt.isLt
  have hread : (readReg s 2).toNat = 2 ^ 8 * s.is2.toNat + s.fmt.toNat := by
    show (0#23 ++ BitVec.ofBool s.is2 ++ s.fmt).toNat = _
    rw [toNat_append_eq_add, toNat_append_eq_add, BitVec.toNat_ofBool, BitVec.toNat_ofNat, Nat.zero_mod, Nat.mul_zero,
      Nat.zero_add]
  rw [BitVec.toNat_ofNat, hread, commandWord, toNat_append_eq_add, BitVec.toNat_ofBool]
  have := Bool.toNat_lt s.is2
  omega

/-- Settles O16: FORMAT reads as the word of its own selector, and both instructions are the acceptance it selects. -/
theorem startRunsSelectedCommand : Obligations.StartRunsSelectedCommand := by
  intro s i c h
  have hword : leNat (leBytes 4 (readReg s 2).toNat) = (readReg s 2).toNat :=
    (leNat_leBytes ..).trans (Nat.mod_eq_of_lt (readReg s 2).isLt)
  rw [decode_command (length_leBytes ..), hword, ofNat_readReg_format] at h
  cases h
  rw [exec_decodeCommand, commandWord_fmt, commandWord_is2]
  rfl

/-! ### A DECODE line -/

/-- The register writes of a list, in order. -/
def writeRegs (ws : List (Fin 8 × Word)) (s : State) : State := ws.foldl (fun t w => writeReg w.1 w.2 t) s

theorem writeReg_hostQ (i : Fin 8) (v : Word) (s : State) (q : List HostOp) :
    writeReg i v { s with hostQ := q } = { writeReg i v s with hostQ := q } := by
  unfold writeReg
  split
  · rfl
  · split <;> rfl

/-- Pending writes to registers with storage run one step each (R20 to R28). -/
theorem run_writeRegs (ws : List (Fin 8 × Word)) (hws : ∀ w ∈ ws, w.1 ≠ 0) {s : State} {q : List HostOp}
    (hq : s.hostQ = ws.map (fun w => .wr w.1 w.2) ++ q) :
    Sys2Proof.core.run ws.length s = .next (writeRegs ws { s with hostQ := q }) := by
  induction ws generalizing s with
  | nil => rw [List.map_nil, List.nil_append] at hq; subst hq; rfl
  | cons w ws ih =>
    have hstep : step s = .next (writeReg w.1 w.2 { s with hostQ := ws.map (fun w => .wr w.1 w.2) ++ q }) :=
      (step_access hq (.inl (by simp))).trans (if_neg (hws w List.mem_cons_self))
    have hcons : writeRegs (w :: ws) { s with hostQ := q } = writeRegs ws { writeReg w.1 w.2 s with hostQ := q } :=
      congrArg (writeRegs ws) (writeReg_hostQ ..)
    rw [writeReg_hostQ] at hstep
    rw [hcons, List.length_cons, run_succ hstep]
    exact ih (fun x hx => hws x (List.mem_cons_of_mem _ hx)) rfl

/-- A run of one step of any machine. -/
theorem coreRun_one (M : Host.Core) (s : M.State) : M.run 1 s = M.step s := by
  rw [Host.Core.run]
  cases M.step s <;> rfl

theorem run_one (s : State) : Sys2Proof.core.run 1 s = step s := coreRun_one Sys2Proof.core s

/-- The selector of a format selects it (R71). -/
theorem formatOf_selector (f : Format) :
    formatOf ((selector f).extractLsb 7 0) ((selector f).getLsbD 8) = some f := by
  cases f <;> rfl

/-- Writing the selector to FORMAT stores it whole (R23). -/
theorem selector_setWidth (f : Format) :
    ((selector f).setWidth 32).extractLsb 7 0 = (selector f).extractLsb 7 0 ∧
      ((selector f).setWidth 32).getLsbD 8 = (selector f).getLsbD 8 := by
  cases f <;> decide

/-- The six register writes of a DECODE line store its operands (R23 to R27, R85). -/
theorem writeRegs_decodeLine {s : State} (hb : s.st ≠ .busy) (f : Format) (src len dst w h : Word) :
    writeRegs [(2, (selector f).setWidth 32), (3, src), (4, len), (5, dst), (6, w), (7, h)] s =
      { s with
        fmt := (selector f).extractLsb 7 0, is2 := (selector f).getLsbD 8, src := src, len := len,
        dst := dst.extractLsb 31 2, width := w.extractLsb 15 0, height := h.extractLsb 15 0 } := by
  obtain ⟨hfmt, his2⟩ := selector_setWidth f
  simp only [writeRegs, List.foldl_cons, List.foldl_nil, writeReg, hb, if_false, hfmt, his2]

/-- Settles O60: six writes store the operands, and the write to CTRL is START for the format they select. -/
theorem decodeLineLaunches : Obligations.DecodeLineLaunches := by
  intro s f src len dst w h hb hq u
  have hf : u.format = some f := formatOf_selector f
  have hwrites := run_writeRegs [(2, (selector f).setWidth 32), (3, src), (4, len), (5, dst), (6, w), (7, h)] (by simp)
    (q := [.wr 0 1, .poll]) hq
  rw [writeRegs_decodeLine (s := { s with hostQ := [.wr 0 1, .poll] }) hb] at hwrites
  refine ⟨hf, (run_add 6 1 hwrites).trans ?_⟩
  rw [run_one, step_writeCtrl rfl, ← hf]
  rfl

end Sys2Proof.Machine
end

section
/-! PROOFS. The strobes: what the acceptance of a command does when the unit is BUSY, when the grid is empty and when the checks
pass, and what CLEAR does (R100 to R102, R108, R111 to R118). -/

namespace Sys2Proof.Machine

open Sys2Proof Sys2Proof.Claim

/-! ### Accepted commands -/

theorem accepted_eq_acceptBusy (f : Format) (s : State) :
    accepted f s = acceptBusy (if isPvrtc f then .expand else .walk) s := by
  cases f <;> rfl

/-- A DECODE instruction is the acceptance of its row's format (R111 to R118, log 16). -/
theorem exec_commandOf {f : Format} {i : Instr} (h : CommandOf f i) (s : State) : exec i s = accept (some f) s := by
  cases f with
  | pvrtc4 => obtain rfl := h; rfl
  | pvrtc2 => obtain rfl := h; rfl
  | _ => obtain ⟨is2, rfl⟩ := h; rfl

/-- Settles O15: a DECODE instruction and START are the acceptance of a format, and a launchable command is accepted. -/
theorem launchCompletes : Obligations.LaunchCompletes := by
  intro f s hl
  have haccept : accept (some f) s = .next (accepted f s) := by
    rw [accepted_eq_acceptBusy]
    exact accept_launchable hl
  refine ⟨fun i hi => (exec_commandOf hi s).trans haccept, fun hf c => ?_⟩
  show accept s.format s = _
  rw [hf, haccept]

/-! ### Lost writes -/

theorem accept_busy {s : State} (o : Option Format) (hb : s.st = .busy) : accept o s = .next s := if_pos hb

theorem execClear_busy {s : State} (hb : s.st = .busy) : execClear s = .next s := if_pos hb

theorem execClear_not_busy {s : State} (hb : s.st ≠ .busy) : execClear s = .next (clearStatus s) := if_neg hb

/-- No strobe has an effect while BUSY (R101). -/
theorem writeCtrl_busy {s : State} (v : Word) (hb : s.st = .busy) : writeCtrl v s = .next s := by
  unfold writeCtrl
  rcases decodeCtrl_cases v with ⟨c, hd⟩ | hd | hd <;> rw [hd]
  · exact accept_busy _ hb
  · exact execClear_busy hb

/-- No register write has an effect while BUSY (R22, R28, R101). -/
theorem hostWrite_busy {s : State} (i : Fin 8) (v : Word) (hb : s.st = .busy) : hostWrite i v s = .next s := by
  unfold hostWrite
  split
  · exact writeCtrl_busy v hb
  · rw [(writeReg_frame i v s).1 hb]

/-- Settles O13: the access is the write, and while BUSY a write changes nothing. -/
theorem writesLostWhileBusy : Obligations.WritesLostWhileBusy := fun _ i v _ hq hb =>
  (step_access hq (.inl (by simp))).trans (hostWrite_busy i v hb)

/-! ### Empty grids -/

/-- A grid with a zero dimension has no block (R122). -/
theorem count_grid_of_empty (f : Format) {s : State} (h : s.width = 0 ∨ s.height = 0) : (s.grid f).count = 0 := by
  have hzero : ceilDiv 0 (blockWidth f) = 0 ∧ ceilDiv 0 (blockHeight f) = 0 := by cases f <;> decide
  rcases h with h | h <;> simp [Grid.count, State.grid, gridOf, h, hzero]

theorem dstLen_of_empty {s : State} (h : s.width = 0 ∨ s.height = 0) : s.dstLen = 0 := by
  rcases h with h | h <;> simp [State.dstLen, h]

/-- An empty command fails no check: it reads and writes no byte and needs no record (R104 to R108). -/
theorem startCheck_empty (f : Format) {s : State} (h : s.width = 0 ∨ s.height = 0) : startCheck f s = none := by
  have hsrc : s.srcBase < 2 ^ 32 := s.src.isLt
  have hdst : s.dstBase < 2 ^ 32 := by
    have := s.dst.isLt
    unfold State.dstBase
    omega
  have hcount := count_grid_of_empty f h
  have hneed : (s.grid f).need = 0 := by
    show (s.grid f).count * (s.grid f).bb = 0
    rw [hcount, Nat.zero_mul]
  have hlen := dstLen_of_empty h
  unfold startCheck
  rw [if_neg (by omega), if_neg (by omega), if_neg (by omega), if_neg (by omega)]

/-- Settles O18: an empty command fails no check, and its launch is DONE at once. -/
theorem emptyGridDone : Obligations.EmptyGridDone := by
  intro s f c hb hf h
  rw [exec_start_launch c hb hf (startCheck_empty f h)]
  exact if_pos (count_grid_of_empty f h)

/-! ### CLEAR -/

/-- Bit 1 set and bit 0 clear is the strobe CLEAR (R21, R102). -/
theorem decodeCtrl_clear {v : Word} (h : v.toNat % 4 = 2) : decodeCtrl v = .ok .clear := by
  have h0 : v.getLsbD 0 = false := by
    rw [BitVec.getLsbD, Nat.testBit_zero]
    exact decide_eq_false (by omega)
  have h1 : v.getLsbD 1 = true := by
    rw [BitVec.getLsbD, Nat.testBit_succ, Nat.testBit_zero]
    exact decide_eq_true (by omega)
  rw [decodeCtrl, h0, h1]
  rfl

/-- Settles O20: CLEAR looks at STATE alone, and the host's write is its strobe. -/
theorem clearEffect : Obligations.ClearEffect := by
  refine ⟨fun s => ⟨execClear_not_busy, execClear_busy⟩, fun s v q hq hv hb => ?_⟩
  rw [step_writeCtrl hq, writeCtrl, decodeCtrl_clear hv]
  exact execClear_not_busy (s := { s with hostQ := q }) hb

end Sys2Proof.Machine
end

section
/-! PROOFS. A command runs exactly its block-steps (R315): one that is alone stays BUSY until its last. -/

namespace Sys2Proof.Machine

open Sys2Proof

/-- No block-step raises an error (R109). -/
theorem unitStep_err {s t : State} (h : unitStep s = .next t) : t.err = s.err := by
  rcases unitStep_cases h with rfl | ⟨f, u, -, -, eu, ⟨-, -, -, rfl⟩ | ⟨-, -, rfl⟩⟩
  · rfl
  · rw [finishExpand_err, eu]
  · rw [finishWalk_err, eu]

/-- A command alone is still running after fewer block-steps than it has to take. -/
theorem State.Alone.run_lt {f : Format} (n : Nat) : ∀ {s : State}, s.Alone f → n < blockStepsLeft (s.grid f) s.pc →
    ∃ t, Sys2Proof.core.run n s = .next t ∧ t.Alone f ∧ t.err = s.err ∧
      blockStepsLeft (t.grid f) t.pc + n = blockStepsLeft (s.grid f) s.pc := by
  induction n with
  | zero => exact fun {s} h _ => ⟨s, rfl, h, rfl, rfl⟩
  | succ n ih =>
    intro s h hn
    obtain ⟨t, ht⟩ := h.running.unitStep_eq_next h.busy
    rcases h.progress ht with ⟨hlast, -⟩ | ⟨ha, hleft⟩
    · omega
    · obtain ⟨v, hv, hva, herr, hvleft⟩ := ih ha (by omega)
      exact ⟨v, (run_succ ((step_idle_queue h.queue).trans ht) n).trans hv, hva, herr.trans (unitStep_err ht), by omega⟩

/-- The only block-step left ends the command (R110). -/
theorem State.Alone.last_step {f : Format} {s : State} (h : s.Alone f) (hlast : blockStepsLeft (s.grid f) s.pc = 1) :
    ∃ t, step s = .next t ∧ t.st = .done ∧ t.err = s.err := by
  obtain ⟨t, ht⟩ := h.running.unitStep_eq_next h.busy
  refine ⟨t, (step_idle_queue h.queue).trans ht, ?_, unitStep_err ht⟩
  rcases h.progress ht with ⟨-, hdone⟩ | ⟨ha, hleft⟩
  · exact hdone
  · have := ha.blockStepsLeft_pos
    omega

/-- A command alone is DONE after the block-steps it has to take (R110, R315). -/
theorem State.Alone.run_done {f : Format} {s : State} (h : s.Alone f) :
    ∃ t, Sys2Proof.core.run (blockStepsLeft (s.grid f) s.pc) s = .next t ∧ t.st = .done ∧ t.err = s.err := by
  obtain ⟨n, hn⟩ := Nat.exists_eq_succ_of_ne_zero (Nat.ne_of_gt h.blockStepsLeft_pos)
  obtain ⟨t, ht, ha, herr, hleft⟩ := h.run_lt n (by omega)
  obtain ⟨v, hv, hdone, hverr⟩ := ha.last_step (by omega)
  rw [hn]
  exact ⟨v, ((run_add n 1 ht).trans (run_one t)).trans hv, hdone, hverr.trans herr⟩

/-- Settles O56: START leaves a command alone with all its block-steps to take, and each block-step takes one. -/
theorem commandReachesDone : Obligations.CommandReachesDone := by
  intro s f hl hf hback hq
  obtain ⟨t, ht, rfl, hrun, hleft⟩ := step_start hl hf hq
  have halone := State.Alone.mk hrun rfl hback rfl
  have hstart : ∀ n, Sys2Proof.core.run (1 + n) s = Sys2Proof.core.run n _ := fun n => by
    rw [Nat.add_comm]
    exact run_succ ht n
  rw [← hleft]
  refine ⟨fun n hn => ?_, ?_⟩
  · obtain ⟨v, hv, ha, -⟩ := halone.run_lt n hn
    exact ⟨v, (hstart n).trans hv, ha.busy⟩
  · obtain ⟨v, hv, hdone, herr⟩ := halone.run_done
    exact ⟨v, (hstart _).trans hv, hdone, herr⟩

end Sys2Proof.Machine
end

section
/-! PROOFS. What the DXT and the ETC rows leave unchanged (R109, R140, R149, logs 5 and 28). -/

namespace Sys2Proof.Machine

open Sys2Proof Sys2Proof.Claim

/-- A row writes neither a register, the cursor, memory nor the host's data (R109, R131). -/
theorem EngineOnly.keeps {s t : State} (h : EngineOnly s t) : Keeps s t := by
  rw [h]
  exact ⟨fun _ => rfl, rfl, rfl, rfl, rfl, fun _ => rfl, rfl, rfl, rfl⟩

theorem keepsUpperTile_setTile16 (px : Nat → Pixel) {s u : State} (h : u.tile = s.tile) :
    KeepsUpperTile s (setTile16 px u) := fun _ hn _ => by rw [tileAt_setTile16_ge px u hn, h]

theorem keepsUpperTile_setTileRgb16 (c : Nat → Rgb) {s u : State} (h : u.tile = s.tile) :
    KeepsUpperTile s (setTileRgb16 c u) := keepsUpperTile_setTile16 _ h

theorem keepsUpperTile_setTileAlpha16 (alpha : Nat → Byte) {s u : State} (h : u.tile = s.tile) :
    KeepsUpperTile s (setTileAlpha16 alpha u) := keepsUpperTile_setTile16 _ h

/-! ### The DXT rows -/

/-- A DXT1 row writes its tile entries and the colour palette alone (R146). -/
theorem dxt1State_frame (pal : Vector Pixel 4) (b : DxtColour) (s : State) :
    Keeps s (dxt1State pal b s) ∧ KeepsUpperTile s (dxt1State pal b s) ∧ (dxt1State pal b s).alphaPal = s.alphaPal ∧
      (dxt1State pal b s).etcBase = s.etcBase ∧ (dxt1State pal b s).etcPaint = s.etcPaint ∧
      (dxt1State pal b s).tex = s.tex := by
  refine ⟨(engineOnly_dxt1State pal b s).keeps, keepsUpperTile_setTile16 _ rfl, ?_⟩
  simp [dxt1State]

/-- The colour half of a DXT5 block writes the colours of its tile entries and the colour palette alone (R154). -/
theorem dxt5ColourState_frame (pal : Vector Pixel 4) (b : DxtColour) (s : State) :
    Keeps s (dxt5ColourState pal b s) ∧ KeepsUpperTile s (dxt5ColourState pal b s) ∧
      (dxt5ColourState pal b s).alphaPal = s.alphaPal ∧ (dxt5ColourState pal b s).etcBase = s.etcBase ∧
      (dxt5ColourState pal b s).etcPaint = s.etcPaint ∧ (dxt5ColourState pal b s).tex = s.tex := by
  refine ⟨(engineOnly_dxt5ColourState pal b s).keeps, keepsUpperTile_setTileRgb16 _ rfl, ?_⟩
  simp [dxt5ColourState]

/-- The alpha half of a DXT5 block writes the alpha of its tile entries and the alpha palette alone (R154). -/
theorem dxt5AlphaState_frame (pal : Vector Byte 8) (a : DxtAlpha) (s : State) :
    Keeps s (dxt5AlphaState pal a s) ∧ KeepsUpperTile s (dxt5AlphaState pal a s) ∧
      (dxt5AlphaState pal a s).colPal = s.colPal ∧ (dxt5AlphaState pal a s).etcBase = s.etcBase ∧
      (dxt5AlphaState pal a s).etcPaint = s.etcPaint ∧ (dxt5AlphaState pal a s).tex = s.tex := by
  refine ⟨(engineOnly_dxt5AlphaState pal a s).keeps, keepsUpperTile_setTileAlpha16 _ rfl, ?_⟩
  simp [dxt5AlphaState]

/-- Settles O29: each row is one of three updates of the tile and of one palette. -/
theorem dxtFrame : Obligations.DxtFrame := by
  refine fun b a s t => ⟨?_, ?_⟩
  · rintro (h | h | h) <;> cases h
    · exact dxt1State_frame ..
    · exact dxt1State_frame ..
    · exact dxt5ColourState_frame ..
  · rintro (h | h) <;> cases h <;> exact dxt5AlphaState_frame ..

/-! ### The ETC rows -/

/-- The engine's storage that every ETC row leaves: tile entries 16 to 31, the DXT palettes and the scratch. -/
structure KeepsOutsideEtc (s t : State) : Prop where
  upper : KeepsUpperTile s t
  colPal : t.colPal = s.colPal
  alphaPal : t.alphaPal = s.alphaPal
  tex : t.tex = s.tex

theorem keepsOutsideEtc_palettes (base : Vector Rgb 2) (paint : Vector Rgb 4) (s : State) :
    KeepsOutsideEtc s { s with etcBase := base, etcPaint := paint } := ⟨fun _ _ _ => rfl, rfl, rfl, rfl⟩

theorem KeepsOutsideEtc.setTile16 {s u : State} (h : KeepsOutsideEtc s u) (px : Nat → Pixel) :
    KeepsOutsideEtc s (setTile16 px u) :=
  ⟨fun n hn hlt => (tileAt_setTile16_ge px u hn).trans (h.upper n hn hlt), (setTile16_colPal px u).trans h.colPal,
    (setTile16_alphaPal px u).trans h.alphaPal, (setTile16_tex px u).trans h.tex⟩

theorem KeepsOutsideEtc.setTileAlpha16 {s u : State} (h : KeepsOutsideEtc s u) (alpha : Nat → Byte) :
    KeepsOutsideEtc s (setTileAlpha16 alpha u) := h.setTile16 _

theorem keepsOutsideEtc_etcColourState (etc2 : Bool) (w : BitVec 64) (s : State) :
    KeepsOutsideEtc s (etcColourState etc2 w s) := by
  unfold etcColourState
  split <;> exact .setTile16 (keepsOutsideEtc_palettes _ _ s) _

/-- A row of an ETC block writes palettes and tile entries 0 to 15; a combined block writes its alpha over that (R186, R190). -/
theorem keepsOutsideEtc_exec {i : Instr} {s t : State} (hk : i.kind = .etcColour true ∨ i.kind = .etcColour false ∨
    i.kind = .eacAlpha ∨ i.kind = .etc2a1 ∨ i.kind = .etc2a8) (h : exec i s = .next t) : KeepsOutsideEtc s t := by
  cases i <;> simp only [Instr.kind, reduceCtorEq, or_self] at hk <;> cases h
  case etc2a1Block | etc2a8Block => exact (keepsOutsideEtc_etcColourState true _ s).setTileAlpha16 _
  case eacAlpha => exact (keepsOutsideEtc_palettes s.etcBase s.etcPaint s).setTileAlpha16 _
  all_goals exact .setTile16 (keepsOutsideEtc_palettes _ _ s) _

/-- Settles O38: the rows write tile entries 0 to 15 and ETC palettes, and each mode its own palette. -/
theorem etcFrame : Obligations.EtcFrame := by
  intro i s t hk h
  obtain ⟨u, hu, eu⟩ := exec_row i s (by rintro hc; simp [hc] at hk) (by rintro hc; simp [hc] at hk)
  obtain rfl : u = t := Host.Outcome.next.inj (hu.symm.trans h)
  obtain ⟨hupper, hcol, halpha, htex⟩ := keepsOutsideEtc_exec hk h
  refine ⟨eu.keeps, hupper, hcol, halpha, htex, ?_, ?_, ?_⟩
  · rintro (⟨b, rfl⟩ | ⟨b, rfl⟩) <;> cases h
    · simp [etcIndividualState]
    · simp [etcDifferentialState]
  · rintro (⟨b, rfl⟩ | ⟨b, rfl⟩) <;> cases h
    · simp [etcTState]
    · simp [etcHState]
  · rintro (⟨b, rfl⟩ | ⟨b, rfl⟩) <;> cases h
    · simp [etcPlanarState]
    · simp [eacAlphaState]

end Sys2Proof.Machine
end

section
/-! PROOFS. The cursor's order: where the advance goes, by rows in WALK and by storage indices in EXPAND (R123, R222). -/

namespace Sys2Proof.Machine

open Sys2Proof

/-- A cursor within the columns is in a row of the grid exactly when its row-major position is below `nbx * nby`. -/
theorem rowMajor_lt_iff {g : Grid} {c : Cursor} (hs : c.s < g.nbx) :
    c.t * g.nbx + c.s < g.nbx * g.nby ↔ c.t < g.nby := by
  have hpos : 0 < g.nbx := Nat.zero_lt_of_lt hs
  have hrow : (c.t * g.nbx + c.s) / g.nbx = c.t := by
    rw [Nat.mul_comm, Nat.mul_add_div hpos, Nat.div_eq_of_lt hs, Nat.add_zero]
  rw [Nat.mul_comm g.nbx, ← Nat.div_lt_iff_lt_mul hpos, hrow]

/-- The advance stays within the columns and adds one to the row-major position: along the row, or from its end to the start of
the next (R123). -/
theorem advance_rowMajor {g : Grid} {c : Cursor} (hs : c.s < g.nbx) : (advance g c).s < g.nbx ∧
    (advance g c).t * g.nbx + (advance g c).s = c.t * g.nbx + c.s + 1 := by
  unfold advance
  split
  · exact ⟨by assumption, rfl⟩
  · have hend : c.s + 1 = g.nbx := by omega
    refine ⟨Nat.zero_lt_of_lt hs, ?_⟩
    calc (c.t + 1) * g.nbx + 0 = c.t * g.nbx + g.nbx := Nat.succ_mul ..
      _ = c.t * g.nbx + c.s + 1 := by omega

/-- The advance goes at most one row on (R123). -/
theorem advance_t_le (g : Grid) (c : Cursor) : (advance g c).t ≤ c.t + 1 := by
  unfold advance
  split
  · exact Nat.le_succ _
  · exact Nat.le_refl _

/-- Settles O48: the advance adds one to the row-major position, and so leaves the rows of the grid when the position reaches
`nbx * nby`. -/
theorem cursorOrder : Obligations.CursorOrder := by
  refine ⟨fun g c hs ht => ?_, fun g c _ => ⟨fun hmore => if_pos hmore, fun hlast => if_neg hlast.not_lt⟩⟩
  obtain ⟨hs', hnext⟩ := advance_rowMajor hs
  have hle : (advance g c).t ≤ g.nby := (advance_t_le g c).trans ht
  have hin := (rowMajor_lt_iff hs).2 ht
  have hin' := rowMajor_lt_iff hs'
  exact ⟨advance_phase g c, hs', hle, hnext, by omega⟩

end Sys2Proof.Machine
end

section
/-! PROOFS. The DXT rows: the palettes entry by entry, and the tile that a palette and its indices leave (R141 to R155). -/

namespace Sys2Proof.Machine

open Sys2Proof Sys2Proof.Claim

/-! ### Palette entries -/

/-- A weighted mean of two bytes, rounded down, is a byte: the interpolations of R144, R145, R151 and R152 lose nothing. -/
theorem toNat_ofNat_mean {p q d : Nat} (h : p + q = d) (x y : Byte) :
    (BitVec.ofNat 8 ((p * x.toNat + q * y.toNat) / d)).toNat = (p * x.toNat + q * y.toNat) / d := by
  have hle : p * x.toNat + q * y.toNat ≤ 255 * d := by
    have hx := Nat.mul_le_mul_left p (Nat.le_of_lt_succ x.isLt)
    have hy := Nat.mul_le_mul_left q (Nat.le_of_lt_succ y.isLt)
    omega
  have hbyte := Nat.div_le_of_le_mul (hle.trans_eq (Nat.mul_comm ..))
  rw [BitVec.toNat_ofNat, Nat.mod_eq_of_lt (Nat.lt_succ_of_le hbyte)]

/-- R144: the thirds towards either endpoint are entries 2 and 3. -/
theorem thirds_toNat (x y : Byte) :
    (thirds x y).toNat = four x.toNat y.toNat 2 ∧ (thirds y x).toNat = four x.toNat y.toNat 3 := by
  have hthirds : ∀ u v : Byte, (thirds u v).toNat = (2 * u.toNat + v.toNat) / 3 := fun u v => by
    have hmean := toNat_ofNat_mean (show 2 + 1 = 3 from rfl) u v
    rwa [Nat.one_mul] at hmean
  exact ⟨hthirds x y, (hthirds y x).trans (congrArg (· / 3) (Nat.add_comm ..))⟩

/-- R145: the half is entry 2. -/
theorem halves_toNat (x y : Byte) : (halves x y).toNat = three x.toNat y.toNat 2 := by
  have hmean := toNat_ofNat_mean (show 1 + 1 = 2 from rfl) x y
  rwa [Nat.one_mul, Nat.one_mul] at hmean

/-- R141: the channels of an expanded endpoint. -/
theorem expand565_toNat (q : BitVec 16) : (expand565 q).r.toNat = red565 q.toNat ∧
    (expand565 q).g.toNat = green565 q.toNat ∧ (expand565 q).b.toNat = blue565 q.toNat := by
  simp only [expand565, rep5_toNat, rep6_toNat, BitVec.extractLsb_toNat, Nat.shiftRight_eq_div_pow, red565, green565,
    blue565, rep5, rep6, Nat.reduceSub, Nat.reduceAdd, Nat.reducePow, Nat.div_one, and_self]

/-- R144: the entries of the four-colour palette. -/
theorem fourColour_get (q0 q1 : BitVec 16) (k : Fin 4) :
    FourColour q0.toNat q1.toNat k.val ((fourColour q0 q1).get k) ∧ ((fourColour q0 q1).get k).a = 255 := by
  obtain ⟨hr0, hg0, hb0⟩ := expand565_toNat q0
  obtain ⟨hr1, hg1, hb1⟩ := expand565_toNat q1
  rw [FourColour, ← hr0, ← hg0, ← hb0, ← hr1, ← hg1, ← hb1]
  fin_cases k
  · exact ⟨⟨rfl, rfl, rfl⟩, rfl⟩
  · exact ⟨⟨rfl, rfl, rfl⟩, rfl⟩
  · exact ⟨⟨(thirds_toNat ..).1, (thirds_toNat ..).1, (thirds_toNat ..).1⟩, rfl⟩
  · exact ⟨⟨(thirds_toNat ..).2, (thirds_toNat ..).2, (thirds_toNat ..).2⟩, rfl⟩

/-- R145: the entries of the three-colour palette. -/
theorem threeColour_get (q0 q1 : BitVec 16) (k : Fin 4) :
    ThreeColour q0.toNat q1.toNat k.val ((threeColour q0 q1).get k) ∧ ((threeColour q0 q1).get k).a = 255 := by
  obtain ⟨hr0, hg0, hb0⟩ := expand565_toNat q0
  obtain ⟨hr1, hg1, hb1⟩ := expand565_toNat q1
  rw [ThreeColour, ← hr0, ← hg0, ← hb0, ← hr1, ← hg1, ← hb1]
  fin_cases k
  · exact ⟨⟨rfl, rfl, rfl⟩, rfl⟩
  · exact ⟨⟨rfl, rfl, rfl⟩, rfl⟩
  · exact ⟨⟨halves_toNat .., halves_toNat .., halves_toNat ..⟩, rfl⟩
  · exact ⟨⟨rfl, rfl, rfl⟩, rfl⟩

theorem dxt1Palette_of_gt {q0 q1 : BitVec 16} (h : q1.toNat < q0.toNat) : dxt1Palette q0 q1 = fourColour q0 q1 := if_pos h

theorem dxt1Palette_of_le {q0 q1 : BitVec 16} (h : q0.toNat ≤ q1.toNat) : dxt1Palette q0 q1 = threeColour q0 q1 :=
  if_neg h.not_gt

/-- R148: a DXT1 palette has no transparent entry. -/
theorem dxt1Palette_get_a (q0 q1 : BitVec 16) (k : Fin 4) : ((dxt1Palette q0 q1).get k).a = 255 := by
  rcases Nat.lt_or_ge q1.toNat q0.toNat with h | h
  · rw [dxt1Palette_of_gt h]; exact (fourColour_get q0 q1 k).2
  · rw [dxt1Palette_of_le h]; exact (threeColour_get q0 q1 k).2

/-- R153: a pixel has the colour of entry `k` of a DXT5 block's palette, under either value of `DXT5_COLOR_MODE`. -/
def Dxt5Colour (mode : Dxt5ColorMode) (q0 q1 k : Nat) (p : Pixel) : Prop :=
  ((mode = .alwaysFour ∨ q1 < q0) → FourColour q0 q1 k p) ∧ (mode = .asDxt1 → q0 ≤ q1 → ThreeColour q0 q1 k p)

/-- R153: the entries of a DXT5 colour palette. -/
theorem dxt5Palette_get (mode : Dxt5ColorMode) (q0 q1 : BitVec 16) (k : Fin 4) :
    Dxt5Colour mode q0.toNat q1.toNat k.val ((dxt5Palette mode q0 q1).get k) := by
  have hfour := (fourColour_get q0 q1 k).1
  cases mode with
  | alwaysFour => exact ⟨fun _ => hfour, fun h => nomatch h⟩
  | asDxt1 =>
    refine ⟨fun h => ?_, fun _ hle => ?_⟩
    · have hgt : q1.toNat < q0.toNat := h.resolve_left (fun h => nomatch h)
      rw [dxt5Palette, dxt1Palette_of_gt hgt]
      exact hfour
    · rw [dxt5Palette, dxt1Palette_of_le hle]
      exact (threeColour_get q0 q1 k).1

/-- R151: the entries of the ramp with divisor 7. -/
theorem alpha7Palette_get (a0 a1 : Byte) (k : Fin 8) :
    ((alpha7Palette a0 a1).get k).toNat = alphaRamp7 a0.toNat a1.toNat k.val := by
  have hget : (alpha7Palette a0 a1).get k = ramp7 a0 a1 k.val := by
    simp [alpha7Palette, Vector.get_eq_getElem]
  rw [hget]
  unfold ramp7 alphaRamp7
  split
  · rfl
  · split
    · rfl
    · exact toNat_ofNat_mean (by omega) a0 a1

/-- R152: the entries of the ramp with divisor 5. -/
theorem alpha5Palette_get (a0 a1 : Byte) (k : Fin 8) :
    ((alpha5Palette a0 a1).get k).toNat = alphaRamp5 a0.toNat a1.toNat k.val := by
  have hget : (alpha5Palette a0 a1).get k = ramp5 a0 a1 k.val := by
    simp [alpha5Palette, Vector.get_eq_getElem]
  rw [hget]
  unfold ramp5 alphaRamp5
  split
  · rfl
  split
  · rfl
  split
  · rfl
  split
  · rfl
  · exact toNat_ofNat_mean (by omega) a0 a1

/-! ### Indices -/

/-- Index `i` of an index field of `w`-bit indices is its digit in base `2 ^ w` (R74, R75). -/
theorem toNat_extractLsb'_eq_digit {n : Nat} (x : BitVec n) (w i : Nat) :
    (x.extractLsb' (w * i) w).toNat = digit (2 ^ w) x.toNat i := by
  rw [BitVec.extractLsb'_toNat, Nat.shiftRight_eq_div_pow, digit, Nat.pow_mul]

/-- What holds of every entry of a colour palette holds of the entry that an index selects (R146). -/
theorem dxtSelect_of_entries {P : Nat → Pixel → Prop} {pal : Vector Pixel 4} (h : ∀ k : Fin 4, P k.val (pal.get k))
    (idx : BitVec 32) (i : Nat) : P (digit 4 idx.toNat i) (dxtSelect pal idx i) := by
  have hk := h (idx.extractLsb' (2 * i) 2).toFin
  rwa [BitVec.val_toFin, toNat_extractLsb'_eq_digit] at hk

/-- The same of an alpha palette (R154). -/
theorem alphaSelect_of_entries {P : Nat → Byte → Prop} {pal : Vector Byte 8} (h : ∀ k : Fin 8, P k.val (pal.get k))
    (idx : BitVec 48) (i : Nat) : P (digit 8 idx.toNat i) (alphaSelect pal idx i) := by
  have hk := h (idx.extractLsb' (3 * i) 3).toFin
  rwa [BitVec.val_toFin, toNat_extractLsb'_eq_digit] at hk

/-! ### The rows -/

/-- A DXT1 row leaves its palette in the registers and, in each pixel, the entry of its index (R146). -/
theorem dxt1State_of_entries {P : Nat → Pixel → Prop} {pal : Vector Pixel 4} (h : ∀ k : Fin 4, P k.val (pal.get k))
    (b : DxtColour) (s : State) : (∀ k : Fin 4, P k.val ((dxt1State pal b s).colPal.get k)) ∧
      ∀ n, n < 16 → P (digit 4 b.idx.toNat n) (tileAt (dxt1State pal b s).tile n) := by
  unfold dxt1State
  refine ⟨by rwa [setTile16_colPal], fun n hn => ?_⟩
  rw [tileAt_setTile16 _ _ hn]
  exact dxtSelect_of_entries h b.idx n

/-- The alpha half of a DXT5 block leaves its ramp in the registers and, in each pixel, the entry of its index (R154). -/
theorem dxt5AlphaState_of_ramp {ramp : Nat → Nat} {pal : Vector Byte 8} (h : ∀ k : Fin 8, (pal.get k).toNat = ramp k.val)
    (a : DxtAlpha) (s : State) : (∀ k : Fin 8, ((dxt5AlphaState pal a s).alphaPal.get k).toNat = ramp k.val) ∧
      (∀ n, n < 16 → (tileAt (dxt5AlphaState pal a s).tile n).a.toNat = ramp (digit 8 a.idx.toNat n)) ∧
      KeepsColours s (dxt5AlphaState pal a s) := by
  unfold dxt5AlphaState
  refine ⟨by rwa [setTileAlpha16_alphaPal], fun n hn => ?_, fun n _ => ?_⟩
  · rw [tileAt_setTileAlpha16 _ _ hn]
    exact alphaSelect_of_entries (P := fun k v => v.toNat = ramp k) h a.idx n
  · rcases Nat.lt_or_ge n 16 with hn | hn
    · rw [tileAt_setTileAlpha16 _ _ hn]
      exact ⟨rfl, rfl, rfl⟩
    · rw [tileAt_setTileAlpha16_ge _ _ hn]
      exact ⟨rfl, rfl, rfl⟩

/-- The colour half of a DXT5 block leaves in each pixel the colour of its index's entry, under the alpha it finds (R154). -/
theorem tileAt_dxt5ColourState (pal : Vector Pixel 4) (b : DxtColour) (s : State) {n : Nat} (h : n < 16) :
    tileAt (dxt5ColourState pal b s).tile n = { dxtSelect pal b.idx n with a := (tileAt s.tile n).a } :=
  tileAt_setTileRgb16 _ _ h

/-- Settles O23: the entries are those of the four-colour palette, and the row hands them on. -/
theorem dxt1FourResult : Obligations.Dxt1FourResult := fun b s =>
  ⟨_, rfl, dxt1State_of_entries (P := fun k p => FourColour b.q0.toNat b.q1.toNat k p ∧ p.a = 255)
    (fourColour_get b.q0 b.q1) b s⟩

/-- Settles O24: the entries are those of the three-colour palette, and the row hands them on. -/
theorem dxt1ThreeResult : Obligations.Dxt1ThreeResult := fun b s =>
  ⟨_, rfl, dxt1State_of_entries (P := fun k p => ThreeColour b.q0.toNat b.q1.toNat k p ∧ p.a = 255)
    (threeColour_get b.q0 b.q1) b s⟩

/-- Settles O26: the entries are those of the ramp with divisor 7, and the row hands them on. -/
theorem dxt5Alpha7Result : Obligations.Dxt5Alpha7Result := fun a s =>
  ⟨_, rfl, dxt5AlphaState_of_ramp (alpha7Palette_get a.a0 a.a1) a s⟩

/-- Settles O27: the entries are those of the ramp with divisor 5, and the row hands them on. -/
theorem dxt5Alpha5Result : Obligations.Dxt5Alpha5Result := fun a s =>
  ⟨_, rfl, dxt5AlphaState_of_ramp (alpha5Palette_get a.a0 a.a1) a s⟩

/-- Settles O28: the palette is that of the mode, and each pixel takes the colour of its entry and keeps its alpha. -/
theorem dxt5ColorResult : Obligations.Dxt5ColorResult := by
  intro b s
  have hpal := dxt5Palette_get s.cfg.dxt5ColorMode b.q0 b.q1
  refine ⟨_, rfl, ?_, fun n hn => ?_⟩
  · rwa [dxt5ColourState, setTileRgb16_colPal]
  · rw [tileAt_dxt5ColourState _ _ _ hn]
    exact ⟨rfl, dxtSelect_of_entries (P := Dxt5Colour s.cfg.dxt5ColorMode b.q0.toNat b.q1.toNat) hpal b.idx n⟩

/-! ### The laws of DXT1 (R148) -/

/-- The fields of a DXT colour block as numbers of its bytes (R74). -/
theorem dxtColourOf_toNat {bs : List Byte} (hlen : bs.length = 8) :
    (dxtColourOf (BitVec.ofNat 64 (leNat bs))).q0.toNat = byte bs 0 + 256 * byte bs 1 ∧
    (dxtColourOf (BitVec.ofNat 64 (leNat bs))).q1.toNat = byte bs 2 + 256 * byte bs 3 ∧
    (dxtColourOf (BitVec.ofNat 64 (leNat bs))).idx.toNat = le (bs.drop 4) := by
  have hlt := leNat_lt bs
  rw [hlen] at hlt
  simp only [dxtColourOf, toNat_field, byte_eq_leNat, le_eq_leNat, leNat_drop]
  omega

/-- With equal endpoints the three-colour palette is the endpoint three times, then black. -/
theorem three_self {k : Nat} (hk : k < 4) (x : Nat) : three x x k = if k = 3 then 0 else x := by
  unfold three
  split_ifs <;> omega

/-- The expansion of R141 takes 0 alone to black. -/
theorem expanded_black_iff {q : Nat} (h : q < 65536) : (red565 q = 0 ∧ green565 q = 0 ∧ blue565 q = 0) ↔ q = 0 := by
  unfold red565 green565 blue565 rep5 rep6
  omega

/-- A solid block's opaque pixel has the endpoint's colour unless its index is 3, where it is black. -/
theorem pixelIs_of_solid {q k : Nat} {p : Pixel} (hq : q < 65536) (hk : k < 4) (hp : ThreeColour q q k p) (ha : p.a = 255) :
    (PixelIs p (red565 q) (green565 q) (blue565 q) 255 ↔ k ≠ 3 ∨ q = 0) ∧ (k = 3 → PixelIs p 0 0 0 255) := by
  obtain ⟨hr, hg, hb⟩ := hp
  rw [three_self hk] at hr hg hb
  have hblack := expanded_black_iff hq
  have ha' : p.a.toNat = 255 := by rw [ha]; rfl
  simp only [PixelIs]
  by_cases h3 : k = 3
  · simp only [h3, if_true] at hr hg hb
    omega
  · simp only [h3, if_false] at hr hg hb
    omega

/-- Settles O25: equal endpoints select the three-colour palette, whose entries are the endpoint's colour and black. -/
theorem dxt1Laws : Obligations.Dxt1Laws := by
  intro bs s hlen
  obtain ⟨hq0, hq1, hidx⟩ := dxtColourOf_toNat hlen
  refine ⟨_, _, decode_little hlen rfl, exec_decodeDxt1Word _ s, ?_, fun h02 h13 n hn => ?_⟩
  · exact (dxt1State_of_entries (P := fun _ p => p.a = 255) (dxt1Palette_get_a _ _) _ s).2
  · generalize dxtColourOf (BitVec.ofNat 64 (leNat bs)) = b at hq0 hq1 hidx
    have heq : b.q1.toNat = b.q0.toNat := by rw [hq0, hq1, h02, h13]
    rw [dxt1Palette_of_le heq.ge]
    obtain ⟨hcolour, halpha⟩ := (dxt1State_of_entries
      (P := fun k p => ThreeColour b.q0.toNat b.q1.toNat k p ∧ p.a = 255) (threeColour_get b.q0 b.q1) b s).2 n hn
    rw [heq, hidx, hq0] at hcolour
    have hsolid := pixelIs_of_solid (hq0 ▸ b.q0.isLt) (Nat.mod_lt _ (by decide)) hcolour halpha
    have hzero : byte bs 0 + 256 * byte bs 1 = 0 ↔ byte bs 0 = 0 ∧ byte bs 1 = 0 := by omega
    rwa [hzero] at hsolid

/-! ### Blocks of every format -/

/-- Settles O51: format by format, the rows leave the tile of the block function. -/
theorem rowsComputeBlock : Obligations.RowsComputeBlock := fun _ _ s hf hlen => rows_compute_block s hf hlen

end Sys2Proof.Machine
end

section
/-! PROOFS. The mode of an ETC colour block: what the diff bit and the three sums select, and where ETC1 and ETC2 agree (R171
to R174, R185). -/

namespace Sys2Proof.Machine

open Sys2Proof Sys2Proof.Claim

/-! ### The tests on bytes -/

/-- The decoder's range test on the fields `R dR` of a byte (R172, R185). -/
theorem sumInRange_eq_false_iff {c : BitVec 5} {d : BitVec 3} {n : Nat} (hc : c.toNat = n / 8) (hd : d.toNat = n % 8) :
    sumInRange c d = false ↔ OutOfRange n := by
  rw [← Bool.not_eq_true, sumInRange_iff, sext3_eq, hc, hd, OutOfRange, signed3]
  omega

/-- The diff bit is bit 1 of byte 3 (R171). -/
theorem etcDiffBit {bs : List Byte} (hlen : bs.length = 8) :
    (BitVec.ofNat 64 (beNat bs)).getLsbD 33 = decide (byte bs 3 / 2 % 2 = 1) := by
  rw [BitVec.getLsbD_ofNat, Nat.testBit_eq_decide_div_mod_eq, byte_eight hlen (by decide), decide_eq_true (by decide),
    Bool.true_and]
  congr 2
  omega

/-- The three sums are those of bytes 0, 1 and 2 (R172, R173). -/
theorem etcSums {bs : List Byte} (hlen : bs.length = 8) :
    let b := etcDifferentialOf (BitVec.ofNat 64 (beNat bs))
    (sumInRange b.r b.dr = false ↔ OutOfRange (byte bs 0)) ∧ (sumInRange b.g b.dg = false ↔ OutOfRange (byte bs 1)) ∧
      (sumInRange b.b b.db = false ↔ OutOfRange (byte bs 2)) := by
  have hlt := beNat_lt bs
  rw [hlen] at hlt
  refine ⟨?_, ?_, ?_⟩ <;> refine sumInRange_eq_false_iff ?_ ?_
  all_goals
    simp (disch := decide) only [etcDifferentialOf, toNat_field, byte_eight hlen]
    omega

/-! ### The selection -/

theorem etcMode_of_diff_false (etc2 : Bool) {w : BitVec 64} (h : w.getLsbD 33 = false) : etcMode etc2 w = .individual :=
  if_pos h

/-- With the diff bit the first sum out of range decides in ETC2, and none does in ETC1 (R172 to R174). -/
theorem etcMode_of_diff_true (etc2 : Bool) {w : BitVec 64} (h : w.getLsbD 33 = true) :
    etcMode etc2 w =
      if etc2 && !sumInRange (etcDifferentialOf w).r (etcDifferentialOf w).dr then .t
      else if etc2 && !sumInRange (etcDifferentialOf w).g (etcDifferentialOf w).dg then .h
      else if etc2 && !sumInRange (etcDifferentialOf w).b (etcDifferentialOf w).db then .planar
      else .differential := if_neg (Bool.not_eq_false _ ▸ h)

/-- Settles O6: the word's diff bit and sums are those of its first bytes, and the decoder takes them in the rules' order. -/
theorem etcModeSelection : Obligations.EtcModeSelection := by
  intro etc2 bs hlen
  have hdiff := etcDiffBit hlen
  obtain ⟨hred, hgreen, hblue⟩ := etcSums hlen
  refine ⟨_, decode_big hlen rfl, ?_⟩
  generalize BitVec.ofNat 64 (beNat bs) = w at *
  have hmode := fun h => etcMode_of_diff_true etc2 (hdiff.trans (decide_eq_true h))
  simp only [← hred, ← hgreen, ← hblue, Bool.not_eq_false]
  refine ⟨fun h => ⟨etcIndividualOf w, ?_⟩, fun h he hr => ⟨etcTOf w, ?_⟩, fun h he hr hg => ⟨etcHOf w, ?_⟩,
    fun h he hr hg hb => ⟨etcPlanarOf w, ?_⟩, fun h hin => ⟨etcDifferentialOf w, ?_⟩⟩
  · have hzero : w.getLsbD 33 = false := hdiff.trans (by rw [h]; rfl)
    rw [decodeEtcColourWord, etcMode_of_diff_false etc2 hzero]
  · rw [decodeEtcColourWord, hmode h, he, hr]
    rfl
  · rw [decodeEtcColourWord, hmode h, he, hr, hg]
    rfl
  · rw [decodeEtcColourWord, hmode h, he, hr, hg, hb]
    rfl
  · rw [decodeEtcColourWord, hmode h]
    rcases hin with he | ⟨hr, hg, hb⟩
    · rw [he]
      rfl
    · rw [hr, hg, hb, Bool.not_true, Bool.and_false]
      rfl

/-! ### ETC1 against ETC2 (R185) -/

/-- A word's rows are those of its mode: two readings agree exactly when their modes do. -/
theorem decodeEtcColourWord_eq_iff (e e' : Bool) (w : BitVec 64) :
    decodeEtcColourWord e w = decodeEtcColourWord e' w ↔ etcMode e w = etcMode e' w := by
  refine ⟨fun h => ?_, fun h => by rw [decodeEtcColourWord, decodeEtcColourWord, h]⟩
  unfold decodeEtcColourWord at h
  cases hm : etcMode e w <;> cases hm' : etcMode e' w <;> simp [hm, hm'] at h ⊢

/-- With the diff bit an ETC2 word is a Differential block exactly when its sums are in range (R174). -/
theorem etcMode_true_eq_differential_iff {w : BitVec 64} (h : w.getLsbD 33 = true) :
    etcMode true w = .differential ↔ (etcDifferentialOf w).sumsInRange = true := by
  rw [etcMode_of_diff_true true h, EtcDifferential.sumsInRange]
  cases sumInRange (etcDifferentialOf w).r (etcDifferentialOf w).dr with
  | false => simp
  | true =>
    cases sumInRange (etcDifferentialOf w).g (etcDifferentialOf w).dg with
    | false => simp
    | true => cases sumInRange (etcDifferentialOf w).b (etcDifferentialOf w).db <;> simp

/-- The modes agree without the diff bit, where both are Individual, and with all sums in range, where both are Differential. -/
theorem etcMode_false_eq_true_iff (w : BitVec 64) :
    etcMode false w = etcMode true w ↔ w.getLsbD 33 = false ∨ (etcDifferentialOf w).sumsInRange = true := by
  cases hdiff : w.getLsbD 33 with
  | false => simp only [etcMode_of_diff_false _ hdiff, true_or]
  | true =>
    have hetc1 : etcMode false w = .differential := etcMode_of_diff_true false hdiff
    rw [hetc1, eq_comm, etcMode_true_eq_differential_iff hdiff, Bool.true_eq_false, false_or]

/-- Settles O37: the readings agree when the modes do, which the diff bit and the sums of the first bytes decide. -/
theorem etc1Etc2Agree : Obligations.Etc1Etc2Agree := by
  intro bs hlen
  have hdecode : ∀ e, decode (.etcColour e) bs = .ok (decodeEtcColourWord e (BitVec.ofNat 64 (beNat bs))) :=
    fun e => decode_big hlen rfl
  obtain ⟨hred, hgreen, hblue⟩ := etcSums hlen
  rw [hdecode, hdecode, Except.ok.injEq, decodeEtcColourWord_eq_iff, etcMode_false_eq_true_iff, etcDiffBit hlen,
    decide_eq_false_iff_not, Nat.mod_two_not_eq_one]
  simp only [← hred, ← hgreen, ← hblue, Bool.not_eq_false, EtcDifferential.sumsInRange, Bool.and_eq_true, and_assoc]

end Sys2Proof.Machine
end

section
/-! PROOFS. The ETC rows: the palettes entry by entry, the pixels in the block's order, and the alpha of the combined blocks
(R175 to R190). -/

namespace Sys2Proof.Machine

open Sys2Proof Sys2Proof.Claim

/-! ### Pixels and codes (R175 to R178) -/

theorem raster_lt {p : Nat} (hp : p < 16) : raster p < 16 := by
  unfold raster
  omega

/-- The map of R175 is its own inverse. -/
theorem etcRaster_raster {p : Nat} (hp : p < 16) : etcRaster (raster p) = p := by
  unfold etcRaster raster
  omega

theorem toNat_ofBool_getLsbD {n : Nat} (x : BitVec n) (p : Nat) : (BitVec.ofBool (x.getLsbD p)).toNat = digit 2 x.toNat p := by
  rw [BitVec.toNat_ofBool, BitVec.getLsbD, Nat.toNat_testBit, digit]

/-- R176. -/
theorem etcCode_toNat (m l : BitVec 16) (p : Nat) : (etcCode m l p).toNat = code m.toNat l.toNat p := by
  rw [etcCode, toNat_append_eq_add, toNat_ofBool_getLsbD, toNat_ofBool_getLsbD, Nat.pow_one, code]

/-- R177. -/
theorem etcSub_eq (flip : BitVec 1) {p : Nat} (hp : p < 16) : etcSub flip p = if sub flip.toNat p = 1 then 1 else 0 := by
  have hblock : ∀ (flip : BitVec 1) (p : Fin 16), etcSub flip p = if sub flip.toNat p = 1 then 1 else 0 := by decide
  exact hblock flip ⟨p, hp⟩

/-- R178. -/
theorem etcOffset_eq (cfg : Config) (tw : BitVec 3) (c : BitVec 2) :
    etcOffset cfg tw c = offset (cfg.etcModifier.get tw.toFin) c.toNat := by
  have hc : c.toNat < 4 := c.isLt
  unfold etcOffset offset
  generalize c.toNat = n at hc
  interval_cases n <;> rfl

/-! ### Colours (R179, R181) -/

/-- R179: an offset added to a colour, each channel clamped on its own. -/
theorem rgbIs_addClamp {c : Rgb} {r g b : Int} (h : RgbIs c r g b) (d : Int) :
    RgbIs (c.addClamp d) (clamp (r + d)) (clamp (g + d)) (clamp (b + d)) := by
  obtain ⟨hr, hg, hb⟩ := h
  rw [← hr, ← hg, ← hb]
  exact ⟨clamp255_toNat _, clamp255_toNat _, clamp255_toNat _⟩

theorem pixelIs_withAlpha {c : Rgb} {r g b : Int} (h : RgbIs c r g b) : PixelIs (c.withAlpha 255) r g b 255 := by
  obtain ⟨hr, hg, hb⟩ := h
  exact ⟨hr, hg, hb, rfl⟩

theorem rgbIs_rep4 (r g b : BitVec 4) :
    RgbIs ⟨rep r, rep g, rep b⟩ (rep4 r.toNat : Nat) (rep4 g.toNat : Nat) (rep4 b.toNat : Nat) := by
  simp only [RgbIs, rep4_toNat, rep4, and_self]

theorem rgbIs_rep5 (r g b : BitVec 5) :
    RgbIs ⟨rep r, rep g, rep b⟩ (rep5 r.toNat : Nat) (rep5 g.toNat : Nat) (rep5 b.toNat : Nat) := by
  simp only [RgbIs, rep5_toNat, rep5, and_self]

/-- R181: the sum of base and delta, wrapped to five bits. -/
theorem addDelta_toNat (mode : Etc1DiffOverflow) (c : BitVec 5) (d : BitVec 3) :
    (addDelta mode c d).toNat = (((c.toNat : Int) + signed3 d.toNat) % 32).toNat := by
  cases mode
  rw [addDelta, BitVec.toNat_ofInt, sext3_eq, signed3]
  rfl

/-! ### Individual and Differential (R179 to R181) -/

/-- A pixel is the base colour of its sub-block under the offset of its code (R177 to R179). -/
theorem pixelIs_etcModulated (cfg : Config) {base : Vector Rgb 2} (tw0 tw1 : BitVec 3) {flip : BitVec 1} (m l : BitVec 16)
    {p : Nat} (hp : p < 16) {r g b : Int} (h : RgbIs (base.get (if sub flip.toNat p = 1 then 1 else 0)) r g b) :
    let d := offset (cfg.etcModifier.get (if sub flip.toNat p = 1 then tw1 else tw0).toFin) (code m.toNat l.toNat p)
    PixelIs (etcModulated cfg base tw0 tw1 flip m l (raster p)) (clamp (r + d)) (clamp (g + d)) (clamp (b + d)) 255 := by
  have htw : (if etcSub flip p = 0 then tw0 else tw1) = if sub flip.toNat p = 1 then tw1 else tw0 := by
    by_cases hsub : sub flip.toNat p = 1 <;> simp [etcSub_eq flip hp, hsub]
  rw [etcModulated, etcRaster_raster hp, htw, etcSub_eq flip hp, etcOffset_eq, etcCode_toNat]
  exact pixelIs_withAlpha (rgbIs_addClamp h _)

/-- Settles O30: the bases are the replicated colours, and each pixel is modulated from the base of its sub-block. -/
theorem etcIndividualResult : Obligations.EtcIndividualResult := by
  refine ⟨rfl, fun b s => ⟨_, rfl, ?_⟩⟩
  have hbase0 : RgbIs ((individualBase b).get 0) _ _ _ := rgbIs_rep4 b.r1 b.g1 b.b1
  have hbase1 : RgbIs ((individualBase b).get 1) _ _ _ := rgbIs_rep4 b.r2 b.g2 b.b2
  rw [etcIndividualState, setTile16_etcBase]
  refine ⟨hbase0, hbase1, fun p hp => ?_⟩
  rw [tileAt_setTile16 _ _ (raster_lt hp)]
  refine pixelIs_etcModulated s.cfg b.tw0 b.tw1 b.m b.l hp ?_
  split_ifs
  · exact hbase1
  · exact hbase0

/-- Settles O31: the second base is the wrapped sum, and each pixel is modulated from the base of its sub-block. -/
theorem etcDifferentialResult : Obligations.EtcDifferentialResult := by
  refine fun b s => ⟨_, rfl, ?_⟩
  have hbase0 : RgbIs ((differentialBase s.cfg.etc1DiffOverflow b).get 0) _ _ _ := rgbIs_rep5 b.r b.g b.b
  have hbase1 : RgbIs ((differentialBase s.cfg.etc1DiffOverflow b).get 1) _ _ _ := rgbIs_rep5 (addDelta _ b.r b.dr) _ _
  simp only [addDelta_toNat] at hbase1
  rw [etcDifferentialState, setTile16_etcBase]
  refine ⟨hbase0, hbase1, fun p hp => ?_⟩
  rw [tileAt_setTile16 _ _ (raster_lt hp)]
  refine pixelIs_etcModulated s.cfg b.tw0 b.tw1 b.m b.l hp ?_
  split_ifs
  · exact hbase1
  · exact hbase0

/-! ### T and H (R182, R183) -/

/-- A T or H row leaves its paint colours in the registers and, in each pixel, the opaque colour of its code. -/
theorem painted_of_entries {r g b : Nat → Int} {paint : Vector Rgb 4}
    (h : ∀ c : Fin 4, RgbIs (paint.get c) (r c.val) (g c.val) (b c.val)) (m l : BitVec 16) (s : State) :
    let t := setTile16 (etcPainted paint m l) { s with etcPaint := paint }
    (∀ c : Fin 4, RgbIs (t.etcPaint.get c) (r c.val) (g c.val) (b c.val)) ∧ ∀ p, p < 16 →
      PixelIs (tileAt t.tile (raster p)) (r (code m.toNat l.toNat p)) (g (code m.toNat l.toNat p))
        (b (code m.toNat l.toNat p)) 255 := by
  refine ⟨by rwa [setTile16_etcPaint], fun p hp => ?_⟩
  rw [tileAt_setTile16 _ _ (raster_lt hp), etcPainted, etcRaster_raster hp, ← etcCode_toNat]
  exact pixelIs_withAlpha (h (etcCode m l p).toFin)

/-- R182: a channel of paint colour `c` of a T block, from the channel of the two colours and the distance. -/
def tChannel (d : Int) (x y : BitVec 4) (c : Nat) : Int :=
  if c = 0 then ((rep4 x.toNat : Nat) : Int)
  else if c = 1 then clamp ((rep4 y.toNat : Nat) + d)
  else if c = 2 then ((rep4 y.toNat : Nat) : Int)
  else clamp ((rep4 y.toNat : Nat) - d)

/-- R182: the paint colours of a T block. -/
theorem tPaint_get (cfg : Config) (b : EtcT) (c : Fin 4) :
    let d : Int := ((cfg.etcDistance.get b.di.toFin : Nat) : Int)
    RgbIs ((tPaint cfg b).get c) (tChannel d b.r1 b.r2 c.val) (tChannel d b.g1 b.g2 c.val) (tChannel d b.b1 b.b2 c.val) := by
  fin_cases c
  · exact rgbIs_rep4 b.r1 b.g1 b.b1
  · exact rgbIs_addClamp (rgbIs_rep4 b.r2 b.g2 b.b2) _
  · exact rgbIs_rep4 b.r2 b.g2 b.b2
  · exact rgbIs_addClamp (rgbIs_rep4 b.r2 b.g2 b.b2) _

/-- Settles O32: the paint colours are those of the rule, and the row hands them on. -/
theorem etcTResult : Obligations.EtcTResult :=
  ⟨rfl, fun b s => ⟨_, rfl, painted_of_entries (tPaint_get s.cfg b) b.m b.l s⟩⟩

/-- R183: a channel of paint colour `c` of an H block, from the channel of the two colours and the distance. -/
def hChannel (d : Int) (x y : BitVec 4) (c : Nat) : Int :=
  clamp ((rep4 (if c < 2 then x else y).toNat : Nat) + (if c % 2 = 0 then d else -d))

/-- R183: the paint colours of an H block. -/
theorem hPaint_get (cfg : Config) (b : EtcH) (c : Fin 4) :
    let d : Int := ((cfg.etcDistance.get (hDistanceIndex b).toFin : Nat) : Int)
    RgbIs ((hPaint cfg b).get c) (hChannel d b.r1 b.r2 c.val) (hChannel d b.g1 b.g2 c.val) (hChannel d b.b1 b.b2 c.val) := by
  fin_cases c
  · exact rgbIs_addClamp (rgbIs_rep4 b.r1 b.g1 b.b1) _
  · exact rgbIs_addClamp (rgbIs_rep4 b.r1 b.g1 b.b1) _
  · exact rgbIs_addClamp (rgbIs_rep4 b.r2 b.g2 b.b2) _
  · exact rgbIs_addClamp (rgbIs_rep4 b.r2 b.g2 b.b2) _

/-- The order of the packed colours is the lexicographic one, red first, with equal triples counted (R183). -/
theorem hTieBreak_iff (b : EtcH) :
    hTieBreak b = true ↔ b.r2.toNat < b.r1.toNat ∨ (b.r1 = b.r2 ∧ (b.g2.toNat < b.g1.toNat ∨
      (b.g1 = b.g2 ∧ b.b2.toNat ≤ b.b1.toNat))) := by
  simp only [hTieBreak, decide_eq_true_eq, toNat_append_eq_add, ← BitVec.toNat_inj]
  omega

/-- R183: the distance index. -/
theorem hDistanceIndex_toNat (b : EtcH) :
    (hDistanceIndex b).toNat = 4 * b.da.toNat + 2 * b.db.toNat +
      (if b.r2.toNat < b.r1.toNat ∨ (b.r1 = b.r2 ∧ (b.g2.toNat < b.g1.toNat ∨
        (b.g1 = b.g2 ∧ b.b2.toNat ≤ b.b1.toNat))) then 1 else 0) := by
  simp only [hDistanceIndex, toNat_append_eq_add, BitVec.toNat_ofBool, ← hTieBreak_iff]
  cases hTieBreak b <;> simp <;> omega

/-- Settles O33: the index is completed by the comparison, the paint colours are those of the rule, and the row hands them on. -/
theorem etcHResult : Obligations.EtcHResult := fun b s =>
  ⟨_, rfl, (hDistanceIndex b).toFin, hDistanceIndex_toNat b, painted_of_entries (hPaint_get s.cfg b) b.m b.l s⟩

/-! ### Planar (R184) -/

/-- R184: the blend, its shift a floor division. -/
theorem planarChannel_toNat (o h v : Byte) (x y : Nat) :
    ((planarChannel o h v x y).toNat : Int) = planar o.toNat h.toNat v.toNat x y := by
  have hshift : ∀ n : Int, n >>> (2 : Nat) = n / 4 := fun n => Int.shiftRight_eq_div_pow n 2
  rw [planarChannel, clamp255_toNat, planar, ← hshift]
  refine congrArg clamp ?_
  generalize _ + (2 : Int) = n
  cases n <;> rfl

/-- Settles O34: each channel is the blend of its three widened corners at the pixel's column and row. -/
theorem etcPlanarResult : Obligations.EtcPlanarResult := by
  refine fun b s => ⟨_, rfl, fun x y hx hy => ?_⟩
  have hcol : (4 * y + x) % 4 = x := by omega
  have hrow : (4 * y + x) / 4 = y := by omega
  rw [etcPlanarState, tileAt_setTile16 _ _ (by omega), planarPixel, hcol, hrow]
  simp only [PixelIs, planarChannel_toNat, rep6_toNat, rep7_toNat]
  exact ⟨rfl, rfl, rfl, rfl⟩

/-! ### Alpha (R186 to R190) -/

theorem keepsColours_setTileAlpha16 (alpha : Nat → Byte) (s : State) : KeepsColours s (setTileAlpha16 alpha s) := by
  intro n _
  rcases Nat.lt_or_ge n 16 with hn | hn
  · rw [tileAt_setTileAlpha16 _ _ hn]
    exact ⟨rfl, rfl, rfl⟩
  · rw [tileAt_setTileAlpha16_ge _ _ hn]
    exact ⟨rfl, rfl, rfl⟩

/-- R79: the table index of pixel `p`. -/
theorem eacIndex_toNat (x : BitVec 48) (p : Nat) : (eacIndex x p).toNat = x.toNat / 2 ^ (45 - 3 * p) % 8 := by
  rw [eacIndex, BitVec.extractLsb'_toNat, Nat.shiftRight_eq_div_pow]

/-- Settles O35: the alpha of each pixel is the clamped value of its table entry, written over the colours. -/
theorem eacAlphaResult : Obligations.EacAlphaResult := by
  refine ⟨rfl, fun b s => ⟨_, rfl, keepsColours_setTileAlpha16 _ s, fun p hp =>
    ⟨(eacIndex b.idx p).toFin, eacIndex_toNat b.idx p, ?_⟩⟩⟩
  rw [eacAlphaState, tileAt_setTileAlpha16 _ _ (raster_lt hp), etcRaster_raster hp]
  exact clamp255_toNat _

/-- The eight bytes of a word read back as the word, first byte most significant (R10). -/
theorem ofNat_beNat_beBytes (w : BitVec 64) : BitVec.ofNat 64 (beNat (beBytes 8 w.toNat)) = w := by
  have hlt : w.toNat < 256 ^ 8 := w.isLt
  rw [beNat_beBytes, Nat.mod_eq_of_lt hlt, BitVec.ofNat_toNat, BitVec.setWidth_eq]

theorem decode_etcColour_beBytes (etc2 : Bool) (w : BitVec 64) :
    decode (.etcColour etc2) (beBytes 8 w.toNat) = .ok (decodeEtcColourWord etc2 w) := by
  rw [decode_big (length_beBytes 8 _) rfl, decodeWord, ofNat_beNat_beBytes]

theorem decode_eacAlpha_beBytes (w : BitVec 64) :
    decode .eacAlpha (beBytes 8 w.toNat) = .ok (.eacAlpha (eacAlphaOf w)) := by
  rw [decode_big (length_beBytes 8 _) rfl, decodeWord, ofNat_beNat_beBytes]

/-- Settles O36: each block runs the colour half as its ETC2 row, then writes the alpha over it. -/
theorem etc2AlphaBlocks : Obligations.Etc2AlphaBlocks := by
  refine ⟨fun alpha colour s => ⟨_, _, _, decode_etcColour_beBytes true colour, exec_decodeEtcColourWord true colour s, rfl,
      fun n hn => tileAt_setTileAlpha16 _ _ hn, ?_, setTileAlpha16_etcBase _ _, setTileAlpha16_etcPaint _ _⟩,
    fun alpha colour s => ⟨_, _, _, _, decode_etcColour_beBytes true colour, decode_eacAlpha_beBytes alpha,
      exec_decodeEtcColourWord true colour s, rfl, rfl⟩⟩
  exact ((keepsOutsideEtc_etcColourState true colour s).setTileAlpha16 _).upper

end Sys2Proof.Machine
end

section
/-! PROOFS. The PVRTC rows: the colours, the weights and the mask that each word leaves in the record at the cursor, and what it
leaves alone (R221 to R231). -/

namespace Sys2Proof.Machine

open Sys2Proof Sys2Proof.Claim

/-! ### Colour words (R224 to R226) -/

theorem widen4_toNat (v : BitVec 4) : (widen4 v).toNat = 2 * v.toNat + v.toNat / 8 := by
  revert v
  decide

theorem widen3_toNat (v : BitVec 3) : (widen3 v).toNat = 4 * v.toNat + v.toNat / 2 := by
  revert v
  decide

theorem alpha3_toNat (v : BitVec 3) : (alpha3 v).toNat = 2 * v.toNat := by
  revert v
  decide

/-- Settles O39: each colour word is one update of the record at the cursor, by the widened colour. -/
theorem pvrtcColourResult : Obligations.PvrtcColourResult := fun s =>
  ⟨fun r g b _ => ⟨_, rfl, colaOpaque r g b, texRead_updateTex _ s, rfl, rfl, widen4_toNat b, rfl⟩,
    fun a r g b _ => ⟨_, rfl, colaTranslucent a r g b, texRead_updateTex _ s, widen4_toNat r, widen4_toNat g, widen3_toNat b,
      alpha3_toNat a⟩,
    fun r g b => ⟨_, rfl, colbOpaque r g b, texRead_updateTex _ s, rfl, rfl, rfl, rfl⟩,
    fun a r g b => ⟨_, rfl, colbTranslucent a r g b, texRead_updateTex _ s, widen4_toNat r, widen4_toNat g, widen4_toNat b,
      alpha3_toNat a⟩⟩

/-! ### 4bpp modulation words (R227, R228, R231) -/

theorem modCode_toNat (m : BitVec 32) (i : Nat) : (modCode m i).toNat = digit 4 m.toNat i := toNat_extractLsb'_eq_digit m 2 i

/-- A table read at the code of a sub-pixel (R228). -/
theorem stored_get_modCode (table : Vector (Fin 9) 4) (m : BitVec 32) (i : Nat) :
    Weight.stored (table.get (modCode m i).toFin) = tableWeight table m.toNat i := by
  have hcode : (modCode m i).toFin = ⟨digit 4 m.toNat i, Nat.mod_lt _ (by decide)⟩ := Fin.ext (modCode_toNat m i)
  rw [hcode]
  rfl

theorem modCode_eq_two_iff (m : BitVec 32) (i : Nat) : modCode m i = 2 ↔ digit 4 m.toNat i = 2 := by
  rw [← modCode_toNat, ← BitVec.toNat_inj]
  rfl

/-- What sub-pixel `k` adds to the mask (R231). -/
theorem getLsbD_punchBit (m : BitVec 32) {k : Nat} (hk : k < 32) (i : Nat) :
    (if modCode m k = 2 then 1#32 <<< k else 0).getLsbD i = decide (i = k ∧ modCode m i = 2) := by
  have hone : (1#32 <<< k).getLsbD i = decide (k = i) := by
    rw [← BitVec.twoPow_eq, BitVec.getLsbD_twoPow, decide_eq_true hk, Bool.true_and]
  rcases eq_or_ne i k with rfl | hi
  · split
    next h => simp [hone, h]
    next h => simpa using h
  · split <;> simp [hone, hi, Ne.symm hi]

/-- The mask over the first `k` sub-pixels has exactly the bits of the codes 2 among them (R231). -/
theorem getLsbD_punchMask (m : BitVec 32) {k : Nat} (hk : k ≤ 32) (i : Nat) :
    (punchMask m k).getLsbD i = decide (i < k ∧ modCode m i = 2) := by
  induction k with
  | zero => simp [punchMask]
  | succ k ih =>
    rw [punchMask, BitVec.getLsbD_or, ih (Nat.le_of_succ_le hk), getLsbD_punchBit m hk, ← Bool.decide_or]
    simp only [Nat.lt_succ_iff_lt_or_eq, or_and_right]

/-- Settles O40: both rows write the table's entry at each code, and the mask by the codes 2. -/
theorem pvrtcMod4Result : Obligations.PvrtcMod4Result := by
  refine ⟨rfl, rfl, fun m s => ⟨⟨_, rfl, ?_⟩, ⟨_, rfl, ?_⟩⟩⟩
  · rw [mod4StandardState, texRead_updateTex]
    exact ⟨rfl, rfl, fun n hn => (weight_weights4 _ m _ _ hn).trans (stored_get_modCode _ m n), rfl⟩
  · rw [mod4PunchthroughState, texRead_updateTex]
    exact ⟨rfl, rfl, fun n hn => (weight_weights4 _ m _ _ hn).trans (stored_get_modCode _ m n),
      fun n => by simp only [getLsbD_punchMask m (k := 16) (by decide), modCode_eq_two_iff]⟩

/-! ### 2bpp modulation words (R229 to R231) -/

theorem getLsbD_eq_false_iff_digit (m : BitVec 32) (i : Nat) : m.getLsbD i = false ↔ digit 2 m.toNat i = 0 := by
  rw [← toNat_ofBool_getLsbD]
  cases m.getLsbD i <;> decide

theorem getLsbD_eq_true_iff_digit (m : BitVec 32) (i : Nat) : m.getLsbD i = true ↔ digit 2 m.toNat i = 1 := by
  rw [← toNat_ofBool_getLsbD]
  cases m.getLsbD i <;> decide

theorem bitWeight_eq_oneBit (m : BitVec 32) (i : Nat) : bitWeight (m.getLsbD i) = oneBit (digit 2 m.toNat i) := by
  simp only [bitWeight, oneBit, getLsbD_eq_true_iff_digit]

theorem fillMark_eq (m : BitVec 32) :
    fillMark m = if digit 2 m.toNat 0 = 0 then .hv else if digit 2 m.toNat 20 = 0 then .h else .v := by
  simp only [fillMark, getLsbD_eq_false_iff_digit]

theorem weight_weights2Direct (m : BitVec 32) (r : TexelInfo) (pt : BitVec 32) {n : Nat} (hn : n < 32) :
    TexelInfo.weight { r with wt := weights2Direct m, pt := pt } n = bitWeight (m.getLsbD n) := by
  simp only [TexelInfo.weight, weights2Direct, Vector.getElem_ofFn, Nat.mod_eq_of_lt hn]

theorem weight_weights2Interpolated (std : Vector (Fin 9) 4) (m : BitVec 32) (r : TexelInfo) (pt : BitVec 32) {n : Nat}
    (hn : n < 32) : TexelInfo.weight { r with wt := weights2Interpolated std m, pt := pt } n = weight2Interpolated std m n := by
  simp only [TexelInfo.weight, weights2Interpolated, Vector.getElem_ofFn, Nat.mod_eq_of_lt hn]

/-- The weight at the `k`-th position with an even sum of coordinates (R230). -/
theorem weight2Interpolated_storedAt (std : Vector (Fin 9) 4) (m : BitVec 32) (k : Nat) :
    weight2Interpolated std m (storedAt k) =
      if k = 0 then oneBit (digit 2 m.toNat 1)
      else if k = 10 ∧ digit 2 m.toNat 0 = 1 then oneBit (digit 2 m.toNat 21)
      else tableWeight std m.toNat k := by
  have hrow : storedAt k / 8 = k / 4 := by
    unfold storedAt
    omega
  have hcol : storedAt k % 8 = 2 * (k % 4) + k / 4 % 2 := by
    unfold storedAt
    omega
  have heven : ¬ (storedAt k % 8 + storedAt k / 8) % 2 = 1 := by omega
  have hhalf : storedAt k / 2 = k := by omega
  have hzero : storedAt k = 0 ↔ k = 0 := by omega
  have htwenty : storedAt k = 20 ↔ k = 10 := by omega
  rw [weight2Interpolated, if_neg heven, bitWeight_eq_oneBit, bitWeight_eq_oneBit, stored_get_modCode, hhalf]
  simp only [hzero, htwenty, getLsbD_eq_true_iff_digit]

theorem weight2Interpolated_fill (std : Vector (Fin 9) 4) (m : BitVec 32) {i : Nat} (h : (i % 8 + i / 8) % 2 = 1) :
    weight2Interpolated std m i = .fill (fillMark m) := if_pos h

/-- Settles O41: one bit a sub-pixel; or the stored codes and, at the positions with an odd sum, the fill mark. -/
theorem pvrtcMod2Result : Obligations.PvrtcMod2Result := by
  refine fun m s => ⟨⟨_, rfl, ?_⟩, ⟨_, rfl, ?_⟩⟩
  · rw [mod2DirectState, texRead_updateTex]
    exact ⟨rfl, rfl, fun n hn => (weight_weights2Direct m _ _ hn).trans (bitWeight_eq_oneBit m n), rfl⟩
  · rw [mod2InterpolatedState, texRead_updateTex]
    refine ⟨rfl, rfl, fun k hk => ?_, fun n hn hodd => ?_, rfl⟩
    · have hlt : storedAt k < 32 := by
        unfold storedAt
        omega
      exact (weight_weights2Interpolated _ m _ _ hlt).trans (weight2Interpolated_storedAt _ m k)
    · rw [← fillMark_eq]
      exact (weight_weights2Interpolated _ m _ _ hn).trans (weight2Interpolated_fill _ m hodd)

/-! ### PVRTC.BLOCK (R222, R227) -/

theorem decode_leBytes {k : WordKind} {n : Nat} (w : BitVec n) (hn : n = 8 * k.bytes) (hk : k.bigEndian = false) :
    decode k (leBytes k.bytes w.toNat) = decodeWord k w.toNat := by
  have hlt : w.toNat < 256 ^ k.bytes := by
    rw [show 256 = 2 ^ 8 from rfl, ← Nat.pow_mul, ← hn]
    exact w.isLt
  rw [decode_little (length_leBytes ..) hk, leNat_leBytes, Nat.mod_eq_of_lt hlt]

theorem exec_decodeColourAWord (ca : BitVec 16) (s : State) :
    exec (decodeColourAWord ca) s = .next (setColourA (colourA ca) s) := by
  unfold decodeColourAWord colourA
  split <;> rfl

theorem exec_decodeColourBWord (cb : BitVec 16) (s : State) :
    exec (decodeColourBWord cb) s = .next (setColourB (colourB cb) s) := by
  unfold decodeColourBWord colourB
  split <;> rfl

theorem exec_decodeModulationWord (is2 mflag : Bool) (m : BitVec 32) (s : State) :
    exec (decodeModulationWord is2 mflag m) s = .next (modulationState is2 mflag m s) := by
  cases is2 <;> cases mflag <;> rfl

/-- Settles O42: each word of the block decodes to the row that makes its part of the update. -/
theorem pvrtcBlockIsItsWords : Obligations.PvrtcBlockIsItsWords := fun ca cb m s =>
  ⟨_, _, _, _, _, _,
    (decode_leBytes (k := .colourA) ca rfl rfl).trans (ok_ofNat_toNat decodeColourAWord rfl),
    (decode_leBytes (k := .colourB) cb rfl rfl).trans (ok_ofNat_toNat decodeColourBWord rfl),
    (decode_leBytes (k := .modulation s.is2 (ca.getLsbD 0)) m rfl rfl).trans (ok_ofNat_toNat (decodeModulationWord _ _) rfl),
    exec_decodeColourAWord ca s, exec_decodeColourBWord cb _, exec_decodeModulationWord s.is2 (ca.getLsbD 0) m _, rfl⟩

/-! ### What the rows leave unchanged (R221, R222) -/

/-- `t` is `s` but for the scratch record at the cursor's storage index. -/
def RecordOnly (s t : State) : Prop :=
  t = { s with tex := t.tex } ∧ ∀ j, j ≠ s.pc.k → texRead t.tex j = texRead s.tex j

theorem recordOnly_updateTex (f : TexelInfo → TexelInfo) (s : State) : RecordOnly s (updateTex f s) :=
  ⟨rfl, fun _ hj => texRead_updateTex_other f s hj⟩

theorem RecordOnly.trans {s t u : State} (h : RecordOnly s t) (h' : RecordOnly t u) : RecordOnly s u := by
  obtain ⟨ht, htex⟩ := h
  obtain ⟨hu, hutex⟩ := h'
  have hk : t.pc = s.pc := by rw [ht]
  refine ⟨?_, fun j hj => (hutex j (hk ▸ hj)).trans (htex j hj)⟩
  rw [hu, ht]

theorem recordOnly_modulationState (is2 mflag : Bool) (m : BitVec 32) (s : State) :
    RecordOnly s (modulationState is2 mflag m s) := by
  unfold modulationState
  split <;> exact recordOnly_updateTex _ s

/-- A PVRTC row writes the record at the cursor alone; PVRTC.BLOCK does so three times (R222). -/
theorem recordOnly_exec {i : Instr} {s t : State} (hk : i.kind = .pvrtc ∨ i.kind = .colourA ∨ i.kind = .colourB ∨
    ∃ is2 mflag, i.kind = .modulation is2 mflag) (h : exec i s = .next t) : RecordOnly s t := by
  cases i <;> simp only [Instr.kind, reduceCtorEq, exists_false, or_self] at hk <;> cases h
  case pvrtcBlock ca cb m =>
    exact .trans (.trans (recordOnly_updateTex _ s) (recordOnly_updateTex _ _)) (recordOnly_modulationState _ _ m _)
  all_goals exact recordOnly_updateTex _ s

theorem RecordOnly.engineOnly {s t : State} (h : RecordOnly s t) : EngineOnly s t := by
  unfold EngineOnly
  rw [h.1]

/-- Settles O43: every PVRTC row writes the record at the cursor and nothing else. -/
theorem pvrtcFrame : Obligations.PvrtcFrame := by
  intro i s t hk h
  have hkeeps := (recordOnly_exec hk h).engineOnly.keeps
  obtain ⟨ht, hother⟩ := recordOnly_exec hk h
  refine ⟨hkeeps, ?_, ?_, ?_, ?_, ?_, hother⟩ <;> rw [ht]

end Sys2Proof.Machine
end

section
/-! PROOFS. The Morton index: its bits, its range, and that it numbers the blocks of a power-of-two grid one to one (R233). -/

namespace Sys2Proof.Machine

open Sys2Proof

theorem testBit_toNat_shiftLeft (b : Bool) (k i : Nat) : (b.toNat <<< k).testBit i = (decide (i = k) && b) := by
  rw [Nat.testBit_shiftLeft, Nat.testBit_bool_toNat, ← Bool.and_assoc, ← Bool.decide_and]
  congr 2
  exact propext (by omega)

/-- The low part of the index has the bits of `t` at the even places and those of `s` at the odd ones. -/
theorem testBit_mortonLow (s t n j : Nat) :
    (mortonLow s t n).testBit (2 * j) = (decide (j < n) && t.testBit j) ∧
      (mortonLow s t n).testBit (2 * j + 1) = (decide (j < n) && s.testBit j) := by
  induction n with
  | zero => simp [mortonLow]
  | succ n ih =>
    obtain ⟨heven, hodd⟩ := ih
    have hlt : j < n + 1 ↔ j < n ∨ j = n := Nat.lt_succ_iff_lt_or_eq
    have hne : 2 * j + 1 ≠ 2 * n := by omega
    have hne' : 2 * j ≠ 2 * n + 1 := by omega
    simp only [mortonLow, Nat.testBit_or, testBit_toNat_shiftLeft, heven, hodd]
    rcases eq_or_ne j n with rfl | hj
    · simp
    · simp [hne, hne', hlt, hj]

/-- The index on a power-of-two grid: the interleaved low bits, below the high bits of the longer coordinate (R233). -/
theorem morton_two_pow (a b x y : Nat) : morton (2 ^ a) (2 ^ b) x y =
    mortonLow x y (min a b) ||| (((x ||| y) >>> min a b) <<< (2 * min a b)) := by
  have hlog : (min (2 ^ a) (2 ^ b)).log2 = min a b := by
    rw [← (pow_right_mono₀ (one_le_two (α := Nat))).map_min, Nat.log2_two_pow]
  rw [morton, hlog]

theorem testBit_morton_even (a b x y : Nat) {j : Nat} (hj : j < min a b) :
    (morton (2 ^ a) (2 ^ b) x y).testBit (2 * j) = y.testBit j := by
  rw [morton_two_pow, Nat.testBit_or, (testBit_mortonLow x y _ j).1, Nat.testBit_shiftLeft]
  simp [hj, show ¬ min a b ≤ j by omega]

theorem testBit_morton_odd (a b x y : Nat) {j : Nat} (hj : j < min a b) :
    (morton (2 ^ a) (2 ^ b) x y).testBit (2 * j + 1) = x.testBit j := by
  rw [morton_two_pow, Nat.testBit_or, (testBit_mortonLow x y _ j).2, Nat.testBit_shiftLeft]
  simp [hj, show ¬ 2 * min a b ≤ 2 * j + 1 by omega]

theorem morton_div (a b x y : Nat) : morton (2 ^ a) (2 ^ b) x y / 4 ^ min a b = (x ||| y) / 2 ^ min a b := by
  have hlow : mortonLow x y (min a b) >>> (2 * min a b) = 0 := by
    rw [Nat.shiftRight_eq_div_pow, Nat.div_eq_of_lt (mortonLow_lt x y _)]
  rw [show 4 = 2 ^ 2 from rfl, ← Nat.pow_mul, ← Nat.shiftRight_eq_div_pow, ← Nat.shiftRight_eq_div_pow, morton_two_pow,
    Nat.shiftRight_or_distrib, hlow, Nat.shiftLeft_shiftRight, Nat.zero_or]

/-- A coordinate of the grid from the index: its bits below the shorter side, and above it none or those of the high part. -/
theorem eq_of_low_high {m u v u' v' : Nat} (hlow : ∀ j, j < m → u.testBit j = u'.testBit j)
    (hhigh : (u ||| v) / 2 ^ m = (u' ||| v') / 2 ^ m) (hv : v < 2 ^ m) (hv' : v' < 2 ^ m) : u = u' := by
  refine Nat.eq_of_testBit_eq fun j => ?_
  rcases Nat.lt_or_ge j m with hj | hj
  · exact hlow j hj
  · have hzero : ∀ {w}, w < 2 ^ m → w.testBit j = false := fun hw =>
      Nat.testBit_lt_two_pow (hw.trans_le (Nat.pow_le_pow_right (by decide) hj))
    have hbit := congrArg (Nat.testBit · (j - m)) hhigh
    simpa [Nat.testBit_div_two_pow, Nat.sub_add_cancel hj, hzero hv, hzero hv'] using hbit

theorem eq_of_testBit_lt {m u u' : Nat} (hlow : ∀ j, j < m → u.testBit j = u'.testBit j) (hu : u < 2 ^ m) (hu' : u' < 2 ^ m) :
    u = u' := eq_of_low_high (v := 0) (v' := 0) hlow (by simp [Nat.div_eq_of_lt hu, Nat.div_eq_of_lt hu']) (by positivity)
      (by positivity)

/-- Two blocks with one index are one block: the longer coordinate takes the high part. -/
theorem morton_injective {a b x y x' y' : Nat} (hx : x < 2 ^ a) (hy : y < 2 ^ b) (hx' : x' < 2 ^ a) (hy' : y' < 2 ^ b)
    (h : morton (2 ^ a) (2 ^ b) x y = morton (2 ^ a) (2 ^ b) x' y') : x = x' ∧ y = y' := by
  have hxlow : ∀ j, j < min a b → x.testBit j = x'.testBit j := fun j hj => by
    rw [← testBit_morton_odd a b x y hj, h, testBit_morton_odd a b x' y' hj]
  have hylow : ∀ j, j < min a b → y.testBit j = y'.testBit j := fun j hj => by
    rw [← testBit_morton_even a b x y hj, h, testBit_morton_even a b x' y' hj]
  have hhigh : (x ||| y) / 2 ^ min a b = (x' ||| y') / 2 ^ min a b := by rw [← morton_div, h, morton_div]
  rcases Nat.le_total a b with hab | hab
  · rw [Nat.min_eq_left hab] at hxlow hylow hhigh
    refine ⟨eq_of_testBit_lt hxlow hx hx', eq_of_low_high hylow ?_ hx hx'⟩
    rwa [Nat.or_comm y, Nat.or_comm y']
  · rw [Nat.min_eq_right hab] at hxlow hylow hhigh
    exact ⟨eq_of_low_high hxlow hhigh hy hy', eq_of_testBit_lt hylow hy hy'⟩

theorem morton_two_pow_lt {a b x y : Nat} (hx : x < 2 ^ a) (hy : y < 2 ^ b) :
    morton (2 ^ a) (2 ^ b) x y < 2 ^ a * 2 ^ b :=
  morton_lt ((isPow2_iff _).2 ⟨a, rfl⟩) ((isPow2_iff _).2 ⟨b, rfl⟩) hx hy

/-- The storage index of a block of the grid. -/
def mortonOnGrid (a b : Nat) (p : Fin (2 ^ a) × Fin (2 ^ b)) : Fin (2 ^ a * 2 ^ b) :=
  ⟨morton (2 ^ a) (2 ^ b) p.1 p.2, morton_two_pow_lt p.1.isLt p.2.isLt⟩

/-- An injection between finite sets of one size is onto. -/
theorem mortonOnGrid_surjective (a b : Nat) : Function.Surjective (mortonOnGrid a b) := by
  have hinj : Function.Injective (mortonOnGrid a b) := fun p q h => by
    obtain ⟨h1, h2⟩ := morton_injective p.1.isLt p.2.isLt q.1.isLt q.2.isLt (congrArg Fin.val h)
    exact Prod.ext (Fin.ext h1) (Fin.ext h2)
  exact ((Fintype.bijective_iff_injective_and_card _).2 ⟨hinj, by simp⟩).2

/-- Settles O44: the bits give that the index is injective, and there are as many blocks as storage indices. -/
theorem mortonBijective : Obligations.MortonBijective := by
  refine fun a b => ⟨fun x y _ _ => ⟨fun j hj => ⟨testBit_morton_even a b x y hj, testBit_morton_odd a b x y hj⟩,
    morton_div a b x y⟩, fun x y => morton_two_pow_lt, fun k hk => ?_⟩
  obtain ⟨p, hp⟩ := mortonOnGrid_surjective a b ⟨k, hk⟩
  have hpk : morton (2 ^ a) (2 ^ b) p.1 p.2 = k := congrArg Fin.val hp
  refine ⟨(p.1.val, p.2.val), ⟨p.1.isLt, p.2.isLt, hpk⟩, fun q hq1 hq2 hq => ?_⟩
  obtain ⟨h1, h2⟩ := morton_injective hq1 hq2 p.1.isLt p.2.isLt (hq.trans hpk.symm)
  exact Prod.ext h1 h2

end Sys2Proof.Machine
end

section
/-! PROOFS. The sub-pixels of a PVRTC tile: the weight, the 9-tap sums, their scaling and the blend (R235 to R244). -/

namespace Sys2Proof.Machine

open Sys2Proof Sys2Proof.Claim

/-! ### The weight (R240, R241) -/

/-- The entry of `wt` that `wn(xx, yy)` of R241 looks up. -/
def neighbourEntry (n : Nat → Nat → TexelInfo) (xx yy : Int) : Weight :=
  (n (if yy < 0 then 0 else if 4 ≤ yy then 2 else 1) (if xx < 0 then 0 else if 8 ≤ xx then 2 else 1)).weight
    (8 * (yy % 4).toNat + (xx % 8).toNat)

theorem neighbourWeight_eq (n : Nat → Nat → TexelInfo) (xx yy : Int) :
    neighbourWeight n xx yy = (neighbourEntry n xx yy).toNat := rfl

/-- Parity carries across block borders: over expanded records a position with an even sum of coordinates holds a stored weight
(R241). -/
theorem neighbourEntry_stored {n : Nat → Nat → TexelInfo} (hn : ∀ i j, (n i j).Expanded true) {xx yy : Int}
    (h : (xx + yy) % 2 = 0) : ∃ w, neighbourEntry n xx yy = .stored w :=
  hn _ _ _ (by omega) (by omega)

theorem Weight.toNat_le (w : Weight) : w.toNat ≤ 8 := by
  cases w with
  | stored w => exact Nat.le_of_lt_succ w.isLt
  | fill f => exact Nat.zero_le 8

/-- A weight or an average of weights is at most 8. -/
theorem pvrtcWeight_le (cfg : Config) (is2 : Bool) (n : Nat → Nat → TexelInfo) (x y : Nat) :
    pvrtcWeight cfg is2 n x y ≤ 8 := by
  have hwn : ∀ xx yy, neighbourWeight n xx yy ≤ 8 := fun xx yy => Weight.toNat_le _
  unfold pvrtcWeight
  split
  next w _ => exact Nat.le_of_lt_succ w.isLt
  next f _ =>
    have hd := hwn x (y - 1)
    have hu := hwn x (y + 1)
    have hl := hwn (x - 1) y
    have hr := hwn (x + 1) y
    unfold derivedWeight
    split <;> omega

theorem pvrtcWeight_stored (cfg : Config) {is2 : Bool} {n : Nat → Nat → TexelInfo} {x y : Nat} {w : Fin 9}
    (h : (n 1 1).weight (pvrtcWidth is2 * y + x) = .stored w) : pvrtcWeight cfg is2 n x y = w.val := by
  rw [pvrtcWeight, h]

theorem pvrtcWeight_fill (cfg : Config) {is2 : Bool} {n : Nat → Nat → TexelInfo} {x y : Nat} {f : Fill}
    (h : (n 1 1).weight (pvrtcWidth is2 * y + x) = .fill f) :
    pvrtcWeight cfg is2 n x y = derivedWeight cfg.pvrtc2Average n f x y := by
  rw [pvrtcWeight, h]

/-- A fill mark stands only where the sum of coordinates is odd (R230). -/
theorem odd_of_fill {r : TexelInfo} (hr : r.Expanded true) {x y : Nat} (hx : x < 8) (hy : y < 4) {f : Fill}
    (h : r.weight (8 * y + x) = .fill f) : (x + y) % 2 = 1 := by
  by_contra heven
  obtain ⟨w, hw⟩ := hr (8 * y + x) (by omega) (by omega)
  exact nomatch h.symm.trans hw

/-- Settles O46: at a fill mark the four neighbours have an even sum of coordinates, so what is averaged is stored weights. -/
theorem derivedWeights : Obligations.DerivedWeights := by
  refine fun n hn x y hx hy => ⟨pvrtcWeight_le .., fun w => pvrtcWeight_stored (is2 := true) _, fun f hf => ?_,
    fun _ _ _ => pvrtcWeight_stored (is2 := false) _⟩
  have hodd := odd_of_fill (hn 1 1) hx hy hf
  obtain ⟨d, hd⟩ := neighbourEntry_stored hn (xx := x + 0) (yy := y + -1) (by omega)
  obtain ⟨u, hu⟩ := neighbourEntry_stored hn (xx := x + 0) (yy := y + 1) (by omega)
  obtain ⟨l, hl⟩ := neighbourEntry_stored hn (xx := x + -1) (yy := y + 0) (by omega)
  obtain ⟨r, hr⟩ := neighbourEntry_stored hn (xx := x + 1) (yy := y + 0) (by omega)
  refine ⟨d, u, l, r, hd, hu, hl, hr, ?_⟩
  rw [Int.add_zero] at hd hu hl hr
  rw [pvrtcWeight_fill _ hf]
  cases f <;> simp only [derivedWeight, neighbourWeight_eq, Int.sub_eq_add_neg, hd, hu, hl, hr, Weight.toNat]

/-! ### The 9-tap sums (R235, R236) -/

theorem rowWeight_default {y a : Nat} (hy : y < 4) (ha : a < 3) : rowWeight defaultConfig y a = w4 y a := by
  have h : ∀ (y : Fin 4) (a : Fin 3), rowWeight defaultConfig y a = w4 y a := by decide
  exact h ⟨y, hy⟩ ⟨a, ha⟩

theorem colWeight_default (is2 : Bool) {x a : Nat} (hx : x < pvrtcWidth is2) (ha : a < 3) :
    colWeight defaultConfig is2 x a = (if is2 then w8 x else w4 x) a := by
  cases is2 with
  | false =>
    have h : ∀ (x : Fin 4) (a : Fin 3), colWeight defaultConfig false x a = w4 x a := by decide
    exact h ⟨x, hx⟩ ⟨a, ha⟩
  | true =>
    have h : ∀ (x : Fin 8) (a : Fin 3), colWeight defaultConfig true x a = w8 x a := by decide
    exact h ⟨x, hx⟩ ⟨a, ha⟩

theorem tapSum_default (is2 : Bool) (n : Nat → Nat → TexelInfo) (c : TexelInfo → Nat) {x y : Nat}
    (hx : x < pvrtcWidth is2) (hy : y < 4) :
    tapSum defaultConfig is2 n c x y = taps (if is2 then w8 x else w4 x) (w4 y) fun i j => c (n i j) := by
  have hrow : ∀ a, a < 3 → rowWeight defaultConfig y a = w4 y a := fun a => rowWeight_default hy
  have hcol : ∀ a, a < 3 → colWeight defaultConfig is2 x a = (if is2 then w8 x else w4 x) a := fun a => colWeight_default is2 hx
  have hrange : List.range 3 = [0, 1, 2] := rfl
  simp only [tapSum, hrange, List.map_cons, List.map_nil, List.sum_cons, List.sum_nil, hrow, hcol, Nat.reduceLT, taps]
  ring

/-- The tables' weights add up to 4 a row and to the width of the tile a column (R235). -/
theorem taps_uniform (is2 : Bool) {x y : Nat} (hx : x < pvrtcWidth is2) (hy : y < 4) (v : Nat) :
    taps (if is2 then w8 x else w4 x) (w4 y) (fun _ _ => v) = 4 * pvrtcWidth is2 * v := by
  have h4 : ∀ p : Fin 4, w4 p 0 + w4 p 1 + w4 p 2 = 4 := by decide
  have h8 : ∀ p : Fin 8, w8 p 0 + w8 p 1 + w8 p 2 = 8 := by decide
  have hfactor : ∀ col row : Nat → Nat,
      taps col row (fun _ _ => v) = (row 0 + row 1 + row 2) * (col 0 + col 1 + col 2) * v := fun col row => by
    unfold taps
    ring
  rw [hfactor, h4 ⟨y, hy⟩]
  cases is2 with
  | false => exact congrArg (4 * · * v) (h4 ⟨x, hx⟩)
  | true => exact congrArg (4 * · * v) (h8 ⟨x, hx⟩)

theorem taps_le (col row : Nat → Nat) {n : Nat → Nat → Nat} {v : Nat} (h : ∀ i j, n i j ≤ v) :
    taps col row n ≤ taps col row fun _ _ => v := by
  unfold taps
  gcongr <;> exact h _ _

/-! ### Scaling and blend (R237, R238, R242) -/

theorem scaleBy_eq_div (shifts : Nat × Nat) (v : Nat) : scaleBy shifts v = v / 2 ^ shifts.1 + v / 2 ^ shifts.2 := by
  rw [scaleBy, Nat.shiftRight_eq_div_pow, Nat.shiftRight_eq_div_pow]

theorem scaleRgb_default (is2 : Bool) (v : Nat) : scaleRgb defaultConfig is2 v = scaled is2 v := by
  cases is2 <;> exact scaleBy_eq_div _ v

theorem scaleAlpha_default (is2 : Bool) (v : Nat) : scaleAlpha defaultConfig is2 v = scaledAlpha is2 v := by
  cases is2 with
  | false => exact (scaleBy_eq_div (0, 4) v).trans (congrArg (· + v / 16) (Nat.div_one v))
  | true => exact scaleBy_eq_div (1, 5) v

theorem blend_eq_mix (ea eb w : Nat) : blend ea eb w = mix ea eb w := rfl

/-- A sum of 5-bit channels is scaled as bit replication does, and stays in eight bits. -/
theorem scaled_uniform (is2 : Bool) (v : Nat) : scaled is2 (4 * pvrtcWidth is2 * v) = rep5 v := by
  cases is2 <;> simp [scaled, pvrtcWidth, rep5] <;> omega

theorem scaledAlpha_uniform (is2 : Bool) (v : Nat) : scaledAlpha is2 (4 * pvrtcWidth is2 * v) = rep4 v := by
  cases is2 <;> simp [scaledAlpha, pvrtcWidth, rep4] <;> omega

theorem mix_le {ea eb w m : Nat} (ha : ea ≤ m) (hb : eb ≤ m) (hw : w ≤ 8) : mix ea eb w ≤ m := by
  have h : ea * (8 - w) + eb * w ≤ m * 8 :=
    calc ea * (8 - w) + eb * w ≤ m * (8 - w) + m * w := by gcongr
      _ = m * 8 := by rw [← Nat.mul_add, Nat.sub_add_cancel hw]
  exact Nat.div_le_of_le_mul (by omega)

theorem scaled_mono (is2 : Bool) : Monotone (scaled is2) := fun u v h => by
  unfold scaled
  split <;> omega

theorem scaledAlpha_mono (is2 : Bool) : Monotone (scaledAlpha is2) := fun u v h => by
  unfold scaledAlpha
  split <;> omega

/-- A channel whose nine records agree is the blend of the two widened colours (R244). -/
theorem channel_uniform (is2 : Bool) (scale : Nat → Nat) {x y : Nat} (hx : x < pvrtcWidth is2) (hy : y < 4) (u v w : Nat) :
    channel is2 scale (fun _ _ => u) (fun _ _ => v) x y w =
      mix (scale (4 * pvrtcWidth is2 * u)) (scale (4 * pvrtcWidth is2 * v)) w := by
  rw [channel, taps_uniform is2 hx hy, taps_uniform is2 hx hy]

/-- No channel is above the one whose nine records hold the greatest value, so none wraps (R242). -/
theorem toNat_ofNat_channel {k : Nat} {is2 : Bool} {scale : Nat → Nat} (hscale : Monotone scale)
    (hmax : scale (4 * pvrtcWidth is2 * (2 ^ k - 1)) = 255) {x y w : Nat} (hx : x < pvrtcWidth is2) (hy : y < 4) (hw : w ≤ 8)
    (a b : Nat → Nat → BitVec k) :
    (BitVec.ofNat 8 (channel is2 scale (fun i j => (a i j).toNat) (fun i j => (b i j).toNat) x y w)).toNat =
      channel is2 scale (fun i j => (a i j).toNat) (fun i j => (b i j).toNat) x y w := by
  have hbound : ∀ c : Nat → Nat → BitVec k,
      scale (taps (if is2 then w8 x else w4 x) (w4 y) fun i j => (c i j).toNat) ≤ 255 := fun c => by
    rw [← hmax, ← taps_uniform is2 hx hy]
    exact hscale (taps_le _ _ fun i j => Nat.le_sub_one_of_lt (c i j).isLt)
  rw [BitVec.toNat_ofNat]
  exact Nat.mod_eq_of_lt (Nat.lt_succ_of_le (mix_le (hbound a) (hbound b) hw))

/-- The pixel on plain numbers. -/
theorem pvrtcPixel_default (is2 : Bool) (n : Nat → Nat → TexelInfo) {x y : Nat} (hx : x < pvrtcWidth is2) (hy : y < 4) :
    let w := pvrtcWeight defaultConfig is2 n x y
    pvrtcPixel defaultConfig is2 n x y =
      { r := BitVec.ofNat 8 (channel is2 (scaled is2) (fun i j => (n i j).a.r.toNat) (fun i j => (n i j).b.r.toNat) x y w)
        g := BitVec.ofNat 8 (channel is2 (scaled is2) (fun i j => (n i j).a.g.toNat) (fun i j => (n i j).b.g.toNat) x y w)
        b := BitVec.ofNat 8 (channel is2 (scaled is2) (fun i j => (n i j).a.b.toNat) (fun i j => (n i j).b.b.toNat) x y w)
        a := if (n 1 1).pt.getLsbD (pvrtcWidth is2 * y + x) then 0
          else BitVec.ofNat 8
            (channel is2 (scaledAlpha is2) (fun i j => (n i j).a.a.toNat) (fun i j => (n i j).b.a.toNat) x y w) } := by
  simp only [pvrtcPixel, tapSum_default is2 n _ hx hy, scaleRgb_default, scaleAlpha_default, blend_eq_mix, channel]

/-- Settles O45: each channel is computed as the formula says, and it fits in eight bits. -/
theorem pvrtcPixelExact : Obligations.PvrtcPixelExact := by
  intro is2 n x y hx hy hw w p
  have hrgb := toNat_ofNat_channel (k := 5) (scaled_mono is2) (scaled_uniform is2 31) hx hy hw
  have halpha := toNat_ofNat_channel (k := 4) (scaledAlpha_mono is2) (scaledAlpha_uniform is2 15) hx hy hw
  have hp : p = _ := pvrtcPixel_default is2 n hx hy
  rw [hp]
  refine ⟨hrgb _ _, hrgb _ _, hrgb _ _, ?_⟩
  refine (apply_ite BitVec.toNat _ _ _).trans ?_
  rw [halpha]
  rfl

/-- Settles O47: over nine equal records every sum is a multiple of the channel, which the scaling widens by replication. -/
theorem uniformImage : Obligations.UniformImage := by
  intro is2 rec x y _ hx hy w p
  obtain ⟨hr, hg, hb, ha⟩ := pvrtcPixelExact is2 (fun _ _ => rec) x y hx hy (pvrtcWeight_le ..)
  have hrgb := fun u v => channel_uniform is2 (scaled is2) hx hy u v w
  have halpha := fun u v => channel_uniform is2 (scaledAlpha is2) hx hy u v w
  simp only [scaled_uniform, scaledAlpha_uniform] at hrgb halpha
  exact ⟨hr.trans (hrgb _ _), hg.trans (hrgb _ _), hb.trans (hrgb _ _), by rw [← halpha]; exact ha⟩

end Sys2Proof.Machine
end

section
/-! PROOFS. The errors of START: the order of its checks, and the state a raised error leaves (R273, R275, R277). -/

namespace Sys2Proof.Machine

open Sys2Proof Sys2Proof.Claim

/-! ### The fit of a command, negated -/

theorem State.not_rangesFit_iff {f : Format} {s : State} :
    ¬ s.rangesFit f ↔ 2 ^ 32 < s.srcBase + (s.grid f).need ∨ 2 ^ 32 < s.dstBase + s.dstLen := by
  rw [State.rangesFit, not_and_or, Nat.not_le, Nat.not_le]

theorem State.not_gridFits_iff {f : Format} {s : State} :
    ¬ s.gridFits f ↔ isPvrtc f = true ∧ ¬ (isPow2 (s.grid f).nbx = true ∧ isPow2 (s.grid f).nby = true) :=
  Classical.not_imp

theorem State.not_scratchFits_iff {f : Format} {s : State} :
    ¬ s.scratchFits f ↔ isPvrtc f = true ∧ s.cfg.scratchBlocks < (s.grid f).count := by
  rw [State.scratchFits, Classical.not_imp, Nat.not_le]

/-! ### The first check that fails -/

/-- First, the ranges (R104). -/
theorem startCheck_of_not_rangesFit {f : Format} {s : State} (hr : ¬ s.rangesFit f) :
    startCheck f s = some .badGeometry :=
  if_pos (State.not_rangesFit_iff.1 hr)

/-- Then the grid of a PVRTC command that has a block (R106). -/
theorem startCheck_of_not_gridFits {f : Format} {s : State} (hr : s.rangesFit f) (hpos : 0 < (s.grid f).count)
    (hg : ¬ s.gridFits f) : startCheck f s = some .badGeometry := by
  obtain ⟨hpvrtc, hpow⟩ := State.not_gridFits_iff.1 hg
  rw [startCheck, if_neg (State.not_rangesFit_iff.not_right.1 hr), if_pos ⟨hpvrtc, hpos, hpow⟩]

/-- With the ranges and the grid right, the length of the source and then the scratch are left to check (R105, R107). -/
theorem startCheck_of_fits {f : Format} {s : State} (hr : s.rangesFit f) (hg : s.gridFits f) :
    startCheck f s =
      if s.len.toNat < (s.grid f).need then some .inputTooShort
      else if isPvrtc f = true ∧ s.cfg.scratchBlocks < (s.grid f).count then some .allocationFailure
      else none := by
  rw [startCheck, if_neg (State.not_rangesFit_iff.not_right.1 hr),
    if_neg fun ⟨hpvrtc, _, hpow⟩ => hpow (hg hpvrtc)]

/-! ### What START raises -/

/-- A selector no engine has is reported before any other cause (R273, R277). -/
theorem accept_none {s : State} (hb : s.st ≠ .busy) : accept none s = .next (raised .unknownFormat s) := if_neg hb

theorem exec_start_of_format_none {s : State} (c : Bool) (hb : s.st ≠ .busy) (hf : s.format = none) :
    exec (.start c) s = .next (raised .unknownFormat s) := by
  show accept s.format s = _
  rw [hf, accept_none hb]

/-- A START with a failing check raises that check's error (R100, R275). -/
theorem exec_start_raises {f : Format} {s : State} {e : ErrCode} (c : Bool) (hb : s.st ≠ .busy) (hf : s.format = some f)
    (hc : startCheck f s = some e) : exec (.start c) s = .next (raised e s) := by
  show accept s.format s = _
  rw [hf, accept, if_neg hb]
  simp only [hc]
  rfl

/-- Settles O17: without an engine nothing is checked, and with one START raises the error of the first check that fails. -/
theorem startErrorPriority : Obligations.StartErrorPriority := by
  intro s c hb
  refine ⟨exec_start_of_format_none c hb, fun f hf => ⟨fun hr => ?_, fun hr hpos hg => ?_, fun hr hg hshort => ?_,
    fun hr hg hlong hscratch => ?_⟩⟩ <;> apply exec_start_raises c hb hf
  · exact startCheck_of_not_rangesFit hr
  · exact startCheck_of_not_gridFits hr hpos hg
  · rw [startCheck_of_fits hr hg, if_pos hshort]
  · rw [startCheck_of_fits hr hg, if_neg (Nat.not_lt.2 hlong), if_pos (State.not_scratchFits_iff.1 hscratch)]

/-- Settles O19: both are the acceptance of no format, which looks at STATE alone. -/
theorem reservedSelectorRaises : Obligations.ReservedSelectorRaises := by
  refine ⟨fun _ _ _ hb => accept_none hb, fun s c hb hreserved => exec_start_of_format_none c hb ?_⟩
  exact formatOf_reserved s.is2 (hreserved.imp_left BitVec.eq_of_toNat_eq)

end Sys2Proof.Machine
end
